-- ==== Sys2Proof/Word.lean ====
section
/-! DEFINITION. The words of the machine and its small closed types: formats, selectors, tiers,
error codes, plane numbers. -/

namespace Sys2Proof

/-- One byte: a YUV sample or a memory cell (00_scope.md R8, 20_memory.md R61). -/
abbrev Byte := BitVec 8

/-- One 32-bit register or binary32 encoding (10_state.md R22, 20_memory.md R60). -/
abbrev Word := BitVec 32

/-- The format codes 0 to 8 by name (30_encoding.md R92). Codes 9 to 15 are reserved and name none. -/
inductive Format
  | p420 | spuv | spvu | p444 | pk444 | pk422c | pk422l | rgbf | tile16
deriving DecidableEq, Repr, Inhabited

/-- The colour-matrix selector SEL = {CM_STUDIO, CM_709} (30_encoding.md R101), 0 to 3 in this order. -/
inductive Sel
  | full601 | full709 | studio601 | studio709
deriving DecidableEq, Repr, Inhabited

/-- A colour component: the matrix row that gives it (46_rgb_to_yuv.md R215). -/
inductive Component
  | y | u | v
deriving DecidableEq, Repr, Inhabited

/-- The datapath tiers (00_scope.md R13, 47_dispatch.md R241). There is no fourth. -/
inductive Tier
  | scalar | v128 | v256
deriving DecidableEq, Repr, Inhabited

/-- The error codes of STATUS.ERR (60_exceptions.md R260). Codes 8 to 15 are never produced. -/
inductive ErrCode
  | none | op | fmt | unsup | dim | stride | range | bus
deriving DecidableEq, Repr, Inhabited

/-- A plane number 0, 1 or 2. -/
inductive Ix
  | p0 | p1 | p2
deriving DecidableEq, Repr, Inhabited

/-- Three like things, one for each plane number. -/
structure Three (α : Type) where
  p0 : α
  p1 : α
  p2 : α
deriving DecidableEq, Repr, Inhabited

/-- The member of plane number `i`. -/
def Three.get {α : Type} (t : Three α) : Ix → α
  | .p0 => t.p0
  | .p1 => t.p1
  | .p2 => t.p2

/-- `t` with plane number `i` holding `x`. -/
def Three.set {α : Type} (t : Three α) (i : Ix) (x : α) : Three α :=
  match i with
  | .p0 => { t with p0 := x }
  | .p1 => { t with p1 := x }
  | .p2 => { t with p2 := x }

end Sys2Proof
end

