-- ==== Sys2Proof/Config.lean ====
section
/-! DEFINITION. What an implementation or a platform fixes (00_scope.md R7), as plain data a state
carries, and the uninterpreted constants that stand for what the spec leaves open. -/

namespace Sys2Proof

/-- One row of a colour matrix, or one pixel: four binary32 encodings (46_rgb_to_yuv.md R216). -/
structure Row4 where
  c0 : Word
  c1 : Word
  c2 : Word
  c3 : Word
deriving DecidableEq, Repr, Inhabited

/-- One 3×4 coefficient set: rows Y, U, V (46_rgb_to_yuv.md R216). -/
structure Matrix where
  y : Row4
  u : Row4
  v : Row4
deriving DecidableEq, Repr, Inhabited

/-- CM[0..3], the four fixed coefficient sets (30_encoding.md R101). -/
structure ColourSets where
  full601   : Matrix
  full709   : Matrix
  studio601 : Matrix
  studio709 : Matrix
deriving DecidableEq, Repr, Inhabited

/-- How a parameter with a stated default is filled: by the default the spec gives, or by the
implementation's own function, which is uninterpreted (92_eei_decisions.md D14, D15; log 2). -/
inductive Evaluation
  | specDefault | implementation
deriving DecidableEq, Repr, Inhabited

/-- PK444_OFF, the byte offsets of Y, U and V in a packed 4:4:4 pixel (30_encoding.md R96). -/
structure PixelOffsets where
  y : Fin 4
  u : Fin 4
  v : Fin 4
deriving DecidableEq, Repr, Inhabited

/-- The implementation parameters of 00_scope.md R7. NUM_INSTANCES and REG_BASE are the list of
PFC register blocks a state holds. -/
structure Params where
  hasV128    : Bool
  hasV256    : Bool
  hasSpvuDst : Bool
  addrW      : Nat
  pfcId      : Word
  pk444      : PixelOffsets
  cm         : ColourSets
  zcFull     : Int
  cmDot      : Evaluation
  f2i        : Evaluation
  nanSample  : Byte
deriving DecidableEq, Repr, Inhabited

/-- "three distinct values in 0..3" (92_eei_decisions.md D9). -/
def PixelOffsets.legal (o : PixelOffsets) : Bool :=
  o.y != o.u && o.y != o.v && o.u != o.v

/-- The constraints of 92_eei_decisions.md, "Parameters left open". -/
def Params.legal (p : Params) : Bool :=
  decide (32 ≤ p.addrW) && decide (p.addrW ≤ 64) && p.pk444.legal

/-- `p` with a value outside its constraint replaced: the default PK444_OFF (2, 1, 0), and the
nearest legal ADDR_W (log 16). A legal `p` is unchanged. -/
def Params.legalise (p : Params) : Params :=
  { p with
    addrW := max 32 (min p.addrW 64)
    pk444 := if p.pk444.legal then p.pk444 else ⟨2, 1, 0⟩ }

/-- The size of a register block in bytes (10_state.md R22). -/
def blockSize : Nat := 4096

/-- The register blocks at `a` and `b` have no byte in common. -/
def blocksApart (a b : Nat) : Bool := decide (a + blockSize ≤ b) || decide (b + blockSize ≤ a)

/-- The REG_BASEs of a list whose block has no byte in common with a block in `kept` or with an earlier
one that stayed: each instance has a register block of its own, and its REG_BASE identifies it
(60_exceptions.md R281). A list of such bases is unchanged (log 16). -/
def separateBases (kept : List Nat) : List Nat → List Nat
  | [] => []
  | b :: rest =>
    if kept.all fun k => blocksApart k b then b :: separateBases (b :: kept) rest
    else separateBases kept rest

/-- A stretch of ordinary memory and what the memory system completes there (20_memory.md R68). -/
structure Region where
  base     : Nat
  size     : Nat
  readable : Bool
  writable : Bool
deriving DecidableEq, Repr, Inhabited

/-- The integer a float rounds to, or an infinity (46_rgb_to_yuv.md R219). -/
inductive Rounded
  | int (n : Int)
  | posInf
  | negInf
deriving DecidableEq, Repr, Inhabited

/-- The implementation's parameters, OPEN: no value of them can be proved (log 1). -/
opaque Config.rawParams : Params

/-- The parameters of the machine after reset: the open ones, made legal (logs 1, 16). -/
def Config.params : Params := Config.rawParams.legalise

/-- REG_BASE of the first PFC instance, OPEN (00_scope.md R7). -/
opaque Config.firstRegBase : Nat

/-- Candidates for REG_BASE of every further PFC instance, OPEN (NUM_INSTANCES ≥ 1;
92_eei_decisions.md D45). -/
opaque Config.rawRegBases : List Nat

/-- REG_BASE of every further PFC instance after reset, each with a block of its own (logs 1, 16). -/
def Config.otherRegBases : List Nat := separateBases [Config.firstRegBase] Config.rawRegBases

/-- The platform's memory map, OPEN (20_memory.md R68, R74; log 5). -/
opaque Config.memMap : List Region

/-- CM_DOT of an implementation that does not use the default, "a function of (p, m) only"
(92_eei_decisions.md, "Parameters left open"; log 2). -/
opaque Config.cmDot : Row4 → Row4 → Word

/-- F2I of an implementation that does not use the default, "a function of d only" (log 2). -/
opaque Config.f2i : Word → Rounded

/-- The n-th free byte drawn (20_memory.md R66, R78; 70_reset_and_hazards.md R291; log 12). -/
opaque Config.drawByte : Nat → Byte

/-- Whether the n-th byte that may be written is written (20_memory.md R66; log 12). -/
opaque Config.drawWrite : Nat → Bool

end Sys2Proof
end

