-- ==== Sys2Proof/Syntax.lean ====
section
/-! DEFINITION. The ten commands of the opcode map (30_encoding.md R103, opcode_table.json). -/

namespace Sys2Proof

/-- A command of the PFC, one constructor per row of opcode_table.json. The selector SEL is an
operand of the three RGBF commands only; the other seven ignore OP[9:8] (30_encoding.md R105). -/
inductive Instr
  | cvtP420Spuv
  | cvtP420Spvu
  | cvtPk444P444
  | cvtPk422cSpuv
  | cvtPk422cSpvu
  | cvtPk422lSpuv
  | cvtPk422lSpvu
  | cvtRgbfP444 (sel : Sel)
  | cvtRgbfSpuv (sel : Sel)
  | cvtRgbfSpvu (sel : Sel)
deriving DecidableEq, Repr, Inhabited

end Sys2Proof
end

