-- ==== Sys2Proof/WellFormed.lean ====
section
/-! DEFINITION. Which commands an implementation has (30_encoding.md R98). Every other bound on a
command's fields is in its type. -/

namespace Sys2Proof

/-- The command writes the VU-order interleaved destination SPVU. -/
def Instr.writesSpvu : Instr → Bool
  | .cvtP420Spvu | .cvtPk422cSpvu | .cvtPk422lSpvu | .cvtRgbfSpvu _ => true
  | .cvtP420Spuv | .cvtPk444P444 | .cvtPk422cSpuv | .cvtPk422lSpuv
  | .cvtRgbfP444 _ | .cvtRgbfSpuv _ => false

/-- A command is well formed on an implementation that has it: "The SPVU code is accepted as a
destination only if CAPS.HAS_SPVU_DST = 1" (30_encoding.md R98). -/
def Instr.wellFormed (cfg : Params) (i : Instr) : Bool :=
  !i.writesSpvu || cfg.hasSpvuDst

end Sys2Proof
end

