-- ==== Sys2Proof/Decode.lean ====
section
/-! DEFINITION. The command word: format codes, the format predicates, the decoder (total, rejecting
by the error code's name) and the encoder (30_encoding.md R90 to R105). -/

namespace Sys2Proof

/-- The format of a 4-bit code; codes 9 to 15 are reserved (30_encoding.md R92). -/
def Format.ofCode (c : BitVec 4) : Option Format :=
  match c.toNat with
  | 0 => some .p420
  | 1 => some .spuv
  | 2 => some .spvu
  | 3 => some .p444
  | 4 => some .pk444
  | 5 => some .pk422c
  | 6 => some .pk422l
  | 7 => some .rgbf
  | 8 => some .tile16
  | _ => none

/-- The code of a format (30_encoding.md R92). -/
def Format.code : Format → BitVec 4
  | .p420 => 0
  | .spuv => 1
  | .spvu => 2
  | .p444 => 3
  | .pk444 => 4
  | .pk422c => 5
  | .pk422l => 6
  | .rgbf => 7
  | .tile16 => 8

/-- `IsPlanar420` of a format code (30_encoding.md R102). -/
def isPlanar420 (c : BitVec 4) : Bool := c == 0

/-- `IsInterleaved420` of a format code (30_encoding.md R102). -/
def isInterleaved420 (c : BitVec 4) : Bool := c == 1 || c == 2

/-- `IsYUV444` of a format code (30_encoding.md R102). -/
def isYuv444 (c : BitVec 4) : Bool := c == 3 || c == 4

/-- `Is422` of a format code (30_encoding.md R102). -/
def is422 (c : BitVec 4) : Bool := c == 5 || c == 6

/-- `IsRGBF` of a format code (30_encoding.md R102). -/
def isRgbf (c : BitVec 4) : Bool := c == 7

/-- `IsTiled16x16` of a format code (30_encoding.md R102). -/
def isTiled16x16 (c : BitVec 4) : Bool := c == 8

/-- OP[3:0] (30_encoding.md R91). -/
def opSrcf (op : Word) : BitVec 4 := op.extractLsb' 0 4

/-- OP[7:4] (30_encoding.md R91). -/
def opDstf (op : Word) : BitVec 4 := op.extractLsb' 4 4

/-- OP[9:8] = {CM_STUDIO, CM_709} (30_encoding.md R91, R101). -/
def opSel (op : Word) : BitVec 2 := op.extractLsb' 8 2

/-- OP[31:10], reserved (10_state.md R30). -/
def opRsv (op : Word) : BitVec 22 := op.extractLsb' 10 22

/-- The selector of OP[9:8] (30_encoding.md R101). -/
def Sel.ofBits (b : BitVec 2) : Sel :=
  match b.toNat with
  | 0 => .full601
  | 1 => .full709
  | 2 => .studio601
  | _ => .studio709

/-- The two bits of a selector (30_encoding.md R101). -/
def Sel.bits : Sel → BitVec 2
  | .full601 => 0
  | .full709 => 1
  | .studio601 => 2
  | .studio709 => 3

/-- The kernel of a pair of formats with its selector, or none (30_encoding.md R103). -/
def kernelOf (src dst : Format) (sel : Sel) : Option Instr :=
  match src, dst with
  | .p420, .spuv => some .cvtP420Spuv
  | .p420, .spvu => some .cvtP420Spvu
  | .pk444, .p444 => some .cvtPk444P444
  | .pk422c, .spuv => some .cvtPk422cSpuv
  | .pk422c, .spvu => some .cvtPk422cSpvu
  | .pk422l, .spuv => some .cvtPk422lSpuv
  | .pk422l, .spvu => some .cvtPk422lSpvu
  | .rgbf, .p444 => some (.cvtRgbfP444 sel)
  | .rgbf, .spuv => some (.cvtRgbfSpuv sel)
  | .rgbf, .spvu => some (.cvtRgbfSpvu sel)
  | _, _ => none

/-- The decoder of the OP word in the order of 30_encoding.md R104, but for its last check, which
needs CAPS and is `decodeOn`. It is total, and rejects by the error code the engine would report. -/
def decodeOp (op : Word) : Except ErrCode Instr :=
  if opRsv op ≠ 0 then .error .op
  else
    match Format.ofCode (opSrcf op), Format.ofCode (opDstf op) with
    | some src, some dst =>
      match kernelOf src dst (Sel.ofBits (opSel op)) with
      | some i => .ok i
      | none => .error .unsup
    | _, _ => .error .fmt

/-- The whole of `decode` of 30_encoding.md R104, with its check of CAPS.HAS_SPVU_DST (R98). -/
def decodeOn (cfg : Params) (op : Word) : Except ErrCode Instr :=
  match decodeOp op with
  | .ok i => if i.wellFormed cfg then .ok i else .error .unsup
  | .error e => .error e

/-- The little-endian word of four bytes, the first at the lowest address (20_memory.md R60). -/
def wordOfBytes (b0 b1 b2 b3 : Byte) : Word := b3 ++ b2 ++ b1 ++ b0

/-- Byte `k` of a word in little-endian order (20_memory.md R60). -/
def byteOfWord (w : Word) (k : Nat) : Byte := w.extractLsb' (8 * k) 8

/-- A command and the bytes after it, or the error that rejects it. A command is one OP word of four
bytes (30_encoding.md R90); fewer bytes are no command word and are rejected as ERR_OP. -/
def decodeBytes : List Byte → Except ErrCode (Instr × List Byte)
  | b0 :: b1 :: b2 :: b3 :: rest =>
    match decodeOp (wordOfBytes b0 b1 b2 b3) with
    | .ok i => .ok (i, rest)
    | .error e => .error e
  | _ => .error .op

/-- The source format a command reads (30_encoding.md R103). -/
def Instr.src : Instr → Format
  | .cvtP420Spuv | .cvtP420Spvu => .p420
  | .cvtPk444P444 => .pk444
  | .cvtPk422cSpuv | .cvtPk422cSpvu => .pk422c
  | .cvtPk422lSpuv | .cvtPk422lSpvu => .pk422l
  | .cvtRgbfP444 _ | .cvtRgbfSpuv _ | .cvtRgbfSpvu _ => .rgbf

/-- The destination format a command writes (30_encoding.md R103). -/
def Instr.dst : Instr → Format
  | .cvtP420Spuv | .cvtPk422cSpuv | .cvtPk422lSpuv | .cvtRgbfSpuv _ => .spuv
  | .cvtP420Spvu | .cvtPk422cSpvu | .cvtPk422lSpvu | .cvtRgbfSpvu _ => .spvu
  | .cvtPk444P444 | .cvtRgbfP444 _ => .p444

/-- The selector bits of a command's OP word; 0 where the command has no selector. -/
def Instr.selBits : Instr → BitVec 2
  | .cvtRgbfP444 sel | .cvtRgbfSpuv sel | .cvtRgbfSpvu sel => sel.bits
  | .cvtP420Spuv | .cvtP420Spvu | .cvtPk444P444 | .cvtPk422cSpuv | .cvtPk422cSpvu
  | .cvtPk422lSpuv | .cvtPk422lSpvu => 0

/-- The OP word of a command: RSV, SEL, DSTF, SRCF (30_encoding.md R90, R103). -/
def encodeOp (i : Instr) : Word :=
  (0 : BitVec 22) ++ i.selBits ++ i.dst.code ++ i.src.code

/-- The bytes of a command's OP word, the first at the lowest address. -/
def encode (i : Instr) : List Byte :=
  [byteOfWord (encodeOp i) 0, byteOfWord (encodeOp i) 1,
   byteOfWord (encodeOp i) 2, byteOfWord (encodeOp i) 3]

/-- The command the decoder reads from the word `w` of `nbits` bits, as opcode_table.json numbers
its bits. -/
def decodeTableWord (nbits w : Nat) : Option Instr :=
  let word := BitVec.ofNat 32 (w % 2 ^ nbits)
  match decodeBytes
      [byteOfWord word 0, byteOfWord word 1, byteOfWord word 2, byteOfWord word 3] with
  | .ok (i, _) => some i
  | .error _ => none

end Sys2Proof
end

