-- ==== Sys2Proof/Machine/State.lean ====
section
/-! DEFINITION. The state of the platform: every PFC with its registers, latched command and engine,
the memory and its map, the host's program, and the order in which these agents move; the reasons a
step can stop; and the state after reset. -/

namespace Sys2Proof.Machine

/-- Sparse contents by key, in one canonical form: keys strictly rising, no entry holding 0, which is
what an unlisted key reads as (log 4). -/
abbrev Cells (w : Nat) := List (Nat × BitVec w)

/-- The memory space, byte-addressed (10_state.md R41). -/
abbrev Memory := Cells 8

/-- The address and stride registers of one plane (10_state.md R33 to R36). -/
structure PlaneRegs where
  addrLo : Word
  addrHi : Word
  stride : Word
deriving DecidableEq, Repr, Inhabited

/-- The latched base address and stride of one plane (10_state.md R38). -/
structure LatchedPlane where
  base   : BitVec 64
  stride : Word
deriving DecidableEq, Repr, Inhabited

/-- LC, the latched command: OP, W, H, the planes and the effective allow bits (10_state.md R38). -/
structure Latched where
  op     : Word
  width  : BitVec 16
  height : BitVec 16
  src    : Three LatchedPlane
  dst    : Three LatchedPlane
  allow  : BitVec 2
deriving DecidableEq, Repr, Inhabited

/-- What the engine holds in phase BUSY: the latched command and the source image, "the memory
contents at the acceptance step" (10_state.md R39, 20_memory.md R77). -/
structure Running where
  lc    : Latched
  image : Memory
deriving DecidableEq, Repr, Inhabited

/-- One PFC (10_state.md §2, §4). ID, CAPS and CTRL hold nothing that changes: ID and CAPS are read
from the parameters and CTRL reads 0. STATUS is `engine`, `tier` and `err` read as one word. -/
structure Pfc where
  /-- REG_BASE, the platform address of the register block (R22). -/
  regBase   : Nat
  /-- The reset input is asserted (70_reset_and_hazards.md R290). -/
  inReset   : Bool
  /-- TIER_ALLOW[1:0] = {ALLOW_V256, ALLOW_V128} (R25). -/
  tierAllow : BitVec 2
  /-- STATUS.TIER (R27). -/
  tier      : Tier
  /-- STATUS.ERR (R27). -/
  err       : ErrCode
  /-- IRQ_STATUS[2:0] = {OVR, ERR, DONE} (R28). -/
  irqStatus : BitVec 3
  /-- IRQ_ENABLE[2:0] = {OVR_EN, ERR_EN, DONE_EN} (R29). -/
  irqEnable : BitVec 3
  /-- OP (R30). -/
  op        : Word
  /-- WIDTH[15:0] (R31). -/
  width     : BitVec 16
  /-- HEIGHT[15:0] (R32). -/
  height    : BitVec 16
  /-- SRC_ADDRn and SRC_STRIDEn (R33, R34). -/
  src       : Three PlaneRegs
  /-- DST_ADDRn and DST_STRIDEn (R35, R36). -/
  dst       : Three PlaneRegs
  /-- The engine phase: `none` is IDLE with no LC, `some` is BUSY with LC (R38, R39). -/
  engine    : Option Running
deriving DecidableEq, Repr, Inhabited

/-- A statement of a host program (30_encoding.md R106). `base` is the REG_BASE of the addressed
instance, which alone identifies it (60_exceptions.md R281), `off` a byte offset in its register block,
`name` and `label` numbers that stand for the host's own names (log 8). -/
inductive Stmt
  /-- `WR32`: an aligned 32-bit register write. -/
  | wr32 (base off : Nat) (value : Word)
  /-- `RD32 -> name`: an aligned 32-bit register read. -/
  | rd32 (base off name : Nat)
  /-- A register access of `bytes` bytes, other than the 32-bit accesses above (20_memory.md R71). -/
  | regOther (base off bytes : Nat)
  /-- `WAIT_IRQ`: wait until the interrupt output of the addressed instance is 1. -/
  | waitIrq (base : Nat)
  /-- `MEM.W8`: a host store of one byte. -/
  | memW8 (addr : Nat) (value : Byte)
  /-- `MEM.W32`: a host store of one word, little-endian. -/
  | memW32 (addr : Nat) (value : Word)
  /-- `MEM.R8 -> name`: a host load of one byte. -/
  | memR8 (addr name : Nat)
  /-- A label. -/
  | label (label : Nat)
  /-- `BNZ`: a branch to the label while `name & mask` is not 0. -/
  | bnz (name : Nat) (mask : Word) (label : Nat)
deriving DecidableEq, Repr, Inhabited

/-- The host: its program, the position in it, and the values bound to its names
(00_scope.md R13, 30_encoding.md R106). DESIGN CHOICE: the platform has one host with one sequential
program; the spec lets any bus master write the registers and fixes no number of them (00_scope.md R13,
40_control.md R144; log 25). -/
structure HostState where
  prog : List Stmt
  pc   : Nat
  vars : Cells 32
deriving DecidableEq, Repr, Inhabited

/-- A destination byte of a command that has completed, with the REG_BASE of its PFC, while the host has
not yet seen that completion (70_reset_and_hazards.md R296; log 28). -/
structure Unseen where
  addr    : Nat
  regBase : Nat
deriving DecidableEq, Repr, Inhabited

/-- Who moves in a step (logs 6, 14, 23). A number is the position of a PFC in the list of PFCs, the
model's own way to order the agents: a program names a PFC by its REG_BASE (60_exceptions.md R281; log 15).
The host needs no number, since there is one (log 25). -/
inductive Turn
  /-- The host performs the statement at its position. -/
  | host
  /-- The engine of the PFC brings its running command to its end. -/
  | engine (pos : Nat)
  /-- A host statement and the end of the PFC's command fall in one cycle (60_exceptions.md R277). -/
  | together (pos : Nat)
  /-- The memory system does not complete an access of the running command (40_control.md R137). -/
  | busError (pos : Nat)
  /-- The reset input of the PFC is asserted (70_reset_and_hazards.md R290, R291). -/
  | resetOn (pos : Nat)
  /-- The reset input of the PFC is released (70_reset_and_hazards.md R290). -/
  | resetOff (pos : Nat)
deriving DecidableEq, Repr, Inhabited

/-- The whole machine. `before`, `pfc` and `after` are the platform's PFCs in their order, `pfc` the
one the current access addresses (log 15). -/
structure State where
  /-- The implementation parameters (00_scope.md R7); no step changes them. -/
  cfg    : Params
  before : List Pfc
  pfc    : Pfc
  after  : List Pfc
  /-- The memory space (10_state.md R41). -/
  mem    : Memory
  /-- The platform's memory map (20_memory.md R68). -/
  memMap : List Region
  /-- The one bus master the model has beside the engines (log 25). -/
  host   : HostState
  /-- Who moves next; after the last one a busy engine moves first, then the host (log 6). -/
  turns  : List Turn
  /-- How many free values have been drawn (log 12). -/
  draws  : Nat
  /-- The destination bytes whose completion the host has not seen, each with the PFC of the last command
  to complete over it (70_reset_and_hazards.md R296; log 28). -/
  unseen : List Unseen
deriving DecidableEq, Repr, Inhabited

/-- The reasons the machine stops where the spec gives the hardware no effect a model may state
(60_exceptions.md R268). Each is safe: the machine stops where the hardware goes on. -/
inductive Fault
  /-- FAULT_OVERLAP: a destination footprint overlaps a source footprint or another destination
  footprint (20_memory.md R69). Raised by an accepted START. Safe. -/
  | overlap
  /-- FAULT_RACE: a host write to a footprint of a running command, or commands on two instances
  whose footprints overlap with a destination involved (20_memory.md R78, R79). Raised by a host store
  and by an accepted START. Safe. -/
  | race
  /-- FAULT_BUS: the command ended with ERR_BUS (40_control.md R137). Raised by a running command. It
  carries the registers as the failure leaves them: BUSY 0, ERR 7, IRQ_STATUS.ERR 1. Safe. -/
  | bus (after : Pfc)
  /-- A footprint reaches into a register block, which is no ordinary memory
  (93_implementation_defined.md I23). Raised by an accepted START. Safe. -/
  | notOrdinaryMemory
  /-- A host load or store at or past 2^ADDR_W, which the memory space does not have (10_state.md R41).
  DESIGN CHOICE: the spec gives such an access no effect and no fault, and the model stops (log 29). Raised
  by a host load or store. Safe. -/
  | noSuchAddress
deriving DecidableEq, Repr, Inhabited

/-- The reasons the model does not run a statement. Each is safe: nothing is claimed of it. -/
inductive Refusal
  /-- Raised by an arm of `exec` whose command has no meaning yet. Safe. -/
  | notModelled (mnemonic : String)
  /-- REFUSE_REG_ACCESS: a register access that is not an aligned 32-bit access within the register
  block (20_memory.md R71). Raised by a host statement. Safe. -/
  | regAccess
  /-- A host load or store of an address the memory map does not give it (log 5). Safe. -/
  | hostMemory
  /-- A host statement names a PFC the platform does not have (log 18). Safe. -/
  | noSuchPfc
  /-- A branch to a label the host program does not have (log 8). Safe. -/
  | noSuchLabel
  /-- A running command whose latched OP names no kernel, which no accepted START leaves
  (40_control.md R133; log 17). Raised by an engine turn. Safe. -/
  | noKernel
deriving DecidableEq, Repr, Inhabited

/-- {HAS_V256, HAS_V128}: the tiers an implementation has (10_state.md R25). -/
def presentTiers (cfg : Params) : BitVec 2 :=
  BitVec.ofBool cfg.hasV256 ++ BitVec.ofBool cfg.hasV128

/-- A PFC right after reset is released: 70_reset_and_hazards.md R292. -/
def Pfc.reset (cfg : Params) (regBase : Nat) : Pfc where
  regBase := regBase
  inReset := false
  tierAllow := presentTiers cfg
  tier := .scalar
  err := .none
  irqStatus := 0
  irqEnable := 0
  op := 0
  width := 0
  height := 0
  src := ⟨⟨0, 0, 0⟩, ⟨0, 0, 0⟩, ⟨0, 0, 0⟩⟩
  dst := ⟨⟨0, 0, 0⟩, ⟨0, 0, 0⟩, ⟨0, 0, 0⟩⟩
  engine := none

/-- The platform right after reset (70_reset_and_hazards.md R290, R292; 60_exceptions.md R281), with
no host program loaded, no turn listed, and no command completed (logs 4, 12, 13, 21). -/
def State.reset : State where
  cfg := Config.params
  before := []
  pfc := Pfc.reset Config.params Config.firstRegBase
  after := Config.otherRegBases.map (Pfc.reset Config.params)
  mem := []
  memMap := Config.memMap
  host := ⟨[], 0, []⟩
  turns := []
  draws := 0
  unseen := []

end Sys2Proof.Machine
end

