-- ==== Sys2Proof/Machine/Flags.lean ====
section
/-! DEFINITION. STATUS and the interrupt registers: the words software reads, the interrupt line, and
what each event of a command does to them (10_state.md R27 to R29, 60_exceptions.md §3). -/

namespace Sys2Proof.Machine

/-- IRQ_STATUS.DONE and IRQ_ENABLE.DONE_EN (10_state.md R28, R29). -/
def irqDone : BitVec 3 := 0b001

/-- IRQ_STATUS.ERR and IRQ_ENABLE.ERR_EN (10_state.md R28, R29). -/
def irqErr : BitVec 3 := 0b010

/-- IRQ_STATUS.OVR and IRQ_ENABLE.OVR_EN (10_state.md R28, R29). -/
def irqOvr : BitVec 3 := 0b100

/-- The value of STATUS.TIER (10_state.md R27). -/
def tierCode : Tier → BitVec 2
  | .scalar => 0
  | .v128 => 1
  | .v256 => 2

/-- The value of STATUS.ERR (60_exceptions.md R260). -/
def errCode : ErrCode → BitVec 4
  | .none => 0
  | .op => 1
  | .fmt => 2
  | .unsup => 3
  | .dim => 4
  | .stride => 5
  | .range => 6
  | .bus => 7

/-- STATUS.BUSY: the engine holds a command (10_state.md R27, R39). -/
def Pfc.busy (p : Pfc) : Bool := p.engine.isSome

/-- The STATUS word: ERR [7:4], TIER [2:1], BUSY [0], the rest 0 (10_state.md R27). -/
def Pfc.statusWord (p : Pfc) : Word :=
  (0 : BitVec 24) ++ errCode p.err ++ (0 : BitVec 1) ++ tierCode p.tier ++ BitVec.ofBool p.busy

/-- The CAPS word: HAS_SPVU_DST [2], HAS_V256 [1], HAS_V128 [0] (10_state.md R24). -/
def capsWord (cfg : Params) : Word :=
  (0 : BitVec 29) ++ BitVec.ofBool cfg.hasSpvuDst ++ BitVec.ofBool cfg.hasV256
    ++ BitVec.ofBool cfg.hasV128

/-- The level-sensitive interrupt output (60_exceptions.md R270). -/
def Pfc.irq (p : Pfc) : Bool := (p.irqStatus &&& p.irqEnable) != 0

/-- The bits of IRQ_STATUS a hardware event sets; they stay until cleared (10_state.md R28). -/
def Pfc.setIrq (p : Pfc) (bits : BitVec 3) : Pfc := { p with irqStatus := p.irqStatus ||| bits }

/-- `IRQ_STATUS <- IRQ_STATUS & ~v[2:0]` (40_control.md R132). -/
def Pfc.clearIrq (p : Pfc) (v : Word) : Pfc :=
  { p with irqStatus := p.irqStatus &&& ~~~(v.extractLsb' 0 3) }

end Sys2Proof.Machine
end

