-- ==== Sys2Proof/Machine/Operands.lean ====
section
/-! DEFINITION. The operands of a command: what START latches, the planes of each format, the address
of each byte, and the shared arithmetic on samples (30_encoding.md §2, §3; 42_kernel_common.md §1). -/

namespace Sys2Proof.Machine

/-- `roundup(a, g)` (00_scope.md R9). -/
def roundup (a g : Nat) : Nat := ((a + g - 1) / g) * g

/-- `SA_n = {HI, LO}[ADDR_W−1:0]` (10_state.md R33, R35). -/
def PlaneRegs.base (cfg : Params) (p : PlaneRegs) : BitVec 64 :=
  BitVec.ofNat 64 ((p.addrHi ++ p.addrLo).toNat % 2 ^ cfg.addrW)

/-- The plane as START latches it (10_state.md R38). -/
def PlaneRegs.latch (cfg : Params) (p : PlaneRegs) : LatchedPlane := ⟨p.base cfg, p.stride⟩

/-- The planes of a surface as START latches them (10_state.md R38). -/
def latchPlanes (cfg : Params) (t : Three PlaneRegs) : Three LatchedPlane :=
  ⟨t.p0.latch cfg, t.p1.latch cfg, t.p2.latch cfg⟩

/-- `latch(OP, W, H, SA0..2, SS0..2, DA0..2, DS0..2, TIER_ALLOW)` (40_control.md R133). -/
def Pfc.latch (cfg : Params) (p : Pfc) : Latched where
  op := p.op
  width := p.width
  height := p.height
  src := latchPlanes cfg p.src
  dst := latchPlanes cfg p.dst
  allow := p.tierAllow

/-- W of a latched command, in pixels (30_encoding.md R91). -/
def Latched.w (lc : Latched) : Nat := lc.width.toNat

/-- H of a latched command, in scanlines (30_encoding.md R91). -/
def Latched.h (lc : Latched) : Nat := lc.height.toNat

/-- A plane base as an exact integer (30_encoding.md R91). -/
def LatchedPlane.a (p : LatchedPlane) : Nat := p.base.toNat

/-- A plane stride as an exact integer: unsigned, in bytes (10_state.md R34). -/
def LatchedPlane.s (p : LatchedPlane) : Nat := p.stride.toNat

/-- The address of byte `k` of row `r` of a plane, `A_p + r × S_p + k` (00_scope.md R12). -/
def LatchedPlane.byteAddr (p : LatchedPlane) (r k : Nat) : Nat := p.a + r * p.s + k

/-- The address of byte `k` of row `r` of source plane `n`. -/
def Latched.srcAddr (lc : Latched) (n : Ix) (r k : Nat) : Nat := (lc.src.get n).byteAddr r k

/-- The address of byte `k` of row `r` of destination plane `n`. -/
def Latched.dstAddr (lc : Latched) (n : Ix) (r k : Nat) : Nat := (lc.dst.get n).byteAddr r k

/-- A plane a format uses: its number, rows_p and U_p (30_encoding.md R93). -/
structure PlaneGeom where
  ix   : Ix
  rows : Nat
  used : Nat
deriving DecidableEq, Repr

/-- The planes a format uses for width `w` and height `h` (30_encoding.md R93). -/
def formatPlanes (f : Format) (w h : Nat) : List PlaneGeom :=
  match f with
  | .p420 => [⟨.p0, h, w⟩, ⟨.p1, h / 2, w / 2⟩, ⟨.p2, h / 2, w / 2⟩]
  | .spuv | .spvu => [⟨.p0, h, w⟩, ⟨.p1, h / 2, w⟩]
  | .p444 => [⟨.p0, h, w⟩, ⟨.p1, h, w⟩, ⟨.p2, h, w⟩]
  | .pk444 => [⟨.p0, h, 4 * w⟩]
  | .pk422c | .pk422l => [⟨.p0, h, 2 * w⟩]
  | .rgbf => [⟨.p0, h, 16 * w⟩]
  | .tile16 => []

/-- The planes the source format of a latched command uses. -/
def Latched.srcPlanes (lc : Latched) (src : Format) : List PlaneGeom :=
  formatPlanes src lc.w lc.h

/-- The planes the destination format of a latched command uses. -/
def Latched.dstPlanes (lc : Latched) (dst : Format) : List PlaneGeom :=
  formatPlanes dst lc.w lc.h

/-- `avg2(a, b) = (a + b + 1) >> 1` (42_kernel_common.md R163). -/
def avg2 (a b : Byte) : Byte := BitVec.ofNat 8 ((a.toNat + b.toNat + 1) >>> 1)

/-- `avg4(a, b, c, d) = (a + b + c + d + 2) >> 2` (42_kernel_common.md R163). -/
def avg4 (a b c d : Byte) : Byte :=
  BitVec.ofNat 8 ((a.toNat + b.toNat + c.toNat + d.toNat + 2) >>> 2)

/-- The source row of destination row `r` of an image of `h` rows, and the other way about
(42_kernel_common.md R165). -/
def flipRow (h r : Nat) : Nat := h - 1 - r

/-- `first, second <- (v, u) if vu_order else (u, v)`: the byte at position `k` of a row of chroma
pairs (30_encoding.md R95). -/
def chromaByte (vuOrder : Bool) (u v : Byte) (k : Nat) : Byte :=
  if (k % 2 == 0) != vuOrder then u else v

end Sys2Proof.Machine
end

