-- ==== Sys2Proof/Machine/Ops.lean ====
section
/-! DEFINITION. The named operations: memory cells, the register map and its reads and writes, the
instance an access addresses, and the one way a command posts its end or its error. -/

namespace Sys2Proof.Machine

/-! ## Cells: memory and the host's names -/

/-- The value at key `a`; an unlisted key reads 0 (log 4). -/
def Cells.read {w : Nat} (m : Cells w) (a : Nat) : BitVec w :=
  match m with
  | [] => 0
  | (k, v) :: rest => if k = a then v else Cells.read rest a

/-- `m` without any entry for key `a`. -/
def Cells.erase {w : Nat} (m : Cells w) (a : Nat) : Cells w := m.filter (fun c => c.1 != a)

/-- `m` with an entry for key `a` put before the first greater key. -/
def Cells.insert {w : Nat} (m : Cells w) (a : Nat) (v : BitVec w) : Cells w :=
  match m with
  | [] => [(a, v)]
  | (k, x) :: rest => if a < k then (a, v) :: (k, x) :: rest else (k, x) :: Cells.insert rest a v

/-- `m` with the value `v` at key `a`; the value an unlisted key reads as is not listed (log 4). -/
def Cells.write {w : Nat} (m : Cells w) (a : Nat) (v : BitVec w) : Cells w :=
  if v = 0 then Cells.erase m a else Cells.insert (Cells.erase m a) a v

/-- The writes of a list of keys and values, in the list's order. -/
def Cells.writeAll {w : Nat} (m : Cells w) (l : List (Nat × BitVec w)) : Cells w :=
  match l with
  | [] => m
  | (a, v) :: rest => Cells.writeAll (Cells.write m a v) rest

/-- The canonical form: keys strictly rising, no entry holding 0. -/
abbrev Cells.wf {w : Nat} (m : Cells w) : Prop :=
  m.Pairwise (fun c d => c.1 < d.1) ∧ ∀ c ∈ m, c.2 ≠ 0

/-- The canonical form of memory (log 4). -/
abbrev Memory.wf (m : Memory) : Prop := Cells.wf m

/-- `MemReadF32(addr)`: the little-endian word at `addr` as a binary32 encoding
(00_scope.md R10, 20_memory.md R60). -/
def readF32 (m : Memory) (a : Nat) : Word :=
  wordOfBytes (Cells.read m a) (Cells.read m (a + 1)) (Cells.read m (a + 2)) (Cells.read m (a + 3))

/-! ## The register map -/

/-- The registers of the block by name (10_state.md R22). -/
inductive Reg
  | id | caps | tierAllow | ctrl | status | irqStatus | irqEnable | op | width | height
  | srcAddrLo (n : Ix) | srcAddrHi (n : Ix) | srcStride (n : Ix)
  | dstAddrLo (n : Ix) | dstAddrHi (n : Ix) | dstStride (n : Ix)
deriving DecidableEq, Repr

/-- A plane number as a number. -/
def ixNat : Ix → Nat
  | .p0 => 0
  | .p1 => 1
  | .p2 => 2

/-- The byte offset of a register in the block (10_state.md R22). -/
def regOffset : Reg → Nat
  | .id => 0x000
  | .caps => 0x004
  | .tierAllow => 0x008
  | .ctrl => 0x00C
  | .status => 0x010
  | .irqStatus => 0x014
  | .irqEnable => 0x018
  | .op => 0x020
  | .width => 0x024
  | .height => 0x028
  | .srcAddrLo n => 0x030 + 8 * ixNat n
  | .srcAddrHi n => 0x034 + 8 * ixNat n
  | .srcStride n => 0x048 + 4 * ixNat n
  | .dstAddrLo n => 0x058 + 8 * ixNat n
  | .dstAddrHi n => 0x05C + 8 * ixNat n
  | .dstStride n => 0x070 + 4 * ixNat n

/-- Every register of the map, in offset order. -/
def allRegs : List Reg :=
  [.id, .caps, .tierAllow, .ctrl, .status, .irqStatus, .irqEnable, .op, .width, .height,
   .srcAddrLo .p0, .srcAddrHi .p0, .srcAddrLo .p1, .srcAddrHi .p1, .srcAddrLo .p2, .srcAddrHi .p2,
   .srcStride .p0, .srcStride .p1, .srcStride .p2,
   .dstAddrLo .p0, .dstAddrHi .p0, .dstAddrLo .p1, .dstAddrHi .p1, .dstAddrLo .p2, .dstAddrHi .p2,
   .dstStride .p0, .dstStride .p1, .dstStride .p2]

/-- The register at an offset; none at a reserved offset (10_state.md R22). -/
def regAt (off : Nat) : Option Reg := allRegs.find? (fun r => regOffset r == off)

/-- The writable bits of an ADDR_HI register: [ADDR_W−33:0] (10_state.md R33). -/
def hiMask (cfg : Params) : Word := BitVec.ofNat 32 (2 ^ (cfg.addrW - 32) - 1)

/-- The value a register reads as (40_control.md R130; 10_state.md R23 to R36). -/
def Pfc.readReg (cfg : Params) (p : Pfc) : Reg → Word
  | .id => cfg.pfcId
  | .caps => capsWord cfg
  | .tierAllow => p.tierAllow.zeroExtend 32
  | .ctrl => 0
  | .status => p.statusWord
  | .irqStatus => p.irqStatus.zeroExtend 32
  | .irqEnable => p.irqEnable.zeroExtend 32
  | .op => p.op
  | .width => p.width.zeroExtend 32
  | .height => p.height.zeroExtend 32
  | .srcAddrLo n => (p.src.get n).addrLo
  | .srcAddrHi n => (p.src.get n).addrHi
  | .srcStride n => (p.src.get n).stride
  | .dstAddrLo n => (p.dst.get n).addrLo
  | .dstAddrHi n => (p.dst.get n).addrHi
  | .dstStride n => (p.dst.get n).stride

/-- The value read at an offset; a reserved offset reads 0 (10_state.md R22, 40_control.md R130). -/
def Pfc.readAt (cfg : Params) (p : Pfc) (off : Nat) : Word :=
  match regAt off with
  | some r => p.readReg cfg r
  | none => 0

/-- A register with what a write stores in it. CTRL stores nothing: its START is `regWrite`'s
(10_state.md R23 to R36; 40_control.md R131, R132, R140). -/
def Pfc.writeReg (cfg : Params) (p : Pfc) (r : Reg) (v : Word) : Pfc :=
  match r with
  | .id | .caps | .ctrl | .status => p
  | .tierAllow => { p with tierAllow := v.extractLsb' 0 2 &&& presentTiers cfg }
  | .irqStatus => p.clearIrq v
  | .irqEnable => { p with irqEnable := v.extractLsb' 0 3 }
  | .op => { p with op := v }
  | .width => { p with width := v.extractLsb' 0 16 }
  | .height => { p with height := v.extractLsb' 0 16 }
  | .srcAddrLo n => { p with src := p.src.set n { p.src.get n with addrLo := v } }
  | .srcAddrHi n => { p with src := p.src.set n { p.src.get n with addrHi := v &&& hiMask cfg } }
  | .srcStride n => { p with src := p.src.set n { p.src.get n with stride := v } }
  | .dstAddrLo n => { p with dst := p.dst.set n { p.dst.get n with addrLo := v } }
  | .dstAddrHi n => { p with dst := p.dst.set n { p.dst.get n with addrHi := v &&& hiMask cfg } }
  | .dstStride n => { p with dst := p.dst.set n { p.dst.get n with stride := v } }

/-! ## How a command begins and ends: the only writers of STATUS and the hardware setters of
IRQ_STATUS -/

/-- The one way an error is posted: STATUS.ERR and IRQ_STATUS.ERR (40_control.md R133, R137;
60_exceptions.md R272). -/
def Pfc.postError (p : Pfc) (e : ErrCode) : Pfc := { p with err := e }.setIrq irqErr

/-- A rejected START: "changes only STATUS.ERR and IRQ_STATUS.ERR" (60_exceptions.md R276). -/
def Pfc.reject (p : Pfc) (e : ErrCode) : Pfc := p.postError e

/-- An accepted START: LC, TIER, ERR 0, BUSY 1, and the source image (40_control.md R133;
20_memory.md R77). -/
def Pfc.accept (p : Pfc) (lc : Latched) (tier : Tier) (image : Memory) : Pfc :=
  { p with engine := some ⟨lc, image⟩, tier := tier, err := .none }

/-- Completion: BUSY 0 and DONE 1 in one step (40_control.md R135). -/
def Pfc.complete (p : Pfc) : Pfc := { p with engine := none }.setIrq irqDone

/-- Failure while running: BUSY 0, ERR_BUS, IRQ_STATUS.ERR 1 in one step (40_control.md R137). -/
def Pfc.failBus (p : Pfc) : Pfc := { p with engine := none }.postError .bus

/-- START while busy: OVR and nothing else (40_control.md R139). -/
def Pfc.overrun (p : Pfc) : Pfc := p.setIrq irqOvr

/-! ## The platform -/

/-- Every PFC of the platform, in order. -/
def State.pfcs (s : State) : List Pfc := s.before ++ s.pfc :: s.after

/-- The PFCs other than the addressed one. -/
def State.others (s : State) : List Pfc := s.before ++ s.after

/-- The position of the addressed PFC. -/
def State.here (s : State) : Nat := s.before.length

/-- The state with the PFC at position `n` of the list addressed: how the model's turns name one (log 15). -/
def State.selectAt (s : State) (n : Nat) : Option State :=
  match s.pfcs.drop n with
  | p :: rest => some { s with before := s.pfcs.take n, pfc := p, after := rest }
  | [] => none

/-- The state with the PFC whose REG_BASE is `base` addressed, if the platform has one, which is how a
program names one: "An instance is
identified only by its REG_BASE" (60_exceptions.md R281; log 15). -/
def State.select (s : State) (base : Nat) : Option State :=
  if s.pfc.regBase = base then some s
  else
    match s.pfcs.findIdx? fun p => p.regBase == base with
    | some n => s.selectAt n
    | none => none

/-- The state with the addressed PFC replaced. -/
def State.setPfc (s : State) (p : Pfc) : State := { s with pfc := p }

/-- The host has not seen the completion of the last command to complete over the byte at `a`
(70_reset_and_hazards.md R296). -/
def State.unsees (s : State) (a : Nat) : Bool := s.unseen.any fun c => c.addr == a

/-- A read at offset `off` of the PFC shows that it ended its command: STATUS with BUSY = 0, or IRQ_STATUS
with DONE = 1 (20_memory.md R76, 70_reset_and_hazards.md R296; log 28). -/
def Pfc.showsEnd (p : Pfc) (off : Nat) : Bool :=
  (off == regOffset .status && !p.busy)
    || (off == regOffset .irqStatus && (p.irqStatus &&& irqDone) != 0)

/-- The state after the host has seen the addressed PFC's end, if a read at offset `off` shows it: its
bytes are no longer unseen (20_memory.md R76). It is the host's knowledge; no register changes. -/
def State.see (s : State) (off : Nat) : State :=
  if s.pfc.showsEnd off then
    { s with unseen := s.unseen.filter fun c => c.regBase != s.pfc.regBase }
  else s

/-- The state with the host at its next statement. -/
def State.nextStmt (s : State) : State := { s with host := { s.host with pc := s.host.pc + 1 } }

/-- The state with a value bound to a host name (30_encoding.md R106). -/
def State.bind (s : State) (name : Nat) (v : Word) : State :=
  { s with host := { s.host with vars := Cells.write s.host.vars name v } }

end Sys2Proof.Machine
end

