-- ==== Sys2Proof/Machine/Footprint.lean ====
section
/-! DEFINITION. Which bytes a command touches: rows, footprints, overshoot windows, overlap, the memory
map (20_memory.md §3). -/

namespace Sys2Proof.Machine

/-- The bytes `[start, start + len)`. -/
structure Range where
  start : Nat
  len   : Nat
deriving DecidableEq, Repr

/-- The range holds address `a`. -/
def Range.has (r : Range) (a : Nat) : Bool := decide (r.start ≤ a) && decide (a < r.start + r.len)

/-- Two ranges have a byte in common. -/
def Range.overlaps (r q : Range) : Bool :=
  decide (max r.start q.start < min (r.start + r.len) (q.start + q.len))

/-- The lane width L of a tier, in bytes (20_memory.md R65, 47_dispatch.md R241). -/
def laneWidth : Tier → Nat
  | .scalar => 1
  | .v128 => 16
  | .v256 => 32

/-- The footprint of one plane with lane width `lane`: one range a row (20_memory.md R65). -/
def planeFootprint (p : LatchedPlane) (g : PlaneGeom) (lane : Nat) : List Range :=
  (List.range g.rows).map fun r => ⟨p.byteAddr r 0, roundup g.used lane⟩

/-- The footprints of the planes of a surface, plane by plane. -/
def footprints (ps : Three LatchedPlane) (gs : List PlaneGeom) (lane : Nat) : List (List Range) :=
  gs.map fun g => planeFootprint (ps.get g.ix) g lane

/-- The footprints of a latched command's source planes on a tier. -/
def Latched.srcFootprints (lc : Latched) (src : Format) (t : Tier) : List (List Range) :=
  footprints lc.src (lc.srcPlanes src) (laneWidth t)

/-- The footprints of a latched command's destination planes on a tier. -/
def Latched.dstFootprints (lc : Latched) (dst : Format) (t : Tier) : List (List Range) :=
  footprints lc.dst (lc.dstPlanes dst) (laneWidth t)

/-- Some range holds address `a`. -/
def anyHas (rs : List Range) (a : Nat) : Bool := rs.any fun r => r.has a

/-- Some range of one list overlaps some range of the other. -/
def anyOverlap (rs qs : List Range) : Bool := rs.any fun r => qs.any fun q => r.overlaps q

/-- Two lists of a list of lists overlap. -/
def pairsOverlap : List (List Range) → Bool
  | [] => false
  | rs :: rest => (rest.any fun qs => anyOverlap rs qs) || pairsOverlap rest

/-- "any destination footprint overlaps any source footprint or another destination footprint"
(20_memory.md R69). -/
def Latched.overlapping (lc : Latched) (src dst : Format) (t : Tier) : Bool :=
  anyOverlap (lc.dstFootprints dst t).flatten (lc.srcFootprints src t).flatten
    || pairsOverlap (lc.dstFootprints dst t)

/-- The source footprint of the command a PFC runs, as its latched OP names it; empty when idle. -/
def Pfc.srcRanges (p : Pfc) : List Range :=
  match p.engine with
  | none => []
  | some run =>
    match Format.ofCode (opSrcf run.lc.op) with
    | some src => (run.lc.srcFootprints src p.tier).flatten
    | none => []

/-- The destination footprint of the command a PFC runs; empty when idle. -/
def Pfc.dstRanges (p : Pfc) : List Range :=
  match p.engine with
  | none => []
  | some run =>
    match Format.ofCode (opDstf run.lc.op) with
    | some dst => (run.lc.dstFootprints dst p.tier).flatten
    | none => []

/-- "a destination footprint of one running command overlaps any footprint of a command running at
the same time" (20_memory.md R79). -/
def racing (p q : Pfc) : Bool :=
  anyOverlap p.dstRanges (q.srcRanges ++ q.dstRanges) || anyOverlap p.srcRanges q.dstRanges

/-- The register block of a PFC (10_state.md R22). -/
def Pfc.block (p : Pfc) : Range := ⟨p.regBase, blockSize⟩

/-- Some register block of the platform overlaps one of the ranges (93_implementation_defined.md I23). -/
def State.reachesBlock (s : State) (rs : List Range) : Bool :=
  anyOverlap rs (s.pfcs.map Pfc.block)

/-- The memory system completes a read of address `a` (20_memory.md R68; log 5). -/
def readableAt (m : List Region) (a : Nat) : Bool :=
  m.any fun g => decide (g.base ≤ a) && decide (a < g.base + g.size) && g.readable

/-- The memory system completes a write of address `a` (20_memory.md R68; log 5). -/
def writableAt (m : List Region) (a : Nat) : Bool :=
  m.any fun g => decide (g.base ≤ a) && decide (a < g.base + g.size) && g.writable

/-- Every byte of the ranges satisfies `f`. -/
def allBytes (f : Nat → Bool) (rs : List Range) : Bool :=
  rs.all fun r => (List.range r.len).all fun k => f (r.start + k)

/-- "Every byte of every footprint must be mapped, readable memory for a source plane and mapped,
writable memory for a destination plane" (20_memory.md R68). -/
def Latched.mapped (m : List Region) (lc : Latched) (src dst : Format) (t : Tier) : Bool :=
  allBytes (readableAt m) (lc.srcFootprints src t).flatten
    && allBytes (writableAt m) (lc.dstFootprints dst t).flatten

/-- The addresses of the destination overshoot windows, `[U_n, roundup(U_n, L))` of every row
(20_memory.md R66). -/
def Latched.dstWindows (lc : Latched) (dst : Format) (t : Tier) : List Nat :=
  (lc.dstPlanes dst).flatMap fun g =>
    (List.range g.rows).flatMap fun r =>
      (List.range (roundup g.used (laneWidth t) - g.used)).map fun k =>
        lc.dstAddr g.ix r (g.used + k)

/-- Memory after each address of a list was written with a free byte or left alone, and the number of
free values drawn (20_memory.md R66, 70_reset_and_hazards.md R291; log 12). -/
def drawOver (m : Memory) (n : Nat) : List Nat → Memory × Nat
  | [] => (m, n)
  | a :: rest =>
    drawOver (if Config.drawWrite n then Cells.write m a (Config.drawByte n) else m) (n + 1) rest

/-- Every address of the ranges. -/
def addressesOf (rs : List Range) : List Nat :=
  rs.flatMap fun r => (List.range r.len).map fun k => r.start + k

/-- The unseen bytes after the PFC at `base` has completed a command with these destination footprints:
theirs, and of the earlier ones those outside them (70_reset_and_hazards.md R296; log 28). -/
def unseenAfter (l : List Unseen) (base : Nat) (rs : List Range) : List Unseen :=
  (addressesOf rs).map (fun a => ⟨a, base⟩) ++ l.filter fun c => !anyHas rs c.addr

end Sys2Proof.Machine
end

