-- ==== Sys2Proof/Machine/TierSelect.lean ====
section
/-! DEFINITION. SelectTier, the dispatch policy (47_dispatch.md). -/

namespace Sys2Proof.Machine

/-- A kernel that averages chroma: the four CVT_PK422*_SP* and the two CVT_RGBF_SP*
(47_dispatch.md R244). -/
def averagesChroma (src dst : Format) : Bool :=
  is422 src.code || (isRgbf src.code && isInterleaved420 dst.code)

/-- The base and stride of every plane a surface uses are multiples of `g` (47_dispatch.md R242,
items 1 and 2; R243). -/
def alignedPlanes (ps : Three LatchedPlane) (gs : List PlaneGeom) (g : Nat) : Bool :=
  gs.all fun p => (ps.get p.ix).a % g == 0 && (ps.get p.ix).s % g == 0

/-- The disqualification checklist `disq(k, LC, g, lanes)` (47_dispatch.md R242). -/
def disqualified (src dst : Format) (lc : Latched) (g lanes : Nat) : Bool :=
  !alignedPlanes lc.src (lc.srcPlanes src) g
    || !alignedPlanes lc.dst (lc.dstPlanes dst) g
    || lc.w % lanes != 0
    || (averagesChroma src dst && lc.h % 2 != 0)

/-- ALLOW_V128 of the latched allow bits (10_state.md R25). -/
def allowV128 (allow : BitVec 2) : Bool := allow.getLsbD 0

/-- ALLOW_V256 of the latched allow bits (10_state.md R25). -/
def allowV256 (allow : BitVec 2) : Bool := allow.getLsbD 1

/-- `SelectTier(caps, allow, k, LC)` (47_dispatch.md R240). -/
def selectTier (cfg : Params) (src dst : Format) (lc : Latched) : Tier :=
  if cfg.hasV256 && allowV256 lc.allow && !disqualified src dst lc 32 32 then .v256
  else if cfg.hasV128 && allowV128 lc.allow && !disqualified src dst lc 16 16 then .v128
  else .scalar

end Sys2Proof.Machine
end

