-- ==== Sys2Proof/Machine/Command.lean ====
section
/-! DEFINITION. What every command shares: the checks of START, acceptance or rejection, and the run
to the end (40_control.md §2, §3; 42_kernel_common.md R160). -/

namespace Sys2Proof.Machine

/-- The 4:2:0 and 4:2:2 kernels (40_control.md R145, `sub`). -/
def needsEvenWidth (src dst : Format) : Bool :=
  isPlanar420 src.code || isInterleaved420 dst.code || is422 src.code

/-- The 4:2:0 kernels (40_control.md R145, `vsub`). -/
def needsEvenHeight (src dst : Format) : Bool :=
  isPlanar420 src.code || isInterleaved420 dst.code

/-- `check_dims` passes (40_control.md R145). -/
def dimsOk (src dst : Format) (lc : Latched) : Bool :=
  !(lc.w == 0 || lc.h == 0)
    && !(needsEvenWidth src dst && lc.w % 2 != 0)
    && !(needsEvenHeight src dst && lc.h % 2 != 0)

/-- Every used plane of a surface has a stride of at least its used bytes. -/
def stridesCover (ps : Three LatchedPlane) (gs : List PlaneGeom) : Bool :=
  gs.all fun g => decide (g.used ≤ (ps.get g.ix).s)

/-- `check_strides` passes (40_control.md R146). -/
def stridesOk (src dst : Format) (lc : Latched) : Bool :=
  stridesCover lc.src (lc.srcPlanes src) && stridesCover lc.dst (lc.dstPlanes dst)

/-- `A_p + (rows_p − 1) × S_p + roundup(U_p, 32) ≤ 2^ADDR_W` for every used plane of a surface. -/
def planesInRange (addrW : Nat) (ps : Three LatchedPlane) (gs : List PlaneGeom) : Bool :=
  gs.all fun g =>
    decide ((ps.get g.ix).a + (g.rows - 1) * (ps.get g.ix).s + roundup g.used 32 ≤ 2 ^ addrW)

/-- `check_range` passes (20_memory.md R70). -/
def rangeOk (addrW : Nat) (src dst : Format) (lc : Latched) : Bool :=
  planesInRange addrW lc.src (lc.srcPlanes src) && planesInRange addrW lc.dst (lc.dstPlanes dst)

/-- The error of a START whose OP word names the kernel from `src` to `dst`: the first check that
fails, in the order of 60_exceptions.md R275 from ERR_UNSUP on (30_encoding.md R98 first). -/
def startError (cfg : Params) (src dst : Format) (lc : Latched) : Option ErrCode :=
  if dst = .spvu ∧ cfg.hasSpvuDst = false then some .unsup
  else if dimsOk src dst lc = false then some .dim
  else if stridesOk src dst lc = false then some .stride
  else if rangeOk cfg.addrW src dst lc = false then some .range
  else none

/-- The START of the kernel from `src` to `dst` on the addressed, idle PFC (40_control.md R133), with
the faults a model raises where the accepted command's effect is undefined (60_exceptions.md R268;
log 10). DESIGN CHOICE: where one START breaks several duties the fault named is overlap, then
notOrdinaryMemory, then race; the spec gives no order (20_memory.md R69, R79; 40_control.md R141; log 26). -/
def startCommand (src dst : Format) (s : State) : Host.Outcome State Fault Refusal :=
  let lc := s.pfc.latch s.cfg
  match startError s.cfg src dst lc with
  | some e => .next (s.setPfc (s.pfc.reject e))
  | none =>
    let t := selectTier s.cfg src dst lc
    let p := s.pfc.accept lc t s.mem
    if lc.overlapping src dst t then .fault .overlap
    else if s.reachesBlock
        ((lc.srcFootprints src t).flatten ++ (lc.dstFootprints dst t).flatten) then
      .fault .notOrdinaryMemory
    else if s.others.any fun q => racing p q then .fault .race
    else .next (s.setPfc p)

/-- What a kernel gives for a byte of the destination: the function `out(plane, row, byte)` of
42_kernel_common.md R160, from the parameters, the latched command and the source image. -/
abbrev KernelOut := Params → Latched → Memory → Ix → Nat → Nat → Byte

/-- The writes of a command: every used byte of every destination plane (42_kernel_common.md R160). -/
def Latched.dstWrites (lc : Latched) (dst : Format) (out : Ix → Nat → Nat → Byte) :
    List (Nat × Byte) :=
  (lc.dstPlanes dst).flatMap fun g =>
    (List.range g.rows).flatMap fun r =>
      (List.range g.used).map fun b => (lc.dstAddr g.ix r b, out g.ix r b)

/-- The run of the addressed PFC's latched command to its end: all its writes, then BUSY 0 and DONE 1
in one step (42_kernel_common.md R160, 40_control.md R135, 20_memory.md R76); ERR_BUS where a footprint
byte is not mapped (20_memory.md R68, 40_control.md R137; logs 7, 11). The host has not seen the end
(70_reset_and_hazards.md R296). -/
def finishCommand (src dst : Format) (out : KernelOut) (run : Running) (s : State) :
    Host.Outcome State Fault Refusal :=
  if run.lc.mapped s.memMap src dst s.pfc.tier then
    let written := Cells.writeAll s.mem (run.lc.dstWrites dst (out s.cfg run.lc run.image))
    let drawn := drawOver written s.draws (run.lc.dstWindows dst s.pfc.tier)
    .next { s with
      pfc := s.pfc.complete
      mem := drawn.1
      draws := drawn.2
      unseen := unseenAfter s.unseen s.pfc.regBase (run.lc.dstFootprints dst s.pfc.tier).flatten }
  else .fault (.bus s.pfc.failBus)

/-- The next event of the command from `src` to `dst` on the addressed PFC: its START when the engine
is idle, its run to the end when the engine is busy with it (40_control.md R133, R135). -/
def advanceCommand (src dst : Format) (out : KernelOut) (s : State) :
    Host.Outcome State Fault Refusal :=
  match s.pfc.engine with
  | none => startCommand src dst s
  | some run => finishCommand src dst out run s

end Sys2Proof.Machine
end

