-- ==== Sys2Proof/Machine/Deinterleave444.lean ====
section
/-! DEFINITION. Packed 4:4:4 to planar 4:4:4 with the vertical flip: CVT_PK444_P444
(44_deinterleave_444.md). -/

namespace Sys2Proof.Machine

/-- The offset in a packed pixel of the component destination plane `n` holds
(30_encoding.md R94, R96). -/
def pk444Offset (o : PixelOffsets) : Ix → Nat
  | .p0 => o.y.val
  | .p1 => o.u.val
  | .p2 => o.v.val

/-- `deinterleave444()`: the byte at column `k` of row `r` of destination plane `n`
(44_deinterleave_444.md R190). -/
def deinterleave444 : KernelOut := fun cfg lc img n r k =>
  Cells.read img (lc.srcAddr .p0 (flipRow lc.h r) (4 * k + pk444Offset cfg.pk444 n))

/-- CVT_PK444_P444 (44_deinterleave_444.md R191). -/
def execCvtPk444P444 (s : State) : Host.Outcome State Fault Refusal :=
  advanceCommand .pk444 .p444 deinterleave444 s

end Sys2Proof.Machine
end

