-- ==== Sys2Proof/Machine/Interleave420.lean ====
section
/-! DEFINITION. Planar 4:2:0 to interleaved 4:2:0: CVT_P420_SPUV, CVT_P420_SPVU
(43_interleave_420.md). -/

namespace Sys2Proof.Machine

/-- `interleave420(vu_order)`: the byte at position `k` of row `r` of destination plane `n`
(43_interleave_420.md R180). SPUV and SPVU have no plane 2. -/
def interleave420 (vuOrder : Bool) : KernelOut := fun _ lc img n r k =>
  match n with
  | .p0 => Cells.read img (lc.srcAddr .p0 r k)
  | .p1 =>
    chromaByte vuOrder (Cells.read img (lc.srcAddr .p1 r (k / 2)))
      (Cells.read img (lc.srcAddr .p2 r (k / 2))) k
  | .p2 => 0

/-- CVT_P420_SPUV (43_interleave_420.md R181). -/
def execCvtP420Spuv (s : State) : Host.Outcome State Fault Refusal :=
  advanceCommand .p420 .spuv (interleave420 false) s

/-- CVT_P420_SPVU (43_interleave_420.md R182). -/
def execCvtP420Spvu (s : State) : Host.Outcome State Fault Refusal :=
  advanceCommand .p420 .spvu (interleave420 true) s

end Sys2Proof.Machine
end

