-- ==== Sys2Proof/Machine/Packed422.lean ====
section
/-! DEFINITION. Packed 4:2:2 to interleaved 4:2:0 with vertical chroma averaging: the four
CVT_PK422*_SP* (45_packed422_to_420.md). -/

namespace Sys2Proof.Machine

/-- oU of `offsets(chroma_first)` (45_packed422_to_420.md R200). -/
def offU (chromaFirst : Bool) : Nat := if chromaFirst then 0 else 1

/-- oV of `offsets(chroma_first)` (45_packed422_to_420.md R200). -/
def offV (chromaFirst : Bool) : Nat := if chromaFirst then 2 else 3

/-- oY0 (`odd` 0) or oY1 (`odd` 1) of `offsets(chroma_first)` (45_packed422_to_420.md R200). -/
def offY (chromaFirst : Bool) (odd : Nat) : Nat := (if chromaFirst then 1 else 0) + 2 * odd

/-- The chroma at offset `off` of pixel pair `i`, averaged over rows `2j` and `2j + 1`
(45_packed422_to_420.md R200, 42_kernel_common.md R164). -/
def pk422Chroma (lc : Latched) (img : Memory) (off i j : Nat) : Byte :=
  avg2 (Cells.read img (lc.srcAddr .p0 (2 * j) (4 * i + off)))
    (Cells.read img (lc.srcAddr .p0 (2 * j + 1) (4 * i + off)))

/-- `pk422_to_420(chroma_first, vu_order)`: the byte at position `k` of row `r` of destination plane
`n` (45_packed422_to_420.md R200). SPUV and SPVU have no plane 2. -/
def pk422To420 (chromaFirst vuOrder : Bool) : KernelOut := fun _ lc img n r k =>
  match n with
  | .p0 => Cells.read img (lc.srcAddr .p0 r (4 * (k / 2) + offY chromaFirst (k % 2)))
  | .p1 =>
    chromaByte vuOrder (pk422Chroma lc img (offU chromaFirst) (k / 2) r)
      (pk422Chroma lc img (offV chromaFirst) (k / 2) r) k
  | .p2 => 0

/-- CVT_PK422C_SPUV (45_packed422_to_420.md R202). -/
def execCvtPk422cSpuv (s : State) : Host.Outcome State Fault Refusal :=
  advanceCommand .pk422c .spuv (pk422To420 true false) s

/-- CVT_PK422C_SPVU (45_packed422_to_420.md R203). -/
def execCvtPk422cSpvu (s : State) : Host.Outcome State Fault Refusal :=
  advanceCommand .pk422c .spvu (pk422To420 true true) s

/-- CVT_PK422L_SPUV (45_packed422_to_420.md R204). -/
def execCvtPk422lSpuv (s : State) : Host.Outcome State Fault Refusal :=
  advanceCommand .pk422l .spuv (pk422To420 false false) s

/-- CVT_PK422L_SPVU (45_packed422_to_420.md R205). -/
def execCvtPk422lSpvu (s : State) : Host.Outcome State Fault Refusal :=
  advanceCommand .pk422l .spvu (pk422To420 false true) s

end Sys2Proof.Machine
end

