-- ==== Sys2Proof/Machine/Float.lean ====
section
/-! DEFINITION. binary32 multiply and add, the dot product, and the rounding to an integer
(46_rgb_to_yuv.md R217 to R219). Values are computed exactly on integers and rounded once. -/

namespace Sys2Proof.Machine

/-- What a binary32 encoding stands for: NaN, an infinity, or `(−1)^neg × mant × 2^exp`. -/
inductive Real32
  | nan
  | inf (neg : Bool)
  | fin (neg : Bool) (mant : Nat) (exp : Int)
deriving DecidableEq, Repr

/-- The value of a binary32 encoding; subnormals keep theirs (46_rgb_to_yuv.md R218). -/
def unpack32 (w : Word) : Real32 :=
  let neg := w.getLsbD 31
  let e := (w.extractLsb' 23 8).toNat
  let f := (w.extractLsb' 0 23).toNat
  if e = 255 then (if f = 0 then .inf neg else .nan)
  else if e = 0 then .fin neg f (-149)
  else .fin neg (f + 2 ^ 23) (Int.ofNat e - 150)

/-- The sign bit over a magnitude. -/
def pack32 (neg : Bool) (bits : Nat) : Word :=
  BitVec.ofNat 32 (if neg then bits + 2 ^ 31 else bits)

/-- A quiet NaN. Which NaN a result is cannot be seen: every kernel only tests for one
(46_rgb_to_yuv.md R215; log 3). -/
def nan32 : Word := 0x7FC00000

/-- An infinity. -/
def inf32 (neg : Bool) : Word := pack32 neg 0x7F800000

/-- `m / 2^k` to the nearest integer, ties to even. -/
def shiftRne (m k : Nat) : Nat :=
  let q := m / 2 ^ k
  let twice := 2 * (m % 2 ^ k)
  if twice > 2 ^ k ∨ (twice = 2 ^ k ∧ q % 2 = 1) then q + 1 else q

/-- The number of bits of `m`. -/
def bitLength (m : Nat) : Nat := if m = 0 then 0 else Nat.log2 m + 1

/-- The exponent of the last place of binary32 values of the magnitude `m × 2^e`, for `m` not 0. -/
def lastPlace (m : Nat) (e : Int) : Int := max (e + Int.ofNat (bitLength m) - 24) (-149)

/-- The encoding, without its sign and before overflow, of `m × 2^e` rounded to nearest with ties to
even. A zero has no leading bit to place and is encoded as it is; a carry out of the significand moves
into the exponent field by itself. -/
def roundBits (m : Nat) (e : Int) : Nat :=
  if m = 0 then 0
  else
    let q := lastPlace m e
    let sig := if q ≤ e then m * 2 ^ (e - q).toNat else shiftRne m (q - e).toNat
    (q + 149).toNat * 2 ^ 23 + sig

/-- `(−1)^neg × m × 2^e` rounded to binary32, to nearest with ties to even; a zero keeps its sign
(46_rgb_to_yuv.md R218, R226). -/
def round32 (neg : Bool) (m : Nat) (e : Int) : Word :=
  if 0x7F800000 ≤ roundBits m e then inf32 neg else pack32 neg (roundBits m e)

/-- IEEE-754 binary32 multiply, round to nearest, ties to even (46_rgb_to_yuv.md R218). -/
def fmul (a b : Word) : Word :=
  match unpack32 a, unpack32 b with
  | .nan, _ => nan32
  | _, .nan => nan32
  | .inf s, .inf t => inf32 (s != t)
  | .inf s, .fin t m _ => if m = 0 then nan32 else inf32 (s != t)
  | .fin s m _, .inf t => if m = 0 then nan32 else inf32 (s != t)
  | .fin s m e, .fin t n f => round32 (s != t) (m * n) (e + f)

/-- A signed magnitude as an integer. -/
def signed (neg : Bool) (m : Nat) : Int := if neg then -(Int.ofNat m) else Int.ofNat m

/-- IEEE-754 binary32 add, round to nearest, ties to even (46_rgb_to_yuv.md R218). An exact zero sum is
−0 when both addends are negative, else +0. -/
def fadd (a b : Word) : Word :=
  match unpack32 a, unpack32 b with
  | .nan, _ => nan32
  | _, .nan => nan32
  | .inf s, .inf t => if s = t then inf32 s else nan32
  | .inf s, .fin _ _ _ => inf32 s
  | .fin _ _ _, .inf t => inf32 t
  | .fin s m e, .fin t n f =>
    let low := min e f
    let sum := signed s (m * 2 ^ (e - low).toNat) + signed t (n * 2 ^ (f - low).toNat)
    if sum = 0 then pack32 (s && t) 0 else round32 (decide (sum < 0)) sum.natAbs low

/-- The default CM_DOT: products summed left to right, no fused multiply-add (46_rgb_to_yuv.md R218). -/
def cmDotDefault (p m : Row4) : Word :=
  fadd (fadd (fadd (fmul p.c0 m.c0) (fmul p.c1 m.c1)) (fmul p.c2 m.c2)) (fmul p.c3 m.c3)

/-- CM_DOT of the implementation (46_rgb_to_yuv.md R217, R218; log 2). -/
def cmDot (cfg : Params) (p m : Row4) : Word :=
  match cfg.cmDot with
  | .specDefault => cmDotDefault p m
  | .implementation => Config.cmDot p m

/-- `d is NaN` (46_rgb_to_yuv.md R215). -/
def isNaN32 (d : Word) : Bool :=
  match unpack32 d with
  | .nan => true
  | .inf _ | .fin _ _ _ => false

/-- The default F2I: the nearest integer, ties to even; infinities stay (46_rgb_to_yuv.md R219). No
kernel asks it of a NaN (R215). -/
def f2iDefault (d : Word) : Rounded :=
  match unpack32 d with
  | .nan => .int 0
  | .inf neg => if neg then .negInf else .posInf
  | .fin neg m e =>
    .int (signed neg (if 0 ≤ e then m * 2 ^ e.toNat else shiftRne m (-e).toNat))

/-- F2I of the implementation (46_rgb_to_yuv.md R219; log 2). -/
def f2i (cfg : Params) (d : Word) : Rounded :=
  match cfg.f2i with
  | .specDefault => f2iDefault d
  | .implementation => Config.f2i d

/-- `clamp(n + Z, 0, 255)`, exact, infinities giving the ends (46_rgb_to_yuv.md R219, R220). -/
def clampSample (n : Rounded) (z : Int) : Byte :=
  match n with
  | .int n => BitVec.ofNat 8 (min (n + z) 255).toNat
  | .posInf => 255
  | .negInf => 0

end Sys2Proof.Machine
end

