-- ==== Sys2Proof/Machine/Rgb.lean ====
section
/-! DEFINITION. Floating-point RGB to YUV through the colour matrix, with the vertical flip: the three
CVT_RGBF_* (46_rgb_to_yuv.md). -/

namespace Sys2Proof.Machine

/-- CM[SEL] (30_encoding.md R101). -/
def coefficients (cm : ColourSets) : Sel → Matrix
  | .full601 => cm.full601
  | .full709 => cm.full709
  | .studio601 => cm.studio601
  | .studio709 => cm.studio709

/-- Row `c` of a coefficient set (46_rgb_to_yuv.md R216). -/
def matrixRow (m : Matrix) : Component → Row4
  | .y => m.y
  | .u => m.u
  | .v => m.v

/-- CM_STUDIO of a selector (30_encoding.md R101). -/
def isStudio : Sel → Bool
  | .full601 | .full709 => false
  | .studio601 | .studio709 => true

/-- `Z[SEL][c]`, the zero-points (30_encoding.md R101). -/
def zeroPoint (cfg : Params) (sel : Sel) (c : Component) : Int :=
  match isStudio sel, c with
  | false, .y => 0
  | false, .u | false, .v => cfg.zcFull
  | true, .y => 16
  | true, .u | true, .v => 128

/-- A sample from the dot product `d`: NAN_SAMPLE, or round, add the zero-point, clamp
(46_rgb_to_yuv.md R215). -/
def sampleOf (cfg : Params) (sel : Sel) (c : Component) (d : Word) : Byte :=
  if isNaN32 d then cfg.nanSample else clampSample (f2i cfg d) (zeroPoint cfg sel c)

/-- `sample(p, SEL, c)` (46_rgb_to_yuv.md R215). -/
def sample (cfg : Params) (p : Row4) (sel : Sel) (c : Component) : Byte :=
  sampleOf cfg sel c (cmDot cfg p (matrixRow (coefficients cfg.cm sel) c))

/-- `pix(x, y)`, the four channels of a source pixel in memory order (30_encoding.md R99,
46_rgb_to_yuv.md §2). -/
def pix (lc : Latched) (img : Memory) (x y : Nat) : Row4 :=
  ⟨readF32 img (lc.srcAddr .p0 y (16 * x)), readF32 img (lc.srcAddr .p0 y (16 * x + 4)),
   readF32 img (lc.srcAddr .p0 y (16 * x + 8)), readF32 img (lc.srcAddr .p0 y (16 * x + 12))⟩

/-- Component `c` of `yuv(pix(x, y), SEL)`. -/
def pixSample (cfg : Params) (lc : Latched) (img : Memory) (sel : Sel) (c : Component) (x y : Nat) :
    Byte :=
  sample cfg (pix lc img x y) sel c

/-- The component destination plane `n` of a planar surface holds (30_encoding.md R94). -/
def componentOf : Ix → Component
  | .p0 => .y
  | .p1 => .u
  | .p2 => .v

/-- CVT_RGBF_P444's kernel: the byte at column `k` of row `r` of plane `n` (46_rgb_to_yuv.md R222). -/
def rgbfToP444 (sel : Sel) : KernelOut := fun cfg lc img n r k =>
  pixSample cfg lc img sel (componentOf n) k (flipRow lc.h r)

/-- The chroma `c` of destination block `(i, j)`: the box of columns 2i, 2i+1 and source rows
H−1−2j, H−2−2j (46_rgb_to_yuv.md R223). -/
def boxChroma (cfg : Params) (lc : Latched) (img : Memory) (sel : Sel) (c : Component) (i j : Nat) :
    Byte :=
  let ya := flipRow lc.h (2 * j)
  let yb := flipRow lc.h (2 * j + 1)
  avg4 (pixSample cfg lc img sel c (2 * i) ya) (pixSample cfg lc img sel c (2 * i + 1) ya)
    (pixSample cfg lc img sel c (2 * i) yb) (pixSample cfg lc img sel c (2 * i + 1) yb)

/-- `rgbf_to_420(vu_order)`: the byte at position `k` of row `r` of destination plane `n`
(46_rgb_to_yuv.md R224). SPUV and SPVU have no plane 2. -/
def rgbfTo420 (sel : Sel) (vuOrder : Bool) : KernelOut := fun cfg lc img n r k =>
  match n with
  | .p0 => pixSample cfg lc img sel .y k (flipRow lc.h r)
  | .p1 =>
    chromaByte vuOrder (boxChroma cfg lc img sel .u (k / 2) r)
      (boxChroma cfg lc img sel .v (k / 2) r) k
  | .p2 => 0

/-- CVT_RGBF_P444 (46_rgb_to_yuv.md R222). -/
def execCvtRgbfP444 (sel : Sel) (s : State) : Host.Outcome State Fault Refusal :=
  advanceCommand .rgbf .p444 (rgbfToP444 sel) s

/-- CVT_RGBF_SPUV (46_rgb_to_yuv.md R224). -/
def execCvtRgbfSpuv (sel : Sel) (s : State) : Host.Outcome State Fault Refusal :=
  advanceCommand .rgbf .spuv (rgbfTo420 sel false) s

/-- CVT_RGBF_SPVU (46_rgb_to_yuv.md R225). -/
def execCvtRgbfSpvu (sel : Sel) (s : State) : Host.Outcome State Fault Refusal :=
  advanceCommand .rgbf .spvu (rgbfTo420 sel true) s

end Sys2Proof.Machine
end

