-- ==== Sys2Proof/Machine/Dispatch.lean ====
section
/-! DEFINITION. The meaning of each command, one arm a command. -/

namespace Sys2Proof.Machine

/-- The next event of a command on the addressed PFC: its START when the engine is idle, its run to the
end when the engine is busy. -/
def exec (i : Instr) (s : State) : Host.Outcome State Fault Refusal :=
  match i with
  | .cvtP420Spuv => Sys2Proof.Machine.execCvtP420Spuv s
  | .cvtP420Spvu => Sys2Proof.Machine.execCvtP420Spvu s
  | .cvtPk444P444 => Sys2Proof.Machine.execCvtPk444P444 s
  | .cvtPk422cSpuv => Sys2Proof.Machine.execCvtPk422cSpuv s
  | .cvtPk422cSpvu => Sys2Proof.Machine.execCvtPk422cSpvu s
  | .cvtPk422lSpuv => Sys2Proof.Machine.execCvtPk422lSpuv s
  | .cvtPk422lSpvu => Sys2Proof.Machine.execCvtPk422lSpvu s
  | .cvtRgbfP444 sel => Sys2Proof.Machine.execCvtRgbfP444 sel s
  | .cvtRgbfSpuv sel => Sys2Proof.Machine.execCvtRgbfSpuv sel s
  | .cvtRgbfSpvu sel => Sys2Proof.Machine.execCvtRgbfSpvu sel s

end Sys2Proof.Machine
end

