-- ==== Sys2Proof/Machine/HostStep.lean ====
section
/-! DEFINITION. The host's statements (30_encoding.md R106): register accesses, START, memory accesses
and the host's own control flow (40_control.md §1, §2, §4). -/

namespace Sys2Proof.Machine

/-- "aligned 32-bit reads and writes at offsets that are multiples of 4 within the register block"
(20_memory.md R71). -/
def regOffsetOk (off : Nat) : Bool := off % 4 == 0 && decide (off < blockSize)

/-- START, a write of 1 to CTRL.START (40_control.md R133): OVR while busy (R139); else the OP word is
decoded (30_encoding.md R104) and its error posted, or its command begins. -/
def startWrite (s : State) : Host.Outcome State Fault Refusal :=
  if s.pfc.busy then .next (s.setPfc s.pfc.overrun)
  else
    match decodeOp s.pfc.op with
    | .error e => .next (s.setPfc (s.pfc.reject e))
    | .ok i => exec i s

/-- A register write to the addressed PFC at a legal offset (40_control.md R131 to R133, R140); a
reserved offset ignores it (10_state.md R22). -/
def regWrite (s : State) (off : Nat) (v : Word) : Host.Outcome State Fault Refusal :=
  match regAt off with
  | none => .next s
  | some r =>
    if r = .ctrl then (if v.getLsbD 0 then startWrite s else .next s)
    else .next (s.setPfc (s.pfc.writeReg s.cfg r v))

/-- An access to the register block at `base` that goes on as `f` says. It is not answered, and the
host waits at it, while the PFC's reset is asserted (70_reset_and_hazards.md R290; log 9). -/
def onPfc (s : State) (base : Nat) (f : State → Host.Outcome State Fault Refusal) :
    Host.Outcome State Fault Refusal :=
  match s.select base with
  | none => .refused .noSuchPfc
  | some s' => if s'.pfc.inReset then .next s' else f s'

/-- Address `a` lies in the register block of some PFC. -/
def State.inBlock (s : State) (a : Nat) : Bool := anyHas (s.pfcs.map Pfc.block) a

/-- Address `a` lies in a footprint of some running command. -/
def State.inFootprint (s : State) (a : Nat) : Bool :=
  s.pfcs.any fun p => anyHas p.srcRanges a || anyHas p.dstRanges a

/-- Address `a` lies in a destination footprint of some running command. -/
def State.inDstFootprint (s : State) (a : Nat) : Bool := s.pfcs.any fun p => anyHas p.dstRanges a

/-- A host store of the given bytes: FAULT_RACE when any of them lies in a footprint of a running
command, whatever the memory map says of that byte (20_memory.md R78); else, outside the platform's
memory it has no effect the spec gives (logs 5, 19, 29). DESIGN CHOICE: where the bytes of one MEM.W32
break several of these, the stop named is race, then noSuchAddress, then regAccess, then hostMemory; the
spec gives no order (log 30). -/
def hostStore (s : State) (bytes : List (Nat × Byte)) : Host.Outcome State Fault Refusal :=
  if bytes.any fun c => s.inFootprint c.1 then .fault .race
  else if bytes.any fun c => decide (2 ^ s.cfg.addrW ≤ c.1) then .fault .noSuchAddress
  else if bytes.any fun c => s.inBlock c.1 then .refused .regAccess
  else if bytes.any fun c => !writableAt s.memMap c.1 then .refused .hostMemory
  else .next { s with mem := Cells.writeAll s.mem bytes }

/-- A host load of one byte, bound to a name: a draw inside a destination footprint of a running
command (20_memory.md R78) and from that command's end until the host has seen it
(70_reset_and_hazards.md R296, "Bytes read earlier are draws"), whatever the memory map says of that byte;
else the memory value, or a stop outside the platform's memory (logs 5, 19, 29). DESIGN CHOICE: where one
byte breaks several duties, the stop named is noSuchAddress, then regAccess, then hostMemory; the spec
gives no order (log 30). -/
def hostLoad (s : State) (a name : Nat) : Host.Outcome State Fault Refusal :=
  if s.inDstFootprint a || s.unsees a then
    .next { s.bind name ((Config.drawByte s.draws).zeroExtend 32) with draws := s.draws + 1 }
  else if 2 ^ s.cfg.addrW ≤ a then .fault .noSuchAddress
  else if s.inBlock a then .refused .regAccess
  else if !readableAt s.memMap a then .refused .hostMemory
  else .next (s.bind name ((Cells.read s.mem a).zeroExtend 32))

/-- The bytes of a 32-bit store, little-endian (30_encoding.md R106). -/
def wordBytes (a : Nat) (v : Word) : List (Nat × Byte) :=
  [(a, byteOfWord v 0), (a + 1, byteOfWord v 1), (a + 2, byteOfWord v 2), (a + 3, byteOfWord v 3)]

/-- The position of a label in a program, wherever it stands. DESIGN CHOICE: the spec speaks of "a branch
back" only (30_encoding.md R106); a BNZ whose label stands after it jumps forward, and of two equal
labels the first is meant (log 8). -/
def labelAt (prog : List Stmt) (l : Nat) : Option Nat :=
  prog.findIdx? fun st => st == .label l

/-- The effect of a host statement (30_encoding.md R106). -/
def runStmt (st : Stmt) (s : State) : Host.Outcome State Fault Refusal :=
  match st with
  | .wr32 base off v =>
    if regOffsetOk off then onPfc s base fun s' => regWrite s'.nextStmt off v
    else .refused .regAccess
  | .rd32 base off name =>
    if regOffsetOk off then
      onPfc s base fun s' => .next ((s'.nextStmt.bind name (s'.pfc.readAt s'.cfg off)).see off)
    else .refused .regAccess
  | .regOther _ _ _ => .refused .regAccess
  | .waitIrq base =>
    match s.select base with
    | none => .refused .noSuchPfc
    | some s' => .next (if s'.pfc.irq then s'.nextStmt else s')
  | .memW8 a b => hostStore s.nextStmt [(a, b)]
  | .memW32 a v => hostStore s.nextStmt (wordBytes a v)
  | .memR8 a name => hostLoad s.nextStmt a name
  | .label _ => .next s.nextStmt
  | .bnz name mask l =>
    if Cells.read s.host.vars name &&& mask = 0 then .next s.nextStmt
    else
      match labelAt s.host.prog l with
      | some k => .next { s with host := { s.host with pc := k } }
      | none => .refused .noSuchLabel

/-- The host performs the statement at its position; a program that is over does nothing more
(40_control.md R142). -/
def hostTurn (s : State) : Host.Outcome State Fault Refusal :=
  match s.host.prog[s.host.pc]? with
  | none => .next s
  | some st => runStmt st s

end Sys2Proof.Machine
end

