-- ==== Sys2Proof/Machine/Turns.lean ====
section
/-! DEFINITION. The moves of the agents: the host, an engine, the memory system, the reset inputs
(40_control.md §3; 60_exceptions.md R277; 70_reset_and_hazards.md §1). A move names a PFC by its position in
the list of PFCs, which is the model's own and which no program can name (log 15). -/

namespace Sys2Proof.Machine

/-- The engine of PFC `n` brings its running command to its end, by the meaning of the command
its latched OP names; an idle engine does nothing (40_control.md R135, 60_exceptions.md R283). -/
def engineTurn (n : Nat) (s : State) : Host.Outcome State Fault Refusal :=
  match s.selectAt n with
  | none => .next s
  | some s' =>
    match s'.pfc.engine with
    | none => .next s'
    | some run =>
      match decodeOp run.lc.op with
      | .ok i => exec i s'
      | .error _ => .refused .noKernel

/-- The memory system does not complete an access of the running command of PFC `n`
(40_control.md R137, 60_exceptions.md R267; log 23). -/
def busErrorTurn (n : Nat) (s : State) : Host.Outcome State Fault Refusal :=
  match s.selectAt n with
  | none => .next s
  | some s' => if s'.pfc.busy then .fault (.bus s'.pfc.failBus) else .next s'

/-- Reset of PFC `n` is asserted: its command stops, each byte of that command's destination
footprints keeps its value or is drawn, and its registers take their reset values (70_reset_and_hazards.md R290 to
R292). DESIGN CHOICE: they take them when reset is asserted, where R290 speaks of its release only; so the
interrupt output is 0, and WAIT_IRQ waits, while reset is asserted (log 27). -/
def resetOnTurn (n : Nat) (s : State) : Host.Outcome State Fault Refusal :=
  match s.selectAt n with
  | none => .next s
  | some s' =>
    let drawn := drawOver s'.mem s'.draws (addressesOf s'.pfc.dstRanges)
    .next { s' with
      pfc := { Pfc.reset s'.cfg s'.pfc.regBase with inReset := true }
      mem := drawn.1
      draws := drawn.2 }

/-- Reset of PFC `n` is released: "every register holds the value of rule R292 and the engine is
IDLE with no latched command" (70_reset_and_hazards.md R290). -/
def resetOffTurn (n : Nat) (s : State) : Host.Outcome State Fault Refusal :=
  match s.selectAt n with
  | none => .next s
  | some s' =>
    .next (if s'.pfc.inReset then s'.setPfc (Pfc.reset s'.cfg s'.pfc.regBase) else s')

/-- One move. A host statement that falls in the cycle of a command's end is judged against the state
before the end, and a bit the end sets wins over a clear (60_exceptions.md R277, 10_state.md R28;
log 14): the statement first, then the end. -/
def takeTurn (t : Turn) (s : State) : Host.Outcome State Fault Refusal :=
  match t with
  | .host => hostTurn s
  | .engine n => engineTurn n s
  | .together n =>
    match hostTurn s with
    | .next s' => engineTurn n s'
    | .fault r => .fault r
    | .refused r => .refused r
  | .busError n => busErrorTurn n s
  | .resetOn n => resetOnTurn n s
  | .resetOff n => resetOffTurn n s

/-- Who moves when no turn is listed: the first busy engine, so that every accepted command ends, then
the host (70_reset_and_hazards.md R302; log 6). -/
def State.defaultTurn (s : State) : Turn :=
  match s.pfcs.findIdx? Pfc.busy with
  | some n => .engine n
  | none => .host

end Sys2Proof.Machine
end

