-- ==== Sys2Proof/Machine/Step.lean ====
section
/-! DEFINITION. One step of the platform: the next listed turn, or the default one. -/

namespace Sys2Proof.Machine

/-- One step: the first of `turns` moves, or, when none is listed, the default agent (log 6). -/
def step (s : State) : Host.Outcome State Fault Refusal :=
  match s.turns with
  | t :: rest => takeTurn t { s with turns := rest }
  | [] => takeTurn s.defaultTurn s

/-- The state whose very next step runs the command whose OP word is `w`: the word stands in OP and in
the latched command of the addressed PFC, latched with the descriptor as it is, and that PFC's engine
moves next (the PFC fetches nothing: 10_state.md R21; log 13). -/
def State.withFetchWord (s : State) (nbits w : Nat) : State :=
  let p := { s.pfc with op := BitVec.ofNat 32 (w % 2 ^ nbits) }
  { s with
    pfc := { p with engine := some ⟨p.latch s.cfg, s.mem⟩ }
    turns := .engine s.here :: s.turns }

end Sys2Proof.Machine
end

