-- ==== Sys2Proof/Machine/HostProgram.lean ====
section
/-! DEFINITION. The pseudo-statements of host programs and their expansions (30_encoding.md R107), and
when a statement is well formed. -/

namespace Sys2Proof.Machine

/-- The registers of one plane of a surface, source or destination. -/
inductive Side
  | src | dst
deriving DecidableEq, Repr

/-- The offsets of a plane's ADDR_LO, ADDR_HI and STRIDE registers (10_state.md R22). -/
def planeOffsets (side : Side) (n : Ix) : Nat × Nat × Nat :=
  match side with
  | .src => (regOffset (.srcAddrLo n), regOffset (.srcAddrHi n), regOffset (.srcStride n))
  | .dst => (regOffset (.dstAddrLo n), regOffset (.dstAddrHi n), regOffset (.dstStride n))

/-- `WAIT_IDLE` (30_encoding.md R107), with the label and the name it uses. -/
def waitIdle (base lbl name : Nat) : List Stmt :=
  [.label lbl, .rd32 base (regOffset .status) name, .bnz name 0x1 lbl]

/-- `SET_PLANE SRC|DST, n, addr, stride` (30_encoding.md R107). -/
def setPlane (base : Nat) (side : Side) (n : Ix) (addr : BitVec 64) (stride : Word) : List Stmt :=
  let offs := planeOffsets side n
  [.wr32 base offs.1 (addr.extractLsb' 0 32), .wr32 base offs.2.1 (addr.extractLsb' 32 32),
   .wr32 base offs.2.2 stride]

/-- `CONVERT <mnemonic>[.sel], W, H` (30_encoding.md R107). -/
def convert (base : Nat) (i : Instr) (w h : Word) : List Stmt :=
  [.wr32 base (regOffset .op) (encodeOp i), .wr32 base (regOffset .width) w,
   .wr32 base (regOffset .height) h, .wr32 base (regOffset .ctrl) 0x1]

/-- `SET_ALLOW v128, v256` (30_encoding.md R107). -/
def setAllow (base : Nat) (v128 v256 : Bool) : Stmt :=
  .wr32 base (regOffset .tierAllow) ((0 : BitVec 30) ++ BitVec.ofBool v256 ++ BitVec.ofBool v128)

/-- `CLEAR_IRQ mask` (30_encoding.md R107). -/
def clearIrqStmt (base : Nat) (mask : Word) : Stmt := .wr32 base (regOffset .irqStatus) mask

/-- A statement is well formed in a program for a platform whose PFCs have the REG_BASEs
`bases` and `addrW` address bits: its
register access is an aligned 32-bit one within a block the platform has, its addresses exist, its label
stands in the program (30_encoding.md R106, 20_memory.md R71). -/
def Stmt.wellFormed (bases : List Nat) (addrW : Nat) (prog : List Stmt) : Stmt → Bool
  | .wr32 p off _ | .rd32 p off _ => bases.contains p && off % 4 == 0 && decide (off < blockSize)
  | .regOther _ _ _ => false
  | .waitIrq p => bases.contains p
  | .memW8 a _ | .memR8 a _ => decide (a < 2 ^ addrW)
  | .memW32 a _ => decide (a + 3 < 2 ^ addrW)
  | .label _ => true
  | .bnz _ _ l => prog.contains (.label l)

end Sys2Proof.Machine
end

