-- ==== Sys2Proof/Safety.lean ====
section
/-! DEFINITION. What counts as a good state and a good run: the invariant of the platform, when a PFC
runs a command that START would accept, and how a host tells success (70_reset_and_hazards.md). -/

namespace Sys2Proof.Machine

/-- Memory and the host's names are in canonical form (log 4). -/
def State.canonical (s : State) : Prop := Memory.wf s.mem ∧ Cells.wf s.host.vars

/-- Each PFC has a register block of its own, so that its REG_BASE identifies it
(60_exceptions.md R281). -/
def State.ownBlocks (s : State) : Prop :=
  s.pfcs.Pairwise fun p q => blocksApart p.regBase q.regBase = true

/-- The tier exists on the implementation (10_state.md R24, 00_scope.md R3). -/
def tierExists (cfg : Params) : Tier → Prop
  | .scalar => True
  | .v128 => cfg.hasV128 = true
  | .v256 => cfg.hasV256 = true

/-- The hard-wired and reserved bits of a PFC read 0: the allow bit of an absent tier (10_state.md R25),
the address bits from ADDR_W up (R33, R35); and STATUS.TIER names a tier the implementation has (R27). -/
def Pfc.hardwired (cfg : Params) (p : Pfc) : Prop :=
  p.tierAllow &&& presentTiers cfg = p.tierAllow
    ∧ (∀ n, (p.src.get n).addrHi &&& hiMask cfg = (p.src.get n).addrHi)
    ∧ (∀ n, (p.dst.get n).addrHi &&& hiMask cfg = (p.dst.get n).addrHi)
    ∧ tierExists cfg p.tier

/-- Every PFC of the platform keeps its hard-wired bits. -/
def State.hardwired (s : State) : Prop := ∀ p ∈ s.pfcs, p.hardwired s.cfg

/-- The latched command `lc` from `src` to `dst` is one START accepts without a fault of its own, on the
tier it selects: its checks passed (40_control.md R133) and its destinations are disjoint
(20_memory.md R69). -/
def acceptable (cfg : Params) (src dst : Format) (lc : Latched) (t : Tier) : Prop :=
  startError cfg src dst lc = none
    ∧ t = selectTier cfg src dst lc
    ∧ lc.overlapping src dst t = false

/-- The addressed PFC runs command `i`, accepted by START and with every footprint byte mapped
(40_control.md R133, 20_memory.md R68). -/
def State.runs (s : State) (i : Instr) (run : Running) : Prop :=
  s.pfc.engine = some run
    ∧ acceptable s.cfg i.src i.dst run.lc s.pfc.tier
    ∧ run.lc.mapped s.memMap i.src i.dst s.pfc.tier = true

/-- The addressed PFC is idle and its descriptor is that of a command START accepts: no check fails, and
no duty of the host is broken (40_control.md R133, R141). -/
def State.mayStart (s : State) (i : Instr) : Prop :=
  s.pfc.engine = none
    ∧ startError s.cfg i.src i.dst (s.pfc.latch s.cfg) = none
    ∧ (s.pfc.latch s.cfg).overlapping i.src i.dst
        (selectTier s.cfg i.src i.dst (s.pfc.latch s.cfg)) = false
    ∧ s.reachesBlock
        (((s.pfc.latch s.cfg).srcFootprints i.src
            (selectTier s.cfg i.src i.dst (s.pfc.latch s.cfg))).flatten
          ++ ((s.pfc.latch s.cfg).dstFootprints i.dst
            (selectTier s.cfg i.src i.dst (s.pfc.latch s.cfg))).flatten) = false
    ∧ ∀ q ∈ s.others, racing (s.pfc.accept (s.pfc.latch s.cfg)
        (selectTier s.cfg i.src i.dst (s.pfc.latch s.cfg)) s.mem) q = false

/-- What holds of a PFC while it is BUSY (40_control.md R133, R135; 20_memory.md R77, R80): it is not in
reset, it reports no error, its latched command is one START accepted on the tier STATUS shows, and every
byte of its source footprint still holds what the source image holds. -/
def Pfc.coherent (cfg : Params) (mem : Memory) (p : Pfc) : Prop :=
  ∀ run, p.engine = some run →
    p.inReset = false ∧ p.err = .none
      ∧ (∃ i, decodeOn cfg run.lc.op = .ok i ∧ acceptable cfg i.src i.dst run.lc p.tier)
      ∧ ∀ a, anyHas p.srcRanges a = true → Cells.read mem a = Cells.read run.image a

/-- The invariant of running commands: each is coherent with memory, and no two of them race
(20_memory.md R79). -/
def State.coherent (s : State) : Prop :=
  (∀ p ∈ s.pfcs, p.coherent s.cfg s.mem) ∧ s.pfcs.Pairwise fun p q => racing p q = false

/-- "success is STATUS.ERR = 0, IRQ_STATUS.OVR = 0 and IRQ_STATUS.DONE = 1"
(70_reset_and_hazards.md R297). -/
def Pfc.succeeded (p : Pfc) : Bool :=
  p.err == .none && (p.irqStatus &&& irqOvr) == 0 && (p.irqStatus &&& irqDone) != 0

end Sys2Proof.Machine
end

