-- ==== Sys2Proof/Certificates/Slice0/Obligations.lean ====
section
/-! DEFINITION. The statements about the model. Each docstring names the rule of the spec it
formalises; what rests on a choice of the model's names the log entry. -/

open Sys2Proof Sys2Proof.Machine

namespace Sys2Proof.Machine

/-! ## Words the statements share -/

/-- START on the addressed PFC, which is any write of 1 to CTRL.START, is rejected with `e`: only
STATUS.ERR and IRQ_STATUS.ERR change. -/
def rejectsWith (s : State) (e : ErrCode) : Prop :=
  startWrite s = .next
      (s.setPfc { s.pfc with err := e, irqStatus := s.pfc.irqStatus ||| 0b010 })
    ∧ ∀ v : Word, v.getLsbD 0 = true → regWrite s 0x00C v = startWrite s

/-- The descriptor registers (40_control.md R140). -/
def Reg.isDescriptor : Reg → Bool
  | .id | .caps | .tierAllow | .ctrl | .status | .irqStatus | .irqEnable => false
  | .op | .width | .height | .srcAddrLo _ | .srcAddrHi _ | .srcStride _
  | .dstAddrLo _ | .dstAddrHi _ | .dstStride _ => true

/-- What a descriptor register reads as after `v` was written to it (10_state.md R30 to R36). -/
def storedValue (cfg : Params) (r : Reg) (v : Word) : Nat :=
  match r with
  | .width | .height => v.toNat % 2 ^ 16
  | .srcAddrHi _ | .dstAddrHi _ => v.toNat % 2 ^ (cfg.addrW - 32)
  | .id | .caps | .tierAllow | .ctrl | .status | .irqStatus | .irqEnable
  | .op | .srcAddrLo _ | .srcStride _ | .dstAddrLo _ | .dstStride _ => v.toNat

/-- Address `a` is a used byte of a destination plane of the command. -/
def writesTo (lc : Latched) (dst : Format) (a : Nat) : Prop :=
  ∃ g ∈ lc.dstPlanes dst, ∃ r < g.rows, ∃ k < g.used, a = lc.dstAddr g.ix r k

/-- `t` is `s` with the addressed PFC's command completed: BUSY 0 and DONE 1, nothing else of the
platform changed but memory, and of memory only used destination bytes of the command
(40_control.md R135, 42_kernel_common.md R161); and the host has its destination footprint yet to see
(70_reset_and_hazards.md R296; log 28). -/
def completes (i : Instr) (run : Running) (s t : State) : Prop :=
  t = { s with
      pfc := { s.pfc with engine := none, irqStatus := s.pfc.irqStatus ||| 0b001 }
      mem := t.mem
      unseen := unseenAfter s.unseen s.pfc.regBase (run.lc.dstFootprints i.dst s.pfc.tier).flatten }
    ∧ ∀ a, ¬ writesTo run.lc i.dst a → Cells.read t.mem a = Cells.read s.mem a

/-- The two bytes of a chroma pair at block `(k, j)` of destination plane 1 (30_encoding.md R95). -/
def chromaPair (run : Running) (t : State) (vu : Bool) (j k : Nat) (u v : Byte) : Prop :=
  Cells.read t.mem (run.lc.dstAddr .p1 j (2 * k)) = (if vu then v else u)
    ∧ Cells.read t.mem (run.lc.dstAddr .p1 j (2 * k + 1)) = (if vu then u else v)

/-- A finite value in units of `2^-k`. -/
def Real32.scaled (k : Nat) : Real32 → Int
  | .fin neg m e => signed neg (m * 2 ^ (e + k).toNat)
  | .nan | .inf _ => 0

/-- `r` is `v × 2^-k` rounded to binary32, to nearest with ties to even: an infinity from half a last
place above the greatest finite value on; else a finite value that no finite value is nearer than, and
whose last bit is 0 where another is as near. -/
def roundsTo (k : Nat) (v : Int) (r : Word) : Prop :=
  if (2 ^ 128 - 2 ^ 103) * 2 ^ k ≤ v.natAbs then r = (if v < 0 then 0xFF800000 else 0x7F800000)
  else (∃ neg m e, unpack32 r = .fin neg m e) ∧
    ∀ (w : Word) (neg : Bool) (m : Nat) (e : Int), unpack32 w = .fin neg m e →
      (v - (unpack32 r).scaled k).natAbs ≤ (v - (unpack32 w).scaled k).natAbs
      ∧ ((v - (unpack32 r).scaled k).natAbs = (v - (unpack32 w).scaled k).natAbs →
          (unpack32 w).scaled k ≠ (unpack32 r).scaled k → r.getLsbD 0 = false)

/-- The turn a step takes. -/
def turnTaken (s : State) : Turn := s.turns.headD s.defaultTurn

/-- The addressed PFC's statement is next in the host's program. -/
def hostIsAt (s : State) (st : Stmt) : Prop := s.host.prog[s.host.pc]? = some st

end Sys2Proof.Machine

/-! ## Reset and the register map -/

/-- R292 (70_reset_and_hazards.md), with the values of R23 to R36 read back, from the release of reset on
(R290); the assertion of an idle PFC's reset changes nothing of the platform but that PFC, memory least
of all. That reset memory lists nothing is the model's choice (log 4) and is not stated; what the
registers hold while reset is asserted is its choice too (log 27) and is stated apart, in
`RegisterAccessWaitsInReset`. -/
def Obligations.ResetRegisterValues : Prop :=
  (∀ (cfg : Params) (base : Nat),
    (Pfc.reset cfg base).readReg cfg .id = cfg.pfcId
      ∧ ((Pfc.reset cfg base).readReg cfg .caps).toNat
          = cfg.hasV128.toNat + 2 * cfg.hasV256.toNat + 4 * cfg.hasSpvuDst.toNat
      ∧ ((Pfc.reset cfg base).readReg cfg .tierAllow).toNat
          = cfg.hasV128.toNat + 2 * cfg.hasV256.toNat
      ∧ (∀ r : Reg, r ≠ .id → r ≠ .caps → r ≠ .tierAllow → (Pfc.reset cfg base).readReg cfg r = 0)
      ∧ (Pfc.reset cfg base).engine = none ∧ (Pfc.reset cfg base).irq = false)
  ∧ (∀ p ∈ State.reset.pfcs, p = Pfc.reset State.reset.cfg p.regBase)
  ∧ (∀ (s u : State) (n : Nat), s.selectAt n = some u → u.pfc.inReset = true →
      resetOffTurn n s = .next (u.setPfc (Pfc.reset u.cfg u.pfc.regBase)))
  ∧ (∀ (s u : State) (n : Nat), s.selectAt n = some u → u.pfc.engine = none →
      ∃ t, resetOnTurn n s = .next t ∧ t = u.setPfc t.pfc ∧ t.pfc.engine = none
        ∧ t.pfc.inReset = true ∧ t.pfc.regBase = u.pfc.regBase)

/-- R291 (70_reset_and_hazards.md): the command stops, no bit of IRQ_STATUS is set and STATUS.ERR gets no
new code, and what memory holds. Which draw a byte holds is open (log 12); what the registers hold while
reset is asserted is stated apart, in `RegisterAccessWaitsInReset` (log 27). -/
def Obligations.ResetWhileBusyStopsCommand : Prop :=
  ∀ (s u : State) (n : Nat) (run : Running), s.selectAt n = some u → u.pfc.engine = some run →
    ∃ t, resetOnTurn n s = .next t
      ∧ t.pfc.engine = none ∧ t.pfc.inReset = true ∧ t.pfc.regBase = u.pfc.regBase
      ∧ (∀ k, t.pfc.irqStatus.getLsbD k = true → u.pfc.irqStatus.getLsbD k = true)
      ∧ (t.pfc.err = u.pfc.err ∨ t.pfc.err = .none)
      ∧ t.before = u.before ∧ t.after = u.after ∧ t.host = s.host ∧ t.cfg = s.cfg
      ∧ t.unseen = s.unseen
      ∧ (∀ a, Cells.read t.mem a = Cells.read s.mem a ∨
          (anyHas u.pfc.dstRanges a = true ∧ ∃ k, Cells.read t.mem a = Config.drawByte k))

/-- R293 (70_reset_and_hazards.md). -/
def Obligations.NoCommandRunsOnResetValues : Prop :=
  rejectsWith State.reset .unsup
  ∧ ∀ (s : State) (i : Instr), s.pfc.engine = none → decodeOn s.cfg s.pfc.op = .ok i →
      s.pfc.width = 0 → s.pfc.height = 0 → rejectsWith s .dim

/-- The register map of 10_state.md R22: which aligned offsets are reserved, that they read 0 and ignore
writes, and that writes to read-only registers and of 0 to CTRL.START do nothing (R23, R24, R26, R27). -/
def Obligations.ReservedAndReadOnlyOffsets : Prop :=
  (∀ off < 4096, off % 4 = 0 →
    (regAt off = none ↔ off = 0x01C ∨ off = 0x02C ∨ off = 0x054 ∨ 0x07C ≤ off))
  ∧ (∀ (cfg : Params) (p : Pfc) (off : Nat), regAt off = none → p.readAt cfg off = 0)
  ∧ (∀ (s : State) (off : Nat) (v : Word), regAt off = none → regWrite s off v = .next s)
  ∧ (∀ (s : State) (v : Word), regWrite s 0x000 v = .next s ∧ regWrite s 0x004 v = .next s
      ∧ regWrite s 0x010 v = .next s ∧ (v.getLsbD 0 = false → regWrite s 0x00C v = .next s))

/-- R131 (40_control.md) and R25 (10_state.md): what a TIER_ALLOW write stores and what it does to later
commands; nothing else changes. -/
def Obligations.TierAllowWrite : Prop :=
  ∀ (s : State) (v : Word), ∃ t, regWrite s 0x008 v = .next t
    ∧ t = s.setPfc { s.pfc with tierAllow := t.pfc.tierAllow }
    ∧ (t.pfc.readAt t.cfg 0x008).toNat
        = (v.getLsbD 0 && s.cfg.hasV128).toNat + 2 * (v.getLsbD 1 && s.cfg.hasV256).toNat
    ∧ ∀ src dst : Format,
        (v.getLsbD 0 = false → selectTier t.cfg src dst (t.pfc.latch t.cfg) ≠ .v128)
        ∧ (v.getLsbD 1 = false → selectTier t.cfg src dst (t.pfc.latch t.cfg) ≠ .v256)

/-- R132 (40_control.md): W1C and enable writes, and that a set in the cycle of a clear wins. -/
def Obligations.InterruptRegisterWrites : Prop :=
  (∀ (s : State) (v : Word), ∃ t, regWrite s 0x014 v = .next t
    ∧ t = s.setPfc { s.pfc with irqStatus := t.pfc.irqStatus }
    ∧ ∀ k < 3, t.pfc.irqStatus.getLsbD k = (s.pfc.irqStatus.getLsbD k && !v.getLsbD k))
  ∧ (∀ (s : State) (v : Word), ∃ t, regWrite s 0x018 v = .next t
    ∧ t = s.setPfc { s.pfc with irqEnable := t.pfc.irqEnable }
    ∧ ∀ k < 3, t.pfc.irqEnable.getLsbD k = v.getLsbD k)
  ∧ (∀ (s : State) (i : Instr) (run : Running) (v : Word), s.runs i run →
      decodeOp run.lc.op = .ok i → s.pfc.inReset = false → hostIsAt s (.wr32 s.pfc.regBase 0x014 v) →
      ∃ t, takeTurn (.together s.here) s = .next t ∧ t.pfc.irqStatus.getLsbD 0 = true)

/-- R140 (40_control.md): a descriptor write stores its masked value, raises nothing and changes no other
register; in particular it does not change a running command (10_state.md R38). -/
def Obligations.DescriptorWrite : Prop :=
  ∀ (s : State) (r : Reg) (v : Word), r.isDescriptor = true → s.cfg.legal = true →
    ∃ t, regWrite s (regOffset r) v = .next t
      ∧ t = s.setPfc t.pfc
      ∧ (t.pfc.readAt t.cfg (regOffset r)).toNat = storedValue s.cfg r v
      ∧ (∀ r' : Reg, r' ≠ r → t.pfc.readReg t.cfg r' = s.pfc.readReg s.cfg r')
      ∧ t.pfc.engine = s.pfc.engine ∧ t.pfc.inReset = s.pfc.inReset
      ∧ t.pfc.regBase = s.pfc.regBase

/-- R130 (40_control.md) and R72 (20_memory.md): an RD32 binds the register's value and has no side
effect. What the host knows by it is stated apart, in `CompletionIsSeenByReading` (log 28). -/
def Obligations.RegisterReadHasNoSideEffect : Prop :=
  ∀ (s u : State) (n off name : Nat), hostIsAt s (.rd32 n off name) → off % 4 = 0 → off < 4096 →
    s.select n = some u → u.pfc.inReset = false →
    ∃ t, hostTurn s = .next t
      ∧ Cells.read t.host.vars name = u.pfc.readAt s.cfg off
      ∧ (∀ m, m ≠ name → Cells.read t.host.vars m = Cells.read s.host.vars m)
      ∧ t.host.pc = s.host.pc + 1 ∧ t.host.prog = s.host.prog
      ∧ t.pfcs = s.pfcs ∧ t.mem = s.mem ∧ t.cfg = s.cfg ∧ t.memMap = s.memMap
      ∧ t.draws = s.draws ∧ t.turns = s.turns
      ∧ (∀ c ∈ t.unseen, c ∈ s.unseen)
      ∧ (off ≠ 0x010 → off ≠ 0x014 → t.unseen = s.unseen)

/-- R71 (20_memory.md): a register access that is not an aligned 32-bit one is refused. -/
def Obligations.OtherRegisterAccessRefused : Prop :=
  ∀ (s : State) (n off : Nat),
    ((∃ bytes, hostIsAt s (.regOther n off bytes)) ∨
      ((off % 4 ≠ 0 ∨ 4096 ≤ off) ∧
        ((∃ v, hostIsAt s (.wr32 n off v)) ∨ ∃ name, hostIsAt s (.rd32 n off name)))) →
    hostTurn s = .refused .regAccess

/-- R290 (70_reset_and_hazards.md): a register access is not answered while reset is asserted. That the
host waits at it is the model's reading (log 9); that the registers take their reset values at the
assertion, and the interrupt output is 0 from there on, is its choice (log 27). -/
def Obligations.RegisterAccessWaitsInReset : Prop :=
  (∀ (s u : State) (n off : Nat), off % 4 = 0 → off < 4096 → s.select n = some u →
    u.pfc.inReset = true →
    ((∃ v, hostIsAt s (.wr32 n off v)) ∨ ∃ name, hostIsAt s (.rd32 n off name)) →
    hostTurn s = .next u ∧ u.host = s.host ∧ u.pfcs = s.pfcs ∧ u.mem = s.mem)
  ∧ ∀ (s u : State) (n : Nat), s.selectAt n = some u →
    ∃ t, resetOnTurn n s = .next t
      ∧ t.pfc = { Pfc.reset u.cfg u.pfc.regBase with inReset := true } ∧ t.pfc.irq = false
      ∧ (u.pfc.engine = none → t = u.setPfc t.pfc)

/-! ## Starting a command -/

/-- R139 (40_control.md). -/
def Obligations.StartWhileBusyIsOverrun : Prop :=
  ∀ (s : State) (v : Word), s.pfc.engine ≠ none → v.getLsbD 0 = true →
    regWrite s 0x00C v
      = .next (s.setPfc { s.pfc with irqStatus := s.pfc.irqStatus ||| 0b100 })

/-- R275 and R276 (60_exceptions.md), R104 (30_encoding.md), R133 (40_control.md): the first check that
fails gives the code, in the order OP, FMT, UNSUP, DIM, STRIDE, RANGE, and a rejected START, which is any
write of 1 to CTRL.START of an idle engine, changes only STATUS.ERR and IRQ_STATUS.ERR. What the last three checks test is R145, R146 and R70, stated apart. -/
def Obligations.StartErrorsInOrder : Prop :=
  ∀ s : State, s.pfc.engine = none →
    (s.pfc.op.toNat / 2 ^ 10 ≠ 0 → rejectsWith s .op)
    ∧ (s.pfc.op.toNat / 2 ^ 10 = 0 →
        (9 ≤ s.pfc.op.toNat % 16 ∨ 9 ≤ s.pfc.op.toNat / 16 % 16) → rejectsWith s .fmt)
    ∧ (s.pfc.op.toNat / 2 ^ 10 = 0 → s.pfc.op.toNat % 16 < 9 → s.pfc.op.toNat / 16 % 16 < 9 →
        (s.pfc.op.toNat % 256 ∉ [0x10, 0x20, 0x34, 0x15, 0x25, 0x16, 0x26, 0x37, 0x17, 0x27] ∨
          (s.pfc.op.toNat / 16 % 16 = 2 ∧ s.cfg.hasSpvuDst = false)) → rejectsWith s .unsup)
    ∧ ∀ i, decodeOn s.cfg s.pfc.op = .ok i →
        (dimsOk i.src i.dst (s.pfc.latch s.cfg) = false → rejectsWith s .dim)
        ∧ (dimsOk i.src i.dst (s.pfc.latch s.cfg) = true →
            stridesOk i.src i.dst (s.pfc.latch s.cfg) = false → rejectsWith s .stride)
        ∧ (dimsOk i.src i.dst (s.pfc.latch s.cfg) = true →
            stridesOk i.src i.dst (s.pfc.latch s.cfg) = true →
            rangeOk s.cfg.addrW i.src i.dst (s.pfc.latch s.cfg) = false → rejectsWith s .range)

/-- R145 (40_control.md), "For the ten commands": the 4:2:0 destinations need W and H even, the planar
4:4:4 ones any W, H ≥ 1. -/
def Obligations.DimensionCheck : Prop :=
  ∀ (i : Instr) (lc : Latched),
    dimsOk i.src i.dst lc = true ↔
      1 ≤ lc.w ∧ 1 ≤ lc.h ∧ (i.dst ≠ .p444 → lc.w % 2 = 0 ∧ lc.h % 2 = 0)

/-- R93 (30_encoding.md), the planes of each format; and R146 (40_control.md), the stride bounds each
command's own rule lists (R181, R191, R201, R222, R224). -/
def Obligations.StrideCheck : Prop :=
  (∀ w h : Nat,
    formatPlanes .p420 w h = [⟨.p0, h, w⟩, ⟨.p1, h / 2, w / 2⟩, ⟨.p2, h / 2, w / 2⟩]
    ∧ formatPlanes .spuv w h = [⟨.p0, h, w⟩, ⟨.p1, h / 2, w⟩]
    ∧ formatPlanes .spvu w h = [⟨.p0, h, w⟩, ⟨.p1, h / 2, w⟩]
    ∧ formatPlanes .p444 w h = [⟨.p0, h, w⟩, ⟨.p1, h, w⟩, ⟨.p2, h, w⟩]
    ∧ formatPlanes .pk444 w h = [⟨.p0, h, 4 * w⟩]
    ∧ formatPlanes .pk422c w h = [⟨.p0, h, 2 * w⟩] ∧ formatPlanes .pk422l w h = [⟨.p0, h, 2 * w⟩]
    ∧ formatPlanes .rgbf w h = [⟨.p0, h, 16 * w⟩] ∧ formatPlanes .tile16 w h = [])
  ∧ ∀ (i : Instr) (lc : Latched),
    stridesOk i.src i.dst lc = true ↔
      (i.src = .p420 → lc.w ≤ lc.src.p0.s ∧ lc.w / 2 ≤ lc.src.p1.s ∧ lc.w / 2 ≤ lc.src.p2.s)
      ∧ (i.src = .pk444 → 4 * lc.w ≤ lc.src.p0.s)
      ∧ (i.src = .pk422c ∨ i.src = .pk422l → 2 * lc.w ≤ lc.src.p0.s)
      ∧ (i.src = .rgbf → 16 * lc.w ≤ lc.src.p0.s)
      ∧ lc.w ≤ lc.dst.p0.s ∧ lc.w ≤ lc.dst.p1.s ∧ (i.dst = .p444 → lc.w ≤ lc.dst.p2.s)

/-- R70 (20_memory.md): the bound, computed with lane width 32 for every used plane, and that no byte of
any footprint, whatever the tier, lies at or past 2^ADDR_W. -/
def Obligations.AcceptedFootprintsExist : Prop :=
  ∀ (addrW : Nat) (src dst : Format) (lc : Latched),
    (rangeOk addrW src dst lc = true ↔
      (∀ g ∈ lc.srcPlanes src,
        (lc.src.get g.ix).a + (g.rows - 1) * (lc.src.get g.ix).s + (g.used + 31) / 32 * 32
          ≤ 2 ^ addrW)
      ∧ ∀ g ∈ lc.dstPlanes dst,
        (lc.dst.get g.ix).a + (g.rows - 1) * (lc.dst.get g.ix).s + (g.used + 31) / 32 * 32
          ≤ 2 ^ addrW)
    ∧ (rangeOk addrW src dst lc = true → ∀ (t : Tier) (a : Nat),
        anyHas ((lc.srcFootprints src t).flatten ++ (lc.dstFootprints dst t).flatten) a = true →
        a < 2 ^ addrW)

/-- R91 (30_encoding.md): what START latches, assembled without sign extension, scaling or shift. -/
def Obligations.LatchedOperands : Prop :=
  ∀ (cfg : Params) (p : Pfc), cfg.legal = true →
    (p.latch cfg).op = p.op ∧ (p.latch cfg).w = p.width.toNat ∧ (p.latch cfg).h = p.height.toNat
    ∧ (p.latch cfg).allow = p.tierAllow
    ∧ ∀ n : Ix,
      ((p.latch cfg).src.get n).a
          = ((p.src.get n).addrHi.toNat * 2 ^ 32 + (p.src.get n).addrLo.toNat) % 2 ^ cfg.addrW
      ∧ ((p.latch cfg).dst.get n).a
          = ((p.dst.get n).addrHi.toNat * 2 ^ 32 + (p.dst.get n).addrLo.toNat) % 2 ^ cfg.addrW
      ∧ ((p.latch cfg).src.get n).s = (p.src.get n).stride.toNat
      ∧ ((p.latch cfg).dst.get n).s = (p.dst.get n).stride.toNat

/-- R133 (40_control.md), R38 (10_state.md), R77 (20_memory.md): an accepted START latches the command
and the source image, sets TIER by SelectTier, clears ERR and sets BUSY, and changes nothing else. -/
def Obligations.StartAcceptsCommand : Prop :=
  ∀ (s : State) (i : Instr), decodeOn s.cfg s.pfc.op = .ok i → s.mayStart i →
    ∃ t, startWrite s = .next t ∧ exec i s = .next t
      ∧ (∀ v : Word, v.getLsbD 0 = true → regWrite s 0x00C v = .next t)
      ∧ t = s.setPfc { s.pfc with
          engine := some ⟨s.pfc.latch s.cfg, s.mem⟩
          tier := selectTier s.cfg i.src i.dst (s.pfc.latch s.cfg)
          err := .none }
      ∧ t.pfc.busy = true

/-- R69 and R79 (20_memory.md), R268 (60_exceptions.md): where the accepted command's effect is undefined
the model faults by name; and where a footprint reaches into a register block, which is not ordinary
memory (93_implementation_defined.md I23), it faults too (log 10). Which fault is named where one START
breaks several duties is the model's choice (log 26). -/
def Obligations.UndefinedStartsFault : Prop :=
  ∀ (s : State) (i : Instr), s.pfc.engine = none → decodeOn s.cfg s.pfc.op = .ok i →
    startError s.cfg i.src i.dst (s.pfc.latch s.cfg) = none →
    ∀ tr, tr = selectTier s.cfg i.src i.dst (s.pfc.latch s.cfg) →
    (∀ v : Word, v.getLsbD 0 = true → regWrite s 0x00C v = startWrite s)
    ∧ ((s.pfc.latch s.cfg).overlapping i.src i.dst tr = true → startWrite s = .fault .overlap)
    ∧ ((s.pfc.latch s.cfg).overlapping i.src i.dst tr = false →
        (∀ q ∈ s.pfcs, anyOverlap (((s.pfc.latch s.cfg).srcFootprints i.src tr).flatten
          ++ ((s.pfc.latch s.cfg).dstFootprints i.dst tr).flatten) [q.block] = false) →
        (∃ q ∈ s.others, racing (s.pfc.accept (s.pfc.latch s.cfg) tr s.mem) q = true) →
        startWrite s = .fault .race)
    ∧ ((s.pfc.latch s.cfg).overlapping i.src i.dst tr = false →
        (∃ q ∈ s.pfcs, anyOverlap (((s.pfc.latch s.cfg).srcFootprints i.src tr).flatten
          ++ ((s.pfc.latch s.cfg).dstFootprints i.dst tr).flatten) [q.block] = true) →
        startWrite s = .fault .notOrdinaryMemory)

/-- R69 (20_memory.md): a command overlaps exactly when some byte lies in a destination footprint and in
a source footprint, or in the footprints of two of its destination planes. -/
def Obligations.OverlapIsSharedByte : Prop :=
  ∀ (lc : Latched) (src dst : Format) (t : Tier),
    lc.overlapping src dst t = true ↔
      ∃ a, (anyHas (lc.dstFootprints dst t).flatten a = true
          ∧ anyHas (lc.srcFootprints src t).flatten a = true)
        ∨ ∃ j k, j < k ∧ anyHas ((lc.dstFootprints dst t).getD j []) a = true
            ∧ anyHas ((lc.dstFootprints dst t).getD k []) a = true

/-- R136 (40_control.md), R38 (10_state.md): a running command, with its latched operands, runs on until
its own end or its reset; nothing else stops or changes it. -/
def Obligations.OnlyEndOrResetStopsCommand : Prop :=
  ∀ (s t : State) (k : Nat) (p q : Pfc) (run : Running), step s = .next t →
    s.pfcs[k]? = some p → p.engine = some run → p.inReset = false → t.pfcs[k]? = some q →
    q.engine = some run ∨
      (q.engine = none ∧ turnTaken s ∈ [Turn.engine k, Turn.together k, Turn.resetOn k])

/-! ## Tier selection and footprints -/

/-- R247 (47_dispatch.md). -/
def Obligations.SelectTierProperties : Prop :=
  ∀ (cfg : Params) (i : Instr) (lc : Latched),
    (lc.w % 16 = 0 → lc.w % 32 ≠ 0 → selectTier cfg i.src i.dst lc ≠ .v256)
    ∧ ((∃ g ∈ lc.dstPlanes i.dst, (lc.dst.get g.ix).a % 16 ≠ 0) →
        selectTier cfg i.src i.dst lc = .scalar)
    ∧ ((∃ g ∈ lc.srcPlanes i.src,
          ((lc.src.get g.ix).a % 16 = 0 ∧ (lc.src.get g.ix).a % 32 ≠ 0) ∨
          ((lc.src.get g.ix).s % 16 = 0 ∧ (lc.src.get g.ix).s % 32 ≠ 0)) ∨
        (∃ g ∈ lc.dstPlanes i.dst,
          ((lc.dst.get g.ix).a % 16 = 0 ∧ (lc.dst.get g.ix).a % 32 ≠ 0) ∨
          ((lc.dst.get g.ix).s % 16 = 0 ∧ (lc.dst.get g.ix).s % 32 ≠ 0)) →
        selectTier cfg i.src i.dst lc = .scalar ∨ selectTier cfg i.src i.dst lc = .v128)
    ∧ ((cfg.hasV256 = false ∨ allowV256 lc.allow = false) →
        selectTier cfg i.src i.dst lc ≠ .v256)
    ∧ ((cfg.hasV128 = false ∨ allowV128 lc.allow = false) →
        selectTier cfg i.src i.dst lc ≠ .v128)

/-- R240, R242 and R245 (47_dispatch.md): each vector tier is tried by its own CAPS and allow bits, V256
first, and is selected when the checklist does not disqualify it; and what the checklist tests. -/
def Obligations.AllowBitsAreIndependent : Prop :=
  (∀ (cfg : Params) (src dst : Format) (lc : Latched),
    (selectTier cfg src dst lc = .v256 ↔ cfg.hasV256 = true ∧ lc.allow.getLsbD 1 = true
        ∧ disqualified src dst lc 32 32 = false)
    ∧ (selectTier cfg src dst lc = .v128 ↔ selectTier cfg src dst lc ≠ .v256
        ∧ cfg.hasV128 = true ∧ lc.allow.getLsbD 0 = true ∧ disqualified src dst lc 16 16 = false)
    ∧ (cfg.hasV256 = true → cfg.hasV128 = true → lc.allow = 0b11 →
      (disqualified src dst lc 32 32 = false → selectTier cfg src dst lc = .v256)
      ∧ (disqualified src dst lc 32 32 = true → disqualified src dst lc 16 16 = false →
          selectTier cfg src dst lc = .v128)
      ∧ (disqualified src dst lc 32 32 = true → disqualified src dst lc 16 16 = true →
          selectTier cfg src dst lc = .scalar))
    ∧ (cfg.hasV256 = true → lc.allow = 0b10 →
      (disqualified src dst lc 32 32 = false → selectTier cfg src dst lc = .v256)
      ∧ (disqualified src dst lc 32 32 = true → selectTier cfg src dst lc = .scalar))
    ∧ (cfg.hasV128 = true → lc.allow = 0b01 →
      (disqualified src dst lc 16 16 = false → selectTier cfg src dst lc = .v128)
      ∧ (disqualified src dst lc 16 16 = true → selectTier cfg src dst lc = .scalar))
    ∧ (lc.allow = 0b00 → selectTier cfg src dst lc = .scalar)
    ∧ (selectTier cfg src dst lc = .v256 → cfg.hasV256 = true ∧ allowV256 lc.allow = true)
    ∧ (selectTier cfg src dst lc = .v128 → cfg.hasV128 = true ∧ allowV128 lc.allow = true))
  ∧ ∀ (i : Instr) (lc : Latched) (g lanes : Nat),
    disqualified i.src i.dst lc g lanes = true ↔
      (∃ p ∈ lc.srcPlanes i.src, (lc.src.get p.ix).a % g ≠ 0 ∨ (lc.src.get p.ix).s % g ≠ 0)
      ∨ (∃ p ∈ lc.dstPlanes i.dst, (lc.dst.get p.ix).a % g ≠ 0 ∨ (lc.dst.get p.ix).s % g ≠ 0)
      ∨ lc.w % lanes ≠ 0
      ∨ (i.src ≠ .p420 ∧ i.dst ≠ .p444 ∧ lc.h % 2 ≠ 0)

/-- R67 (20_memory.md): of an accepted command no overshoot window reaches the next row or past the
plane's allocation, every destination window is empty, and a P420 source chroma window is empty or 8
bytes (V128) or 16 bytes (V256). -/
def Obligations.OvershootStaysInsideRows : Prop :=
  ∀ (cfg : Params) (i : Instr) (lc : Latched) (t : Tier), acceptable cfg i.src i.dst lc t →
    (∀ g ∈ lc.srcPlanes i.src, roundup g.used (laneWidth t) ≤ (lc.src.get g.ix).s)
    ∧ (∀ g ∈ lc.dstPlanes i.dst, roundup g.used (laneWidth t) = g.used
        ∧ g.used ≤ (lc.dst.get g.ix).s)
    ∧ lc.dstWindows i.dst t = []
    ∧ (∀ g ∈ lc.srcPlanes i.src, ∀ r < g.rows,
        lc.srcAddr g.ix r (roundup g.used (laneWidth t))
          ≤ (lc.src.get g.ix).a + g.rows * (lc.src.get g.ix).s)
    ∧ (∀ g ∈ lc.dstPlanes i.dst, ∀ r < g.rows,
        lc.dstAddr g.ix r (roundup g.used (laneWidth t))
          ≤ (lc.dst.get g.ix).a + g.rows * (lc.dst.get g.ix).s)
    ∧ (∀ g ∈ lc.srcPlanes i.src, roundup g.used (laneWidth t) ≠ g.used →
        i.src = .p420 ∧ g.ix ≠ .p0 ∧
          ((t = .v128 ∧ roundup g.used 16 = g.used + 8 ∧ lc.w % 32 = 16) ∨
            (t = .v256 ∧ roundup g.used 32 = g.used + 16 ∧ lc.w % 64 = 32)))

/-- R248 (47_dispatch.md), R162 (42_kernel_common.md): the same command on the same source samples,
on whatever tiers, bases and strides the two runs have, completes with the same destination samples and
changes no other byte. It says too that a kernel reads used source bytes only (R160). -/
def Obligations.TiersGiveIdenticalOutput : Prop :=
  ∀ (i : Instr) (s₁ s₂ : State) (run₁ run₂ : Running), s₁.cfg = s₂.cfg →
    s₁.runs i run₁ → s₂.runs i run₂ →
    run₁.lc.width = run₂.lc.width → run₁.lc.height = run₂.lc.height →
    (∀ g ∈ run₁.lc.srcPlanes i.src, ∀ r < g.rows, ∀ k < g.used,
      Cells.read run₁.image (run₁.lc.srcAddr g.ix r k)
        = Cells.read run₂.image (run₂.lc.srcAddr g.ix r k)) →
    ∃ t₁ t₂, exec i s₁ = .next t₁ ∧ exec i s₂ = .next t₂
      ∧ completes i run₁ s₁ t₁ ∧ completes i run₂ s₂ t₂
      ∧ ∀ g ∈ run₁.lc.dstPlanes i.dst, ∀ r < g.rows, ∀ k < g.used,
        Cells.read t₁.mem (run₁.lc.dstAddr g.ix r k)
          = Cells.read t₂.mem (run₂.lc.dstAddr g.ix r k)

/-! ## The commands: what each run to the end leaves -/

/-- R180 (43_interleave_420.md): CVT_P420_SPUV and CVT_P420_SPVU. -/
def Obligations.Interleave420Completes : Prop :=
  ∀ (i : Instr) (vu : Bool),
    (i = .cvtP420Spuv ∧ vu = false) ∨ (i = .cvtP420Spvu ∧ vu = true) →
    ∀ (s : State) (run : Running), s.runs i run →
    ∃ t, exec i s = .next t ∧ completes i run s t
      ∧ (∀ y < run.lc.h, ∀ x < run.lc.w,
          Cells.read t.mem (run.lc.dstAddr .p0 y x)
            = Cells.read run.image (run.lc.srcAddr .p0 y x))
      ∧ (∀ j < run.lc.h / 2, ∀ k < run.lc.w / 2,
          chromaPair run t vu j k (Cells.read run.image (run.lc.srcAddr .p1 j k))
            (Cells.read run.image (run.lc.srcAddr .p2 j k)))

/-- R190 (44_deinterleave_444.md): CVT_PK444_P444, with the vertical flip of R165. -/
def Obligations.Deinterleave444Completes : Prop :=
  ∀ (s : State) (run : Running), s.runs .cvtPk444P444 run →
    ∃ t, exec .cvtPk444P444 s = .next t ∧ completes .cvtPk444P444 run s t
      ∧ ∀ y < run.lc.h, ∀ x < run.lc.w,
          Cells.read t.mem (run.lc.dstAddr .p0 (run.lc.h - 1 - y) x)
            = Cells.read run.image (run.lc.srcAddr .p0 y (4 * x) + s.cfg.pk444.y.val)
          ∧ Cells.read t.mem (run.lc.dstAddr .p1 (run.lc.h - 1 - y) x)
            = Cells.read run.image (run.lc.srcAddr .p0 y (4 * x) + s.cfg.pk444.u.val)
          ∧ Cells.read t.mem (run.lc.dstAddr .p2 (run.lc.h - 1 - y) x)
            = Cells.read run.image (run.lc.srcAddr .p0 y (4 * x) + s.cfg.pk444.v.val)

/-- R200 (45_packed422_to_420.md), with the byte positions of R97 and the average of R163: the four
CVT_PK422*_SP*. -/
def Obligations.Packed422Completes : Prop :=
  ∀ (i : Instr) (first vu : Bool),
    (i = .cvtPk422cSpuv ∧ first = true ∧ vu = false) ∨
      (i = .cvtPk422cSpvu ∧ first = true ∧ vu = true) ∨
      (i = .cvtPk422lSpuv ∧ first = false ∧ vu = false) ∨
      (i = .cvtPk422lSpvu ∧ first = false ∧ vu = true) →
    ∀ (oU oY0 oV oY1 : Nat),
    (oU, oY0, oV, oY1) = (if first then (0, 1, 2, 3) else (1, 0, 3, 2)) →
    ∀ (s : State) (run : Running), s.runs i run →
    ∃ t, exec i s = .next t ∧ completes i run s t
      ∧ (∀ y < run.lc.h, ∀ k < run.lc.w / 2,
          Cells.read t.mem (run.lc.dstAddr .p0 y (2 * k))
            = Cells.read run.image (run.lc.srcAddr .p0 y (4 * k) + oY0)
          ∧ Cells.read t.mem (run.lc.dstAddr .p0 y (2 * k + 1))
            = Cells.read run.image (run.lc.srcAddr .p0 y (4 * k) + oY1))
      ∧ (∀ j < run.lc.h / 2, ∀ k < run.lc.w / 2,
          chromaPair run t vu j k
            (avg2 (Cells.read run.image (run.lc.srcAddr .p0 (2 * j) (4 * k) + oU))
              (Cells.read run.image (run.lc.srcAddr .p0 (2 * j + 1) (4 * k) + oU)))
            (avg2 (Cells.read run.image (run.lc.srcAddr .p0 (2 * j) (4 * k) + oV))
              (Cells.read run.image (run.lc.srcAddr .p0 (2 * j + 1) (4 * k) + oV))))

/-- R222 (46_rgb_to_yuv.md): CVT_RGBF_P444 under every selector. -/
def Obligations.RgbfPlanarCompletes : Prop :=
  ∀ (sel : Sel) (s : State) (run : Running), s.runs (.cvtRgbfP444 sel) run →
    ∃ t, exec (.cvtRgbfP444 sel) s = .next t ∧ completes (.cvtRgbfP444 sel) run s t
      ∧ ∀ y < run.lc.h, ∀ x < run.lc.w,
          Cells.read t.mem (run.lc.dstAddr .p0 (run.lc.h - 1 - y) x)
            = sample s.cfg (pix run.lc run.image x y) sel .y
          ∧ Cells.read t.mem (run.lc.dstAddr .p1 (run.lc.h - 1 - y) x)
            = sample s.cfg (pix run.lc run.image x y) sel .u
          ∧ Cells.read t.mem (run.lc.dstAddr .p2 (run.lc.h - 1 - y) x)
            = sample s.cfg (pix run.lc run.image x y) sel .v

/-- R224 and R223 (46_rgb_to_yuv.md): CVT_RGBF_SPUV and CVT_RGBF_SPVU under every selector. -/
def Obligations.RgbfTo420Completes : Prop :=
  ∀ (sel : Sel) (i : Instr) (vu : Bool),
    (i = .cvtRgbfSpuv sel ∧ vu = false) ∨ (i = .cvtRgbfSpvu sel ∧ vu = true) →
    ∀ (s : State) (run : Running), s.runs i run →
    ∃ t, exec i s = .next t ∧ completes i run s t
      ∧ (∀ y < run.lc.h, ∀ x < run.lc.w,
          Cells.read t.mem (run.lc.dstAddr .p0 (run.lc.h - 1 - y) x)
            = sample s.cfg (pix run.lc run.image x y) sel .y)
      ∧ (∀ j < run.lc.h / 2, ∀ k < run.lc.w / 2, ∀ ya yb,
          ya = run.lc.h - 1 - 2 * j → yb = run.lc.h - 2 - 2 * j →
          chromaPair run t vu j k
            (avg4 (sample s.cfg (pix run.lc run.image (2 * k) ya) sel .u)
              (sample s.cfg (pix run.lc run.image (2 * k + 1) ya) sel .u)
              (sample s.cfg (pix run.lc run.image (2 * k) yb) sel .u)
              (sample s.cfg (pix run.lc run.image (2 * k + 1) yb) sel .u))
            (avg4 (sample s.cfg (pix run.lc run.image (2 * k) ya) sel .v)
              (sample s.cfg (pix run.lc run.image (2 * k + 1) ya) sel .v)
              (sample s.cfg (pix run.lc run.image (2 * k) yb) sel .v)
              (sample s.cfg (pix run.lc run.image (2 * k + 1) yb) sel .v)))

/-- R161 (42_kernel_common.md): whatever the state of a busy engine, a command that ends leaves every
byte outside its destination footprint, and of the platform only BUSY, DONE and the draw counter
change; and the host has its destination bytes, and no new others, yet to see (70_reset_and_hazards.md R296;
log 28). -/
def Obligations.CommandWritesOnlyItsFootprint : Prop :=
  ∀ (i : Instr) (s t : State) (run : Running), s.pfc.engine = some run → exec i s = .next t →
    t = { s with
        pfc := { s.pfc with engine := none, irqStatus := s.pfc.irqStatus ||| 0b001 }
        mem := t.mem
        draws := t.draws
        unseen := t.unseen }
    ∧ ∀ a,
      (anyHas (run.lc.dstFootprints i.dst s.pfc.tier).flatten a = false →
        Cells.read t.mem a = Cells.read s.mem a)
      ∧ (t.unsees a = true ↔
          anyHas (run.lc.dstFootprints i.dst s.pfc.tier).flatten a = true ∨ s.unsees a = true)

/-- R276 (60_exceptions.md), R133 (40_control.md): the START of a command makes no memory access and
changes no register but STATUS and IRQ_STATUS.ERR, accepted or rejected. -/
def Obligations.StartTouchesOnlyStatus : Prop :=
  ∀ (i : Instr) (s t : State), s.pfc.engine = none → exec i s = .next t →
    t = s.setPfc { s.pfc with
        engine := t.pfc.engine, tier := t.pfc.tier, err := t.pfc.err, irqStatus := t.pfc.irqStatus }
    ∧ ((t.pfc.engine = none ∧ t.pfc.tier = s.pfc.tier ∧ t.pfc.err ≠ .none
          ∧ t.pfc.irqStatus = s.pfc.irqStatus ||| 0b010)
      ∨ (t.pfc.engine ≠ none ∧ t.pfc.err = .none ∧ t.pfc.irqStatus = s.pfc.irqStatus))

/-- R137 (40_control.md), R168 (42_kernel_common.md): a running command ends by completion, or by
FAULT_BUS with BUSY 0, ERR_BUS and IRQ_STATUS.ERR 1, when a footprint byte is not mapped
(20_memory.md R68). That the whole footprint is judged at the end is the model's choice (log 11). -/
def Obligations.BusErrorFaults : Prop :=
  ∀ (i : Instr) (s : State) (run : Running), s.pfc.engine = some run →
    (run.lc.mapped s.memMap i.src i.dst s.pfc.tier = true → ∃ t, exec i s = .next t)
    ∧ (run.lc.mapped s.memMap i.src i.dst s.pfc.tier = false →
        exec i s = .fault (.bus { s.pfc with
          engine := none, err := .bus, irqStatus := s.pfc.irqStatus ||| 0b010 }))
    ∧ busErrorTurn s.here s = .fault (.bus { s.pfc with
          engine := none, err := .bus, irqStatus := s.pfc.irqStatus ||| 0b010 })

/-! ## Arithmetic -/

/-- R163 (42_kernel_common.md): exact sums, ties up, always in 0..255. -/
def Obligations.AveragesRoundUp : Prop :=
  (∀ a b : Byte, (avg2 a b).toNat = (a.toNat + b.toNat + 1) / 2)
  ∧ ∀ a b c d : Byte, (avg4 a b c d).toNat = (a.toNat + b.toNat + c.toNat + d.toNat + 2) / 4

/-- R219 (46_rgb_to_yuv.md): the default F2I of a finite `(−1)^neg × m × 2^e` is the nearest integer,
ties to even, and infinities stay. -/
def Obligations.FloatToIntegerIsNearestEven : Prop :=
  (∀ (d : Word) (neg : Bool) (m : Nat) (e : Int), unpack32 d = .fin neg m e →
    ∃ n : Int, f2iDefault d = .int n
      ∧ (0 ≤ e → n = signed neg (m * 2 ^ e.toNat))
      ∧ (e < 0 → 2 * (n * 2 ^ (-e).toNat - signed neg m).natAbs ≤ 2 ^ (-e).toNat
          ∧ (2 * (n * 2 ^ (-e).toNat - signed neg m).natAbs = 2 ^ (-e).toNat → n % 2 = 0)))
  ∧ f2iDefault 0x7F800000 = .posInf ∧ f2iDefault 0xFF800000 = .negInf

/-- R215, R216, R220 (46_rgb_to_yuv.md) with the coefficient sets and zero-points of R101: the sample of
component `c` of a pixel is CM_DOT of the pixel with row `c` of CM[SEL], turned into NAN_SAMPLE or into
the rounded value with its zero-point, clamped to 0..255; an infinity gives an end of the range. The
default CM_DOT sums the products from left to right (R218). -/
def Obligations.SampleIsOffsetAndClamped : Prop :=
  ∀ (cfg : Params),
    (cfg.cmDot = .specDefault → ∀ p m : Row4, cmDot cfg p m
      = fadd (fadd (fadd (fmul p.c0 m.c0) (fmul p.c1 m.c1)) (fmul p.c2 m.c2)) (fmul p.c3 m.c3))
    ∧ (cfg.f2i = .specDefault → ∀ d : Word, f2i cfg d = f2iDefault d)
    ∧ ∀ (sel : Sel) (c : Component) (row : Row4) (z : Int),
      (sel, c, row, z) ∈
        [(.full601, .y, cfg.cm.full601.y, 0), (.full601, .u, cfg.cm.full601.u, cfg.zcFull),
         (.full601, .v, cfg.cm.full601.v, cfg.zcFull), (.full709, .y, cfg.cm.full709.y, 0),
         (.full709, .u, cfg.cm.full709.u, cfg.zcFull), (.full709, .v, cfg.cm.full709.v, cfg.zcFull),
         (.studio601, .y, cfg.cm.studio601.y, 16), (.studio601, .u, cfg.cm.studio601.u, 128),
         (.studio601, .v, cfg.cm.studio601.v, 128), (.studio709, .y, cfg.cm.studio709.y, 16),
         (.studio709, .u, cfg.cm.studio709.u, 128), (.studio709, .v, cfg.cm.studio709.v, 128)] →
      (∀ p : Row4, sample cfg p sel c = sampleOf cfg sel c (cmDot cfg p row))
      ∧ ∀ d : Word,
        (isNaN32 d = true → sampleOf cfg sel c d = cfg.nanSample)
        ∧ (isNaN32 d = false → ∀ n, f2i cfg d = .int n →
            ((sampleOf cfg sel c d).toNat : Int) = max 0 (min (n + z) 255))
        ∧ (isNaN32 d = false → f2i cfg d = .posInf → sampleOf cfg sel c d = 255)
        ∧ (isNaN32 d = false → f2i cfg d = .negInf → sampleOf cfg sel c d = 0)

/-- R226 and R218 (46_rgb_to_yuv.md), under the default CM_DOT: a NaN channel makes the dot product NaN
whatever the coefficients, and so does an infinite channel against a zero coefficient. -/
def Obligations.NaNChannelGivesNaN : Prop :=
  ∀ (cfg : Params) (p m : Row4), cfg.cmDot = .specDefault →
    ∀ x c : Word, (x, c) ∈ [(p.c0, m.c0), (p.c1, m.c1), (p.c2, m.c2), (p.c3, m.c3)] →
    (isNaN32 x = true ∨
      ((∃ neg, unpack32 x = .inf neg) ∧ ∃ neg e, unpack32 c = .fin neg 0 e)) →
    isNaN32 (cmDot cfg p m) = true

/-- R218 (46_rgb_to_yuv.md): a multiply by 1.0 is exact for every value that is no NaN, subnormals
included; the product of any finite value with a zero is a zero with the sign of the product; and adding
a zero to a nonzero finite value changes nothing. So a fourth channel that is finite, against a +0.0
coefficient, changes no dot product but perhaps the sign of a zero (R226, "Fourth channel"). -/
def Obligations.UnitAndZeroAreExact : Prop :=
  (∀ a : Word, isNaN32 a = false → fmul a 0x3F800000 = a)
  ∧ (∀ (a z : Word) (neg s : Bool) (m : Nat) (e f : Int), unpack32 a = .fin neg m e →
      unpack32 z = .fin s 0 f →
      fmul a z = (if neg = s then 0x00000000 else 0x80000000) ∧ fmul z a = fmul a z)
  ∧ (∀ (a z : Word) (neg s : Bool) (m : Nat) (e f : Int), unpack32 a = .fin neg m e → m ≠ 0 →
      unpack32 z = .fin s 0 f → fadd a z = a)
  ∧ ∀ (p m : Row4) (neg : Bool) (k : Nat) (e : Int) (a : Word), m.c3 = 0x00000000 →
      unpack32 p.c3 = .fin neg k e →
      a = fadd (fadd (fmul p.c0 m.c0) (fmul p.c1 m.c1)) (fmul p.c2 m.c2) →
      isNaN32 (cmDotDefault p m) = isNaN32 a
      ∧ (isNaN32 a = false → f2iDefault (cmDotDefault p m) = f2iDefault a
          ∧ ((∀ s f, unpack32 a ≠ .fin s 0 f) → cmDotDefault p m = a))

/-! ## Memory and the host -/

/-- R78 (20_memory.md): a host store to any byte of a footprint of a running command is FAULT_RACE,
whatever the memory map says of the byte, and any other store to memory the platform maps is seen by
later reads and leaves every other byte. The memory map is the model's (log 5); so is that the race is
named where another byte of a MEM.W32 breaks another duty (log 30). -/
def Obligations.HostStoreOutsideFootprints : Prop :=
  (∀ (s : State) (a : Nat) (b : Byte), hostIsAt s (.memW8 a b) →
    ((∃ p ∈ s.pfcs, anyHas p.srcRanges a = true ∨ anyHas p.dstRanges a = true) →
      hostTurn s = .fault .race)
    ∧ ((∀ p ∈ s.pfcs, anyHas p.srcRanges a = false ∧ anyHas p.dstRanges a = false) →
      a < 2 ^ s.cfg.addrW → s.inBlock a = false → writableAt s.memMap a = true →
      ∃ t, hostTurn s = .next t ∧ Cells.read t.mem a = b
        ∧ (∀ a', a' ≠ a → Cells.read t.mem a' = Cells.read s.mem a')
        ∧ t = { s.nextStmt with mem := t.mem }))
  ∧ ∀ (s : State) (a : Nat) (v : Word), hostIsAt s (.memW32 a v) →
    (∃ k < 4, ∃ p ∈ s.pfcs,
      anyHas p.srcRanges (a + k) = true ∨ anyHas p.dstRanges (a + k) = true) →
    hostTurn s = .fault .race

/-- R78 (20_memory.md), R296 (70_reset_and_hazards.md): a host load of any destination byte of a running
command, or of one whose completion the host has not seen, is a free draw (log 12), whatever the memory map
says of the byte; of any other mapped byte, a running command's source bytes included, the memory value.
When the host has seen a completion is stated apart, in `CompletionIsSeenByReading` (log 28). -/
def Obligations.HostLoadOfDestination : Prop :=
  ∀ (s : State) (a name : Nat), hostIsAt s (.memR8 a name) →
    ((∃ p ∈ s.pfcs, anyHas p.dstRanges a = true) ∨ s.unsees a = true ∨
      (a < 2 ^ s.cfg.addrW ∧ s.inBlock a = false ∧ readableAt s.memMap a = true)) →
    ∃ t, hostTurn s = .next t ∧ t.pfcs = s.pfcs ∧ t.mem = s.mem ∧ t.host.pc = s.host.pc + 1
      ∧ t.unseen = s.unseen
      ∧ (∀ m, m ≠ name → Cells.read t.host.vars m = Cells.read s.host.vars m)
      ∧ ((∃ p ∈ s.pfcs, anyHas p.dstRanges a = true) ∨ s.unsees a = true →
          (Cells.read t.host.vars name).toNat = (Config.drawByte s.draws).toNat
            ∧ t.draws = s.draws + 1)
      ∧ ((∀ p ∈ s.pfcs, anyHas p.dstRanges a = false) → s.unsees a = false →
          (Cells.read t.host.vars name).toNat = (Cells.read s.mem a).toNat ∧ t.draws = s.draws)

/-- R296 (70_reset_and_hazards.md), R76 (20_memory.md): after a command completes, a host that loads one of
its destination bytes at once gets a draw, and one that first reads STATUS (it shows BUSY = 0) or IRQ_STATUS
(it shows DONE = 1) gets the value in memory. Such a read shows the end of the commands of the PFC it reads,
and of no other; and no step but such a read makes an unseen byte seen. Which reads count, where the two
rules differ, is the model's reading (log 28). -/
def Obligations.CompletionIsSeenByReading : Prop :=
  (∀ (s : State) (i : Instr) (run : Running) (a m : Nat), s.runs i run →
    anyHas (run.lc.dstFootprints i.dst s.pfc.tier).flatten a = true →
    (hostIsAt s (.memR8 a m) → ∃ t u, exec i s = .next t ∧ hostTurn t = .next u
      ∧ (Cells.read u.host.vars m).toNat = (Config.drawByte t.draws).toNat)
    ∧ ∀ off name : Nat, off = 0x010 ∨ off = 0x014 → s.pfc.inReset = false →
      hostIsAt s (.rd32 s.pfc.regBase off name) → s.host.prog[s.host.pc + 1]? = some (.memR8 a m) →
      (∀ p ∈ s.others, anyHas p.dstRanges a = false) →
      a < 2 ^ s.cfg.addrW → s.inBlock a = false → readableAt s.memMap a = true →
      ∃ t u v, exec i s = .next t ∧ hostTurn t = .next u ∧ hostTurn u = .next v
        ∧ (Cells.read v.host.vars m).toNat = (Cells.read t.mem a).toNat)
  ∧ (∀ (s u : State) (n off name : Nat), hostIsAt s (.rd32 n off name) → s.select n = some u →
    u.pfc.inReset = false →
    (off = 0x010 ∧ u.pfc.engine = none) ∨ (off = 0x014 ∧ u.pfc.irqStatus.getLsbD 0 = true) →
    ∃ t, hostTurn s = .next t ∧ ∀ c, c ∈ t.unseen ↔ c ∈ s.unseen ∧ c.regBase ≠ n)
  ∧ ∀ (s t : State) (a : Nat), step s = .next t → s.unsees a = true → t.unsees a = false →
    (turnTaken s = .host ∨ ∃ n, turnTaken s = .together n)
    ∧ ∃ p ∈ s.pfcs, ∃ name,
      (hostIsAt s (.rd32 p.regBase 0x010 name) ∧ p.engine = none)
      ∨ (hostIsAt s (.rd32 p.regBase 0x014 name) ∧ p.irqStatus.getLsbD 0 = true)

/-- R60 (20_memory.md) and R99 (30_encoding.md): a word in memory has its low byte at the lowest address, a
pixel is the four words from `A_0 + y × S_0 + 16x` on, and a MEM.W32 stores its four bytes so and no
other byte. The memory map is the model's (log 5). -/
def Obligations.WordsAreLittleEndian : Prop :=
  (∀ (m : Memory) (a : Nat),
    (readF32 m a).toNat = (Cells.read m a).toNat + 2 ^ 8 * (Cells.read m (a + 1)).toNat
      + 2 ^ 16 * (Cells.read m (a + 2)).toNat + 2 ^ 24 * (Cells.read m (a + 3)).toNat)
  ∧ (∀ (lc : Latched) (m : Memory) (x y f : Nat),
    f = lc.src.p0.base.toNat + y * lc.src.p0.stride.toNat + 16 * x →
      pix lc m x y = ⟨readF32 m f, readF32 m (f + 4), readF32 m (f + 8), readF32 m (f + 12)⟩)
  ∧ (∀ (s : State) (a : Nat) (v : Word), hostIsAt s (.memW32 a v) →
    (∀ k < 4, a + k < 2 ^ s.cfg.addrW ∧ s.inBlock (a + k) = false
      ∧ writableAt s.memMap (a + k) = true) →
    (∀ k < 4, ∀ p ∈ s.pfcs,
      anyHas p.srcRanges (a + k) = false ∧ anyHas p.dstRanges (a + k) = false) →
    ∃ t, hostTurn s = .next t ∧ readF32 t.mem a = v
      ∧ (∀ a', a' < a ∨ a + 4 ≤ a' → Cells.read t.mem a' = Cells.read s.mem a')
      ∧ t = { s.nextStmt with mem := t.mem })

/-- R106 (30_encoding.md): WAIT_IRQ goes on exactly when the interrupt output is 1, a label goes on, BNZ
goes to its label while the masked name is not 0, and a program that is over stays. Which of two equal
labels is meant, and that a label after the BNZ is jumped to as well, are the model's choices (log 8). -/
def Obligations.HostControlFlow : Prop :=
  (∀ (s u : State) (n : Nat), hostIsAt s (.waitIrq n) → s.select n = some u →
    (u.pfc.irq = true → hostTurn s = .next u.nextStmt)
      ∧ (u.pfc.irq = false → hostTurn s = .next u))
  ∧ (∀ (s : State) (l : Nat), hostIsAt s (.label l) → hostTurn s = .next s.nextStmt)
  ∧ (∀ (s : State) (name l : Nat) (mask : Word), hostIsAt s (.bnz name mask l) →
    (Cells.read s.host.vars name &&& mask = 0 → hostTurn s = .next s.nextStmt)
      ∧ (Cells.read s.host.vars name &&& mask ≠ 0 → ∀ k, s.host.prog[k]? = some (.label l) →
        (∀ j < k, s.host.prog[j]? ≠ some (.label l)) →
        hostTurn s = .next { s with host := { s.host with pc := k } }))
  ∧ (∀ s : State, s.host.prog.length ≤ s.host.pc → hostTurn s = .next s)

/-- R297 (70_reset_and_hazards.md), an inference of the spec's: a host that cleared DONE and OVR sees the
success condition after its command completes, and does not see it after a START was rejected, ignored
or only just accepted. -/
def Obligations.SuccessIsTold : Prop :=
  (∀ (s : State) (i : Instr) (run : Running), s.runs i run → s.pfc.err = .none →
    s.pfc.irqStatus.getLsbD 2 = false → ∃ t, exec i s = .next t ∧ t.pfc.succeeded = true)
  ∧ (∀ s t : State, s.pfc.engine = none → s.pfc.irqStatus.getLsbD 0 = false →
    startWrite s = .next t → t.pfc.succeeded = false)
  ∧ (∀ s t : State, s.pfc.engine ≠ none → startWrite s = .next t → t.pfc.succeeded = false)

/-- R270 (60_exceptions.md): the interrupt output, and R271: a masked source still sets its bit. -/
def Obligations.InterruptLine : Prop :=
  (∀ p : Pfc, p.irq = true ↔ ∃ k < 3, p.irqStatus.getLsbD k = true ∧ p.irqEnable.getLsbD k = true)
  ∧ ∀ (p : Pfc) (e : ErrCode), p.complete.irqStatus.getLsbD 0 = true
      ∧ (p.reject e).irqStatus.getLsbD 1 = true ∧ p.overrun.irqStatus.getLsbD 2 = true

/-- R28 (10_state.md): an IRQ_STATUS bit, once set, is cleared only by a host write of 1 to it or by a
reset of its PFC. -/
def Obligations.InterruptBitsAreSticky : Prop :=
  ∀ (s t : State) (k b : Nat) (p q : Pfc), step s = .next t → s.pfcs[k]? = some p →
    t.pfcs[k]? = some q → p.irqStatus.getLsbD b = true → q.irqStatus.getLsbD b = false →
    (((turnTaken s = .host ∨ ∃ n, turnTaken s = .together n) ∧
        ∃ v, hostIsAt s (.wr32 p.regBase 0x014 v) ∧ v.getLsbD b = true)
      ∨ turnTaken s = .resetOn k ∨ turnTaken s = .resetOff k)

/-- R277 (60_exceptions.md): a START in the cycle of a command's end is judged against the state before
the end, so it is OVR, and both IRQ_STATUS bits are set. -/
def Obligations.StartInTheCycleOfTheEnd : Prop :=
  ∀ (s : State) (i : Instr) (run : Running) (v : Word), s.runs i run →
    decodeOp run.lc.op = .ok i → s.pfc.inReset = false → v.getLsbD 0 = true →
    hostIsAt s (.wr32 s.pfc.regBase 0x00C v) →
    ∃ t, takeTurn (.together s.here) s = .next t
      ∧ t.pfc = { s.pfc with engine := none, irqStatus := s.pfc.irqStatus ||| 0b101 }

/-! ## Encoding -/

/-- R104, R105 (30_encoding.md) with R103's values written out: a few words and the commands they
stand for, and a word of each class of rejection. -/
def Obligations.WrittenWordsDecode : Prop :=
  decodeBytes [0x10, 0x00, 0x00, 0x00] = .ok (.cvtP420Spuv, [])
  ∧ decodeBytes [0x34, 0x03, 0x00, 0x00] = .ok (.cvtPk444P444, [])
  ∧ decodeBytes [0x26, 0x00, 0x00, 0x00] = .ok (.cvtPk422lSpvu, [])
  ∧ decodeBytes [0x37, 0x02, 0x00, 0x00] = .ok (.cvtRgbfP444 .studio601, [])
  ∧ decodeBytes [0x17, 0x03, 0x00, 0x00] = .ok (.cvtRgbfSpuv .studio709, [])
  ∧ decodeBytes [0x10, 0x04, 0x00, 0x00] = .error .op
  ∧ decodeBytes [0x19, 0x00, 0x00, 0x00] = .error .fmt
  ∧ decodeBytes [0x12, 0x00, 0x00, 0x00] = .error .unsup

/-- R103 (30_encoding.md): "Every row's match is OP & 0xFFFFFCFF == OP value". Decoding the bytes of a
command gives it back with the rest untouched; a word is some command's exactly when it matches a row;
a word that decodes is the encoding of what it decodes to, up to the ignored OP[9:8] of the commands
without a selector (R105); and each command's word is the value its row gives. -/
def Obligations.DecodeAndEncodeAgree : Prop :=
  (∀ (i : Instr) (rest : List Byte), decodeBytes (encode i ++ rest) = .ok (i, rest))
  ∧ (∀ (cfg : Params) (i : Instr), i.wellFormed cfg = true →
      decodeOn cfg (encodeOp i) = .ok i)
  ∧ (∀ w : Word, (∃ i, decodeOp w = .ok i) ↔
      w &&& 0xFFFFFCFF ∈ ([0x10, 0x20, 0x34, 0x15, 0x25, 0x16, 0x26, 0x37, 0x17, 0x27] : List Word))
  ∧ (∀ (w : Word) (i : Instr), decodeOp w = .ok i →
      encodeOp i = if i.src = .rgbf then w else w &&& 0xFFFFFCFF)
  ∧ encodeOp .cvtP420Spuv = 0x10 ∧ encodeOp .cvtP420Spvu = 0x20 ∧ encodeOp .cvtPk444P444 = 0x34
  ∧ encodeOp .cvtPk422cSpuv = 0x15 ∧ encodeOp .cvtPk422cSpvu = 0x25
  ∧ encodeOp .cvtPk422lSpuv = 0x16 ∧ encodeOp .cvtPk422lSpvu = 0x26
  ∧ ∀ p ∈ [(Sel.full601, 0), (.full709, 1), (.studio601, 2), (.studio709, 3)],
      (encodeOp (.cvtRgbfP444 p.1)).toNat = 0x37 + p.2 * 0x100
      ∧ (encodeOp (.cvtRgbfSpuv p.1)).toNat = 0x17 + p.2 * 0x100
      ∧ (encodeOp (.cvtRgbfSpvu p.1)).toNat = 0x27 + p.2 * 0x100

/-- R102 (30_encoding.md): the codes of each predicate, and that a defined code satisfies exactly one and
a reserved code none; with the codes of R92. -/
def Obligations.FormatPredicatesPartition : Prop :=
  ∀ c : BitVec 4,
    ([isPlanar420 c, isInterleaved420 c, isYuv444 c, is422 c, isRgbf c, isTiled16x16 c].count true
      = if c.toNat < 9 then 1 else 0)
    ∧ (isPlanar420 c = true ↔ c.toNat = 0)
    ∧ (isInterleaved420 c = true ↔ c.toNat = 1 ∨ c.toNat = 2)
    ∧ (isYuv444 c = true ↔ c.toNat = 3 ∨ c.toNat = 4)
    ∧ (is422 c = true ↔ c.toNat = 5 ∨ c.toNat = 6)
    ∧ (isRgbf c = true ↔ c.toNat = 7) ∧ (isTiled16x16 c = true ↔ c.toNat = 8)
    ∧ ((Format.ofCode c).isSome = true ↔ c.toNat < 9)
    ∧ ∀ f, Format.ofCode c = some f → f.code = c

/-! ## The step -/

/-- R133, R135 (40_control.md), R21 (10_state.md): when a busy PFC's engine moves, the step is `exec` of
the command its latched OP decodes to; when the host writes CTRL.START to an idle PFC, the step is
`exec` of the command its OP register decodes to. A host's WR32 of any aligned offset of a PFC out of
reset is that register write (R131, R132, R139, R140; START whatever OP holds and whether busy or idle).
A step makes the move of the turn it takes off the list, resets (70_reset_and_hazards.md R290, R291) and
bus errors (R137) among them; with none listed the first busy engine moves, then the host (logs 6, 14,
23). -/
def Obligations.StepRunsDecodedCommand : Prop :=
  (∀ (s u : State) (n : Nat) (rest : List Turn) (run : Running) (i : Instr),
    s.turns = .engine n :: rest → { s with turns := rest }.selectAt n = some u →
    u.pfc.engine = some run → decodeOp run.lc.op = .ok i → step s = exec i u)
  ∧ (∀ (s u : State) (n : Nat) (rest : List Turn) (v : Word) (i : Instr),
    s.turns = .host :: rest → hostIsAt s (.wr32 n 0x00C v) → v.getLsbD 0 = true →
    { s with turns := rest }.select n = some u → u.pfc.inReset = false → u.pfc.engine = none →
    decodeOp u.pfc.op = .ok i → step s = exec i u.nextStmt)
  ∧ (∀ (s : State) (nbits w : Nat) (i : Instr), decodeTableWord nbits w = some i →
    step (s.withFetchWord nbits w)
      = exec i { s.withFetchWord nbits w with turns := s.turns })
  ∧ (∀ (s u : State) (n off : Nat) (v : Word), off % 4 = 0 → off < 4096 →
    hostIsAt s (.wr32 n off v) → u.pfc.inReset = false →
    (s.select n = some u → hostTurn s = regWrite u.nextStmt off v)
    ∧ (turnTaken s = .host → { s with turns := s.turns.tail }.select n = some u →
        step s = regWrite u.nextStmt off v))
  ∧ (∀ (s s' : State) (n : Nat), s' = { s with turns := s.turns.tail } →
    (turnTaken s = .host → step s = hostTurn s')
    ∧ (turnTaken s = .engine n → step s = engineTurn n s')
    ∧ (turnTaken s = .busError n → step s = busErrorTurn n s')
    ∧ (turnTaken s = .resetOn n → step s = resetOnTurn n s')
    ∧ (turnTaken s = .resetOff n → step s = resetOffTurn n s')
    ∧ (turnTaken s = .together n →
        (∀ t, hostTurn s' = .next t → step s = engineTurn n t)
        ∧ (∀ f, hostTurn s' = .fault f → step s = .fault f)
        ∧ (∀ r, hostTurn s' = .refused r → step s = .refused r)))
  ∧ (∀ s : State,
    (∀ t rest, s.turns = t :: rest → turnTaken s = t)
    ∧ (s.turns = [] →
        (∀ n, s.pfcs.findIdx? Pfc.busy = some n → turnTaken s = .engine n)
        ∧ (s.pfcs.findIdx? Pfc.busy = none → turnTaken s = .host)))

/-- R24, R42 (10_state.md): no step changes the parameters (so ID and CAPS are constant) or the register
blocks, so instances with blocks of their own keep them (60_exceptions.md R281); and, by the model's choice
(log 5), none changes the memory map. -/
def Obligations.StepKeepsConstants : Prop :=
  ∀ s t : State, step s = .next t →
    t.cfg = s.cfg ∧ t.memMap = s.memMap ∧ t.pfcs.map Pfc.regBase = s.pfcs.map Pfc.regBase
      ∧ (s.ownBlocks → t.ownBlocks)

/-- R42 (10_state.md), R281 (60_exceptions.md): an instance is identified by its REG_BASE only, and the
instances share no state. On a platform whose instances have blocks of their own, a REG_BASE addresses
the one instance that has it, wherever that stands in the model's list (log 15), and changes nothing; a
base that no instance has addresses none. A step changes only the instance its turn names (by position, as
the model's turns do) or whose REG_BASE its host statement names. -/
def Obligations.PfcsShareNoState : Prop :=
  (∀ (s : State) (k : Nat) (p : Pfc), s.ownBlocks → s.pfcs[k]? = some p →
    (∃ u, s.select p.regBase = some u ∧ u.pfc = p ∧ u.pfcs = s.pfcs
      ∧ u = { s with before := u.before, pfc := u.pfc, after := u.after })
    ∧ ∀ (j : Nat) (q : Pfc), s.pfcs[j]? = some q → q.regBase = p.regBase → j = k)
  ∧ (∀ (s : State) (base : Nat), s.select base = none ↔ ∀ p ∈ s.pfcs, p.regBase ≠ base)
  ∧ ∀ (s t : State) (k : Nat) (p : Pfc), step s = .next t → s.pfcs[k]? = some p →
    t.pfcs[k]? ≠ some p →
    turnTaken s ∈ [Turn.engine k, .together k, .resetOn k, .resetOff k]
    ∨ ((turnTaken s = .host ∨ ∃ n, turnTaken s = .together n)
        ∧ ∃ off v, hostIsAt s (.wr32 p.regBase off v))

/-- R302, R135 (70_reset_and_hazards.md, 40_control.md): when no turn is listed, the next step ends a
running command whose footprint is mapped. That the engine moves first is the model's choice (log 6). -/
def Obligations.AcceptedCommandEnds : Prop :=
  ∀ (s : State) (n : Nat) (p : Pfc) (run : Running), s.coherent → s.turns = [] →
    s.pfcs.findIdx? Pfc.busy = some n → s.pfcs[n]? = some p → p.engine = some run →
    (∀ i, decodeOp run.lc.op = .ok i → run.lc.mapped s.memMap i.src i.dst p.tier = true) →
    ∃ t, step s = .next t ∧ t.pfcs[n]? = some { p with
        engine := none, irqStatus := p.irqStatus ||| 0b001 } ∧ t.host = s.host

/-! ## Invariants -/

/-- State.reset meets the three invariants below, its parameters are legal, and its instances have blocks of
their own (60_exceptions.md R281). The values of memory, the host and the draw counter at
reset are the model's (logs 4, 12, 21), and so is the choice among overlapping blocks (log 16). -/
def Obligations.ResetMeetsInvariants : Prop :=
  State.reset.canonical ∧ State.reset.hardwired ∧ State.reset.coherent
    ∧ State.reset.cfg.legal = true ∧ State.reset.ownBlocks

/-- Every step keeps memory and the host's names in canonical form, so that equal memories are equal data
(the model's own form: log 4). -/
def Obligations.StepKeepsCanonicalMemory : Prop :=
  ∀ s t : State, s.canonical → step s = .next t → t.canonical

/-- R25, R33, R35, R27 (10_state.md): the allow bit of an absent tier and the address bits from ADDR_W up
read 0, and STATUS.TIER names a present tier, in every state a step leaves. -/
def Obligations.StepKeepsHardwiredBits : Prop :=
  ∀ s t : State, s.hardwired → step s = .next t → t.hardwired

/-- R77, R80, R83 (20_memory.md), R79, R133: while commands run, each is one START accepted, reports no
error, its source bytes stay as they were at acceptance, and no two of them race. -/
def Obligations.StepKeepsRunningCommandsCoherent : Prop :=
  ∀ s t : State, s.coherent → step s = .next t → t.coherent

/-! ## Registers as software reads them -/

/-- R22, and the layouts of R23 to R36 (10_state.md), with the codes of R260 (60_exceptions.md): what
every register of the map reads as, at its offset, in every state. -/
def Obligations.RegistersReadAtTheirOffsets : Prop :=
  ∀ (cfg : Params) (p : Pfc),
    p.readAt cfg 0x000 = cfg.pfcId
    ∧ (p.readAt cfg 0x004).toNat
        = cfg.hasV128.toNat + 2 * cfg.hasV256.toNat + 4 * cfg.hasSpvuDst.toNat
    ∧ (p.readAt cfg 0x008).toNat
        = (p.tierAllow.getLsbD 0).toNat + 2 * (p.tierAllow.getLsbD 1).toNat
    ∧ p.readAt cfg 0x00C = 0
    ∧ (∀ err tier : Nat,
        (p.err, err) ∈ [(.none, 0), (.op, 1), (.fmt, 2), (.unsup, 3), (.dim, 4), (.stride, 5),
          (.range, 6), (.bus, 7)] →
        (p.tier, tier) ∈ [(.scalar, 0), (.v128, 1), (.v256, 2)] →
        (p.readAt cfg 0x010).toNat = 16 * err + 2 * tier + p.engine.isSome.toNat)
    ∧ (p.readAt cfg 0x014).toNat = (p.irqStatus.getLsbD 0).toNat
        + 2 * (p.irqStatus.getLsbD 1).toNat + 4 * (p.irqStatus.getLsbD 2).toNat
    ∧ (p.readAt cfg 0x018).toNat = (p.irqEnable.getLsbD 0).toNat
        + 2 * (p.irqEnable.getLsbD 1).toNat + 4 * (p.irqEnable.getLsbD 2).toNat
    ∧ p.readAt cfg 0x020 = p.op
    ∧ (p.readAt cfg 0x024).toNat = p.width.toNat ∧ (p.readAt cfg 0x028).toNat = p.height.toNat
    ∧ ∀ (n : Ix) (k : Nat), (n, k) ∈ [(.p0, 0), (.p1, 1), (.p2, 2)] →
        p.readAt cfg (0x030 + 8 * k) = (p.src.get n).addrLo
        ∧ p.readAt cfg (0x034 + 8 * k) = (p.src.get n).addrHi
        ∧ p.readAt cfg (0x048 + 4 * k) = (p.src.get n).stride
        ∧ p.readAt cfg (0x058 + 8 * k) = (p.dst.get n).addrLo
        ∧ p.readAt cfg (0x05C + 8 * k) = (p.dst.get n).addrHi
        ∧ p.readAt cfg (0x070 + 4 * k) = (p.dst.get n).stride

/-! ## Binary32 -/

/-- R218 (46_rgb_to_yuv.md): `fmul` rounds the exact product of two finite values to nearest, ties to
even, subnormals kept, with the sign of the product; infinities follow IEEE-754, so infinity times zero is
NaN; a NaN factor gives NaN. -/
def Obligations.MultiplyRoundsToNearestEven : Prop :=
  (∀ (a b : Word) (s t : Bool) (m n : Nat) (e f : Int), unpack32 a = .fin s m e →
    unpack32 b = .fin t n f →
    roundsTo 298 (signed (s != t) (m * n * 2 ^ (e + f + 298).toNat)) (fmul a b)
    ∧ (fmul a b).getLsbD 31 = (s != t))
  ∧ (∀ (a b : Word) (s t : Bool), unpack32 a = .inf s → unpack32 b = .inf t →
      unpack32 (fmul a b) = .inf (s != t))
  ∧ (∀ (a b : Word) (s t : Bool) (n : Nat) (f : Int), unpack32 a = .inf s →
      unpack32 b = .fin t n f →
      (n ≠ 0 → unpack32 (fmul a b) = .inf (s != t) ∧ unpack32 (fmul b a) = .inf (s != t))
      ∧ (n = 0 → isNaN32 (fmul a b) = true ∧ isNaN32 (fmul b a) = true))
  ∧ ∀ a b : Word, isNaN32 a = true → isNaN32 (fmul a b) = true ∧ isNaN32 (fmul b a) = true

/-- R218 (46_rgb_to_yuv.md): `fadd` rounds the exact sum of two finite values to nearest, ties to even,
subnormals kept; a sum of exactly 0 is +0, or −0 when both addends are negative; infinities follow
IEEE-754, so the sum of opposite ones is NaN; a NaN addend gives NaN. -/
def Obligations.AddRoundsToNearestEven : Prop :=
  (∀ (a b : Word) (s t : Bool) (m n : Nat) (e f : Int) (v : Int), unpack32 a = .fin s m e →
    unpack32 b = .fin t n f →
    v = signed s (m * 2 ^ (e + 149).toNat) + signed t (n * 2 ^ (f + 149).toNat) →
    roundsTo 149 v (fadd a b)
    ∧ (v = 0 → fadd a b = if s && t then 0x80000000 else 0x00000000))
  ∧ (∀ (a b : Word) (s t : Bool), unpack32 a = .inf s → unpack32 b = .inf t →
      (s = t → unpack32 (fadd a b) = .inf s) ∧ (s ≠ t → isNaN32 (fadd a b) = true))
  ∧ (∀ (a b : Word) (s t : Bool) (n : Nat) (f : Int), unpack32 a = .inf s →
      unpack32 b = .fin t n f →
      unpack32 (fadd a b) = .inf s ∧ unpack32 (fadd b a) = .inf s)
  ∧ ∀ a b : Word, isNaN32 a = true → isNaN32 (fadd a b) = true ∧ isNaN32 (fadd b a) = true
end

