-- ==== Sys2Proof/Laws/Cells.lean ====
section
/-! SUPPORT. The laws of sparse cells: read after write, many writes, draws, and the canonical form. -/

namespace Sys2Proof.Machine

@[simp] theorem Cells.read_nil {w : Nat} (a : Nat) : Cells.read ([] : Cells w) a = 0 := rfl

theorem Cells.read_cons {w : Nat} (k : Nat) (x : BitVec w) (m : Cells w) (a : Nat) :
    Cells.read ((k, x) :: m) a = if k = a then x else Cells.read m a := rfl

theorem Cells.read_erase {w : Nat} (m : Cells w) (a b : Nat) :
    Cells.read (Cells.erase m a) b = if b = a then 0 else Cells.read m b := by
  induction m with
  | nil => simp [Cells.erase]
  | cons c m ih =>
    obtain ⟨k, x⟩ := c
    by_cases hk : k = a <;> simp_all [Cells.erase, Cells.read_cons] <;>
      split_ifs <;> simp_all

theorem Cells.read_insert {w : Nat} (m : Cells w) (a b : Nat) (v : BitVec w)
    (hn : ∀ c ∈ m, c.1 ≠ a) :
    Cells.read (Cells.insert m a v) b = if b = a then v else Cells.read m b := by
  induction m with
  | nil => simp [Cells.insert, Cells.read_cons, eq_comm]
  | cons c m ih =>
    obtain ⟨k, x⟩ := c
    have hk : k ≠ a := hn (k, x) (by simp)
    have ih' := ih fun c hc => hn c (by simp [hc])
    unfold Cells.insert
    split
    · rw [Cells.read_cons]; simp only [eq_comm]
    · rw [Cells.read_cons, ih', Cells.read_cons]
      by_cases h1 : b = a
      · subst h1; simp [hk]
      · simp [h1]

theorem Cells.mem_erase {w : Nat} (m : Cells w) (a : Nat) (c : Nat × BitVec w) :
    c ∈ Cells.erase m a ↔ c ∈ m ∧ c.1 ≠ a := by
  simp [Cells.erase]

/-- Reading after one write: the written value there, the old value elsewhere. -/
theorem Cells.read_write {w : Nat} (m : Cells w) (a b : Nat) (v : BitVec w) :
    Cells.read (Cells.write m a v) b = if b = a then v else Cells.read m b := by
  have hn : ∀ c ∈ Cells.erase m a, c.1 ≠ a := fun c hc => ((Cells.mem_erase m a c).1 hc).2
  unfold Cells.write
  split
  · rename_i h; rw [Cells.read_erase, h]
  · rw [Cells.read_insert _ _ _ _ hn, Cells.read_erase]
    split <;> rfl

@[simp] theorem Cells.read_write_same {w : Nat} (m : Cells w) (a : Nat) (v : BitVec w) :
    Cells.read (Cells.write m a v) a = v := by simp [Cells.read_write]

theorem Cells.read_write_other {w : Nat} (m : Cells w) {a b : Nat} (v : BitVec w) (h : b ≠ a) :
    Cells.read (Cells.write m a v) b = Cells.read m b := by simp [Cells.read_write, h]

/-- Many writes leave every address they do not name. -/
theorem Cells.read_writeAll_other {w : Nat} (l : List (Nat × BitVec w)) (m : Cells w) (b : Nat)
    (h : ∀ c ∈ l, c.1 ≠ b) : Cells.read (Cells.writeAll m l) b = Cells.read m b := by
  induction l generalizing m with
  | nil => rfl
  | cons c l ih =>
    obtain ⟨a, v⟩ := c
    have ha : b ≠ a := fun e => h (a, v) (by simp) e.symm
    rw [Cells.writeAll, ih _ fun c hc => h c (by simp [hc]), Cells.read_write_other _ _ ha]

/-- Many writes that agree on an address leave their value there. -/
theorem Cells.read_writeAll_named {w : Nat} (l : List (Nat × BitVec w)) (m : Cells w) (b : Nat)
    (v : BitVec w) (hm : (b, v) ∈ l) (h : ∀ c ∈ l, c.1 = b → c.2 = v) :
    Cells.read (Cells.writeAll m l) b = v := by
  induction l generalizing m with
  | nil => simp at hm
  | cons c l ih =>
    obtain ⟨a, x⟩ := c
    rw [Cells.writeAll]
    by_cases hin : (b, v) ∈ l
    · exact ih _ hin fun c hc => h c (by simp [hc])
    · have hab : (b, v) = (a, x) := by simpa [hin] using hm
      obtain ⟨rfl, rfl⟩ := Prod.mk.inj hab
      rw [Cells.read_writeAll_other, Cells.read_write_same]
      intro c hc hcb
      exact hin (by
        have := h c (by simp [hc]) hcb
        obtain ⟨c1, c2⟩ := c
        simp only at hcb this
        subst hcb this
        exact hc)

theorem Cells.erase_wf {w : Nat} {m : Cells w} (h : Cells.wf m) (a : Nat) :
    Cells.wf (Cells.erase m a) :=
  ⟨h.1.filter _, fun c hc => h.2 c ((Cells.mem_erase m a c).1 hc).1⟩

theorem Cells.mem_insert {w : Nat} (m : Cells w) (a : Nat) (v : BitVec w) (c : Nat × BitVec w) :
    c ∈ Cells.insert m a v ↔ c = (a, v) ∨ c ∈ m := by
  induction m with
  | nil => simp [Cells.insert]
  | cons d m ih =>
    obtain ⟨k, x⟩ := d
    unfold Cells.insert
    split
    · simp
    · simp only [List.mem_cons, ih]; tauto

theorem Cells.insert_wf {w : Nat} {m : Cells w} (h : Cells.wf m) {a : Nat} {v : BitVec w}
    (hv : v ≠ 0) (hn : ∀ c ∈ m, c.1 ≠ a) : Cells.wf (Cells.insert m a v) := by
  refine ⟨?_, fun c hc => ?_⟩
  · obtain ⟨hp, -⟩ := h
    induction m with
    | nil => simp [Cells.insert]
    | cons d m ih =>
      obtain ⟨k, x⟩ := d
      have hk : k ≠ a := hn (k, x) (by simp)
      rw [List.pairwise_cons] at hp
      unfold Cells.insert
      split
      · rename_i hlt
        refine List.pairwise_cons.2 ⟨fun c hc => ?_, List.pairwise_cons.2 hp⟩
        rcases List.mem_cons.1 hc with rfl | hc
        · exact hlt
        · exact lt_trans hlt (hp.1 c hc)
      · refine List.pairwise_cons.2 ⟨fun c hc => ?_, ih (fun c hc => hn c (by simp [hc])) hp.2⟩
        rcases (Cells.mem_insert m a v c).1 hc with rfl | hc
        · simp only; omega
        · exact hp.1 c hc
  · rcases (Cells.mem_insert m a v c).1 hc with rfl | hc
    · exact hv
    · exact h.2 c hc

/-- A write keeps the canonical form. -/
theorem Cells.write_wf {w : Nat} {m : Cells w} (h : Cells.wf m) (a : Nat) (v : BitVec w) :
    Cells.wf (Cells.write m a v) := by
  unfold Cells.write
  split
  · exact Cells.erase_wf h a
  · rename_i hv
    exact Cells.insert_wf (Cells.erase_wf h a) hv
      fun c hc => ((Cells.mem_erase m a c).1 hc).2

/-- Many writes keep the canonical form. -/
theorem Cells.writeAll_wf {w : Nat} (l : List (Nat × BitVec w)) {m : Cells w} (h : Cells.wf m) :
    Cells.wf (Cells.writeAll m l) := by
  induction l generalizing m with
  | nil => exact h
  | cons c l ih => exact ih (Cells.write_wf h c.1 c.2)

/-- Draws keep the canonical form. -/
theorem drawOver_wf (l : List Nat) {m : Memory} (h : Memory.wf m) (n : Nat) :
    Memory.wf (drawOver m n l).1 := by
  induction l generalizing m n with
  | nil => exact h
  | cons a l ih =>
    rw [drawOver]
    split
    · exact ih (Cells.write_wf h _ _) _
    · exact ih h _

/-- What a draw leaves at an address: its old value, or, at a listed address, a free byte. -/
theorem read_drawOver (l : List Nat) (m : Memory) (n b : Nat) :
    Cells.read (drawOver m n l).1 b = Cells.read m b ∨
      (b ∈ l ∧ ∃ k, Cells.read (drawOver m n l).1 b = Config.drawByte k) := by
  induction l generalizing m n with
  | nil => exact .inl rfl
  | cons a l ih =>
    rw [drawOver]
    rcases ih (if Config.drawWrite n = true then Cells.write m a (Config.drawByte n) else m)
      (n + 1) with h | ⟨hb, k, hk⟩
    · rw [h]
      split
      · by_cases hba : b = a
        · exact .inr ⟨by simp [hba], n, by simp [hba]⟩
        · exact .inl (Cells.read_write_other _ _ hba)
      · exact .inl rfl
    · exact .inr ⟨by simp [hb], k, hk⟩

/-- Draws leave every address they do not name. -/
theorem read_drawOver_other (l : List Nat) (m : Memory) (n b : Nat) (h : b ∉ l) :
    Cells.read (drawOver m n l).1 b = Cells.read m b := by
  rcases read_drawOver l m n b with h' | ⟨hb, -⟩
  · exact h'
  · exact absurd hb h

@[simp] theorem drawOver_nil (m : Memory) (n : Nat) : drawOver m n [] = (m, n) := rfl

/-- Two canonical memories that read alike at every address are equal. -/
theorem Cells.ext_of_read {w : Nat} {m n : Cells w} (hm : Cells.wf m) (hn : Cells.wf n)
    (h : ∀ a, Cells.read m a = Cells.read n a) : m = n := by
  have lookup : ∀ {m : Cells w}, Cells.wf m → ∀ c : Nat × BitVec w,
      c ∈ m ↔ c.2 ≠ 0 ∧ Cells.read m c.1 = c.2 := by
    intro m hm c
    induction m with
    | nil => simp only [List.not_mem_nil, Cells.read_nil, false_iff]; intro ⟨h, e⟩; exact h e.symm
    | cons d m ih =>
      obtain ⟨k, x⟩ := d
      obtain ⟨c1, c2⟩ := c
      have hp := List.pairwise_cons.1 hm.1
      have ih' := ih ⟨hp.2, fun c hc => hm.2 c (by simp [hc])⟩
      have hx : x ≠ 0 := hm.2 (k, x) (by simp)
      simp only [List.mem_cons, Prod.mk.injEq, ih', Cells.read_cons]
      by_cases hk : k = c1
      · subst hk
        have : ¬ (c2 ≠ 0 ∧ Cells.read m k = c2) := by
          intro hc; exact absurd (hp.1 (k, c2) (ih'.2 hc)) (by simp)
        simp only [true_and, if_true]
        constructor
        · rintro (rfl | hc)
          · exact ⟨hx, rfl⟩
          · exact absurd hc this
        · rintro ⟨-, rfl⟩; exact .inl rfl
      · simp only [hk, if_false, eq_comm (a := c1), false_and, false_or]
  have hirr : ∀ a b : Nat × BitVec w, a ∈ m → b ∈ n → a.1 < b.1 → b.1 < a.1 → a = b :=
    fun a b _ _ h1 h2 => absurd h1 (by omega)
  refine List.Perm.eq_of_pairwise hirr hm.1 hn.1 ?_
  refine (List.perm_ext_iff_of_nodup ?_ ?_).2 fun c => by rw [lookup hm, lookup hn, h]
  · exact hm.1.imp fun h e => by subst e; exact absurd h (by simp)
  · exact hn.1.imp fun h e => by subst e; exact absurd h (by simp)

end Sys2Proof.Machine
end

