-- ==== Sys2Proof/Laws/Footprint.lean ====
section
/-! SUPPORT. Footprints: rounding up, ranges and their overlap, which addresses a command writes and
that an accepted command writes each of them once (20_memory.md §3). -/

namespace Sys2Proof.Machine

theorem laneWidth_pos (t : Tier) : 0 < laneWidth t := by cases t <;> decide

theorem le_roundup (a g : Nat) (hg : 0 < g) : a ≤ roundup a g := by
  unfold roundup
  have h := Nat.div_add_mod (a + g - 1) g
  have hm := Nat.mod_lt (a + g - 1) hg
  rw [Nat.mul_comm] at h
  omega

/-- Rounding a multiple up leaves it. -/
theorem roundup_of_dvd {a g : Nat} (hg : 0 < g) (h : a % g = 0) : roundup a g = a := by
  obtain ⟨k, rfl⟩ := Nat.dvd_of_mod_eq_zero h
  unfold roundup
  have : (g * k + g - 1) / g = k := by
    rw [show g * k + g - 1 = (g - 1) + g * k by omega, Nat.add_mul_div_left _ _ hg,
      Nat.div_eq_of_lt (by omega), Nat.zero_add]
  rw [this, Nat.mul_comm]

/-- Rounding up never passes a multiple that is not below. -/
theorem roundup_le_of_dvd {a b g : Nat} (hg : 0 < g) (hab : a ≤ b) (h : b % g = 0) :
    roundup a g ≤ b := by
  obtain ⟨k, rfl⟩ := Nat.dvd_of_mod_eq_zero h
  unfold roundup
  rw [Nat.mul_comm g k]
  refine Nat.mul_le_mul_right g ?_
  have : (a + g - 1) / g < k + 1 := by
    rw [Nat.div_lt_iff_lt_mul hg, Nat.add_mul, Nat.mul_comm k g]; omega
  omega

theorem Range.has_iff (r : Range) (a : Nat) :
    r.has a = true ↔ r.start ≤ a ∧ a < r.start + r.len := by simp [Range.has]

theorem Range.overlaps_of_has {r q : Range} {a : Nat} (hr : r.has a = true) (hq : q.has a = true) :
    r.overlaps q = true := by
  rw [Range.has_iff] at hr hq
  simp only [Range.overlaps, decide_eq_true_eq]
  omega

theorem Range.overlaps_comm (r q : Range) : r.overlaps q = q.overlaps r := by
  simp only [Range.overlaps, max_comm, min_comm]

theorem anyHas_iff (rs : List Range) (a : Nat) : anyHas rs a = true ↔ ∃ r ∈ rs, r.has a = true := by
  simp [anyHas]

theorem anyHas_append (rs qs : List Range) (a : Nat) :
    anyHas (rs ++ qs) a = (anyHas rs a || anyHas qs a) := by simp [anyHas]

/-- Lists of ranges that do not overlap have no address in common. -/
theorem not_anyHas_of_not_overlap {rs qs : List Range} {a : Nat} (h : anyOverlap rs qs = false)
    (hr : anyHas rs a = true) : anyHas qs a = false := by
  by_contra hq
  rw [Bool.not_eq_false] at hq
  obtain ⟨r, hr, hra⟩ := (anyHas_iff _ _).1 hr
  obtain ⟨q, hq, hqa⟩ := (anyHas_iff _ _).1 hq
  have : anyOverlap rs qs = true := by
    simp only [anyOverlap, List.any_eq_true]
    exact ⟨r, hr, q, hq, Range.overlaps_of_has hra hqa⟩
  rw [this] at h
  cases h

theorem anyOverlap_comm (rs qs : List Range) : anyOverlap rs qs = anyOverlap qs rs := by
  rw [Bool.eq_iff_iff]
  simp only [anyOverlap, List.any_eq_true]
  constructor <;> rintro ⟨r, hr, q, hq, h⟩ <;> exact ⟨q, hq, r, hr, by rwa [Range.overlaps_comm]⟩

theorem anyOverlap_append_right (rs ps qs : List Range) :
    anyOverlap rs (ps ++ qs) = (anyOverlap rs ps || anyOverlap rs qs) := by
  rw [Bool.eq_iff_iff]
  simp only [anyOverlap, List.any_eq_true, Bool.or_eq_true, List.mem_append]
  constructor
  · rintro ⟨r, hr, q, hq | hq, h⟩
    · exact .inl ⟨r, hr, q, hq, h⟩
    · exact .inr ⟨r, hr, q, hq, h⟩
  · rintro (⟨r, hr, q, hq, h⟩ | ⟨r, hr, q, hq, h⟩)
    · exact ⟨r, hr, q, .inl hq, h⟩
    · exact ⟨r, hr, q, .inr hq, h⟩

/-- Racing is symmetric. -/
theorem racing_comm (p q : Pfc) : racing p q = racing q p := by
  rw [racing, racing, anyOverlap_append_right, anyOverlap_append_right,
    anyOverlap_comm p.dstRanges q.srcRanges, anyOverlap_comm p.dstRanges q.dstRanges,
    anyOverlap_comm p.srcRanges q.dstRanges]
  cases anyOverlap q.srcRanges p.dstRanges <;> cases anyOverlap q.dstRanges p.dstRanges <;>
    cases anyOverlap q.dstRanges p.srcRanges <;> rfl

theorem pairwise_of_not_pairsOverlap : ∀ {l : List (List Range)}, pairsOverlap l = false →
    l.Pairwise fun rs qs => anyOverlap rs qs = false
  | [], _ => .nil
  | rs :: rest, h => by
    rw [pairsOverlap, Bool.or_eq_false_iff] at h
    exact List.pairwise_cons.2
      ⟨fun qs hq => by simpa using List.any_eq_false.1 h.1 qs hq,
        pairwise_of_not_pairsOverlap h.2⟩

/-- The addresses and values of a command's writes. -/
theorem Latched.mem_dstWrites (lc : Latched) (dst : Format) (out : Ix → Nat → Nat → Byte)
    (c : Nat × Byte) :
    c ∈ lc.dstWrites dst out ↔
      ∃ g ∈ lc.dstPlanes dst, ∃ r < g.rows, ∃ k < g.used,
        c = (lc.dstAddr g.ix r k, out g.ix r k) := by
  simp only [Latched.dstWrites, List.mem_flatMap, List.mem_map, List.mem_range]
  constructor
  · rintro ⟨g, hg, r, hr, k, hk, rfl⟩; exact ⟨g, hg, r, hr, k, hk, rfl⟩
  · rintro ⟨g, hg, r, hr, k, hk, rfl⟩; exact ⟨g, hg, r, hr, k, hk, rfl⟩

/-- A used byte of a row lies in its plane's footprint on every tier. -/
theorem planeFootprint_has {p : LatchedPlane} {g : PlaneGeom} {r k : Nat} (hr : r < g.rows)
    {lane : Nat} (hk : k < roundup g.used lane) :
    anyHas (planeFootprint p g lane) (p.byteAddr r k) = true := by
  rw [anyHas_iff]
  refine ⟨⟨p.byteAddr r 0, roundup g.used lane⟩, ?_, ?_⟩
  · exact List.mem_map.2 ⟨r, List.mem_range.2 hr, rfl⟩
  · rw [Range.has_iff]; simp only [LatchedPlane.byteAddr]; omega

theorem footprints_has {ps : Three LatchedPlane} {gs : List PlaneGeom} {g : PlaneGeom}
    (hg : g ∈ gs) {r k lane : Nat} (hr : r < g.rows) (hk : k < roundup g.used lane) :
    anyHas (footprints ps gs lane).flatten ((ps.get g.ix).byteAddr r k) = true := by
  obtain ⟨q, hq, hqa⟩ := (anyHas_iff _ _).1 (planeFootprint_has (p := ps.get g.ix) hr hk)
  exact (anyHas_iff _ _).2
    ⟨q, List.mem_flatten.2 ⟨_, List.mem_map.2 ⟨g, hg, rfl⟩, hq⟩, hqa⟩

/-- Within one plane, rows that do not reach past the stride never share a byte. -/
theorem LatchedPlane.byteAddr_inj {p : LatchedPlane} {u r r' k k' : Nat} (hu : u ≤ p.s)
    (hk : k < u) (hk' : k' < u) (h : p.byteAddr r k = p.byteAddr r' k') : r = r' ∧ k = k' := by
  simp only [LatchedPlane.byteAddr] at h
  have hs : 0 < p.s := by omega
  have e : r * p.s + k = r' * p.s + k' := by omega
  have d := congrArg (· / p.s) e
  simp only [Nat.mul_comm _ p.s, Nat.mul_add_div hs, Nat.div_eq_of_lt (lt_of_lt_of_le hk hu),
    Nat.div_eq_of_lt (lt_of_lt_of_le hk' hu), Nat.add_zero] at d
  subst d
  exact ⟨rfl, by omega⟩

/-- The planes of a format have different numbers. -/
theorem formatPlanes_ix_inj {f : Format} {w h : Nat} {g g' : PlaneGeom}
    (hg : g ∈ formatPlanes f w h) (hg' : g' ∈ formatPlanes f w h) (e : g.ix = g'.ix) : g = g' := by
  cases f <;> simp only [formatPlanes, List.mem_cons, List.not_mem_nil, or_false] at hg hg' <;>
    first
    | exact hg.elim
    | (rcases hg with rfl | rfl | rfl <;> rcases hg' with rfl | rfl | rfl <;>
        first | rfl | cases e)

/-- `stridesCover` of a surface's planes. -/
theorem used_le_stride {ps : Three LatchedPlane} {gs : List PlaneGeom}
    (h : stridesCover ps gs = true) {g : PlaneGeom} (hg : g ∈ gs) : g.used ≤ (ps.get g.ix).s := by
  simpa using List.all_eq_true.1 h g hg

/-- An accepted command writes each used destination byte once: equal addresses are the same byte. -/
theorem Latched.dstAddr_inj {lc : Latched} {src dst : Format} {t : Tier}
    (hs : stridesOk src dst lc = true) (ho : lc.overlapping src dst t = false)
    {g g' : PlaneGeom} (hg : g ∈ lc.dstPlanes dst) (hg' : g' ∈ lc.dstPlanes dst) {r r' k k' : Nat}
    (hr : r < g.rows) (hr' : r' < g'.rows) (hk : k < g.used) (hk' : k' < g'.used)
    (h : lc.dstAddr g.ix r k = lc.dstAddr g'.ix r' k') : g = g' ∧ r = r' ∧ k = k' := by
  have hsd : stridesCover lc.dst (lc.dstPlanes dst) = true := by
    rw [stridesOk, Bool.and_eq_true] at hs; exact hs.2
  by_cases e : g = g'
  · subst e
    exact ⟨rfl, LatchedPlane.byteAddr_inj (used_le_stride hsd hg) hk hk' h⟩
  · exfalso
    rw [Latched.overlapping, Bool.or_eq_false_iff] at ho
    have hp := pairwise_of_not_pairsOverlap ho.2
    rw [Latched.dstFootprints, footprints, List.pairwise_map] at hp
    have hl := laneWidth_pos t
    have h1 := planeFootprint_has (p := lc.dst.get g.ix) hr
      (lt_of_lt_of_le hk (le_roundup g.used _ hl))
    have h2 := planeFootprint_has (p := lc.dst.get g'.ix) hr'
      (lt_of_lt_of_le hk' (le_roundup g'.used _ hl))
    change (lc.dst.get g.ix).byteAddr r k = (lc.dst.get g'.ix).byteAddr r' k' at h
    rw [← h] at h2
    have sym : Std.Symm fun a b : PlaneGeom =>
        anyOverlap (planeFootprint (lc.dst.get a.ix) a (laneWidth t))
          (planeFootprint (lc.dst.get b.ix) b (laneWidth t)) = false :=
      ⟨fun a b hab => by rwa [anyOverlap_comm]⟩
    have := hp.forall hg hg' e
    rw [not_anyHas_of_not_overlap this h1] at h2
    cases h2

/-- The addresses of ranges are the ones some range holds. -/
theorem mem_addressesOf (rs : List Range) (a : Nat) : a ∈ addressesOf rs ↔ anyHas rs a = true := by
  simp only [addressesOf, List.mem_flatMap, List.mem_map, List.mem_range, anyHas_iff, Range.has_iff]
  refine exists_congr fun r => and_congr_right fun _ => ⟨?_, fun ⟨h, h'⟩ => ⟨a - r.start, by omega, by omega⟩⟩
  rintro ⟨k, hk, rfl⟩
  omega

/-- Which bytes are unseen after a completion, and whose: the completed command's destination bytes are its
PFC's, every other byte is as it was. -/
theorem mem_unseenAfter (l : List Unseen) (base : Nat) (rs : List Range) (c : Unseen) :
    c ∈ unseenAfter l base rs ↔
      (anyHas rs c.addr = true ∧ c.regBase = base) ∨ (anyHas rs c.addr = false ∧ c ∈ l) := by
  obtain ⟨a, b⟩ := c
  simp only [unseenAfter, List.mem_append, List.mem_map, mem_addressesOf, List.mem_filter, Unseen.mk.injEq,
    Bool.not_eq_true']
  constructor
  · rintro (⟨x, hx, rfl, rfl⟩ | ⟨h, h'⟩)
    · exact .inl ⟨hx, rfl⟩
    · exact .inr ⟨h', h⟩
  · rintro (⟨h, rfl⟩ | ⟨h, h'⟩)
    · exact .inl ⟨a, h, rfl, rfl⟩
    · exact .inr ⟨h', h⟩

end Sys2Proof.Machine
end

