-- ==== Sys2Proof/Laws/State.lean ====
section
/-! SUPPORT. One lemma per field per update of the state's records, each true by rfl. -/

namespace Sys2Proof.Machine

@[simp] theorem Pfc.setIrq_regBase (p : Pfc) (bits : BitVec 3) :
    (p.setIrq bits).regBase = p.regBase := rfl
@[simp] theorem Pfc.setIrq_inReset (p : Pfc) (bits : BitVec 3) :
    (p.setIrq bits).inReset = p.inReset := rfl
@[simp] theorem Pfc.setIrq_tierAllow (p : Pfc) (bits : BitVec 3) :
    (p.setIrq bits).tierAllow = p.tierAllow := rfl
@[simp] theorem Pfc.setIrq_tier (p : Pfc) (bits : BitVec 3) :
    (p.setIrq bits).tier = p.tier := rfl
@[simp] theorem Pfc.setIrq_err (p : Pfc) (bits : BitVec 3) :
    (p.setIrq bits).err = p.err := rfl
@[simp] theorem Pfc.setIrq_irqStatus (p : Pfc) (bits : BitVec 3) :
    (p.setIrq bits).irqStatus = p.irqStatus ||| bits := rfl
@[simp] theorem Pfc.setIrq_irqEnable (p : Pfc) (bits : BitVec 3) :
    (p.setIrq bits).irqEnable = p.irqEnable := rfl
@[simp] theorem Pfc.setIrq_op (p : Pfc) (bits : BitVec 3) :
    (p.setIrq bits).op = p.op := rfl
@[simp] theorem Pfc.setIrq_width (p : Pfc) (bits : BitVec 3) :
    (p.setIrq bits).width = p.width := rfl
@[simp] theorem Pfc.setIrq_height (p : Pfc) (bits : BitVec 3) :
    (p.setIrq bits).height = p.height := rfl
@[simp] theorem Pfc.setIrq_src (p : Pfc) (bits : BitVec 3) :
    (p.setIrq bits).src = p.src := rfl
@[simp] theorem Pfc.setIrq_dst (p : Pfc) (bits : BitVec 3) :
    (p.setIrq bits).dst = p.dst := rfl
@[simp] theorem Pfc.setIrq_engine (p : Pfc) (bits : BitVec 3) :
    (p.setIrq bits).engine = p.engine := rfl

@[simp] theorem Pfc.clearIrq_regBase (p : Pfc) (v : Word) :
    (p.clearIrq v).regBase = p.regBase := rfl
@[simp] theorem Pfc.clearIrq_inReset (p : Pfc) (v : Word) :
    (p.clearIrq v).inReset = p.inReset := rfl
@[simp] theorem Pfc.clearIrq_tierAllow (p : Pfc) (v : Word) :
    (p.clearIrq v).tierAllow = p.tierAllow := rfl
@[simp] theorem Pfc.clearIrq_tier (p : Pfc) (v : Word) :
    (p.clearIrq v).tier = p.tier := rfl
@[simp] theorem Pfc.clearIrq_err (p : Pfc) (v : Word) :
    (p.clearIrq v).err = p.err := rfl
@[simp] theorem Pfc.clearIrq_irqStatus (p : Pfc) (v : Word) :
    (p.clearIrq v).irqStatus = p.irqStatus &&& ~~~(v.extractLsb' 0 3) := rfl
@[simp] theorem Pfc.clearIrq_irqEnable (p : Pfc) (v : Word) :
    (p.clearIrq v).irqEnable = p.irqEnable := rfl
@[simp] theorem Pfc.clearIrq_op (p : Pfc) (v : Word) :
    (p.clearIrq v).op = p.op := rfl
@[simp] theorem Pfc.clearIrq_width (p : Pfc) (v : Word) :
    (p.clearIrq v).width = p.width := rfl
@[simp] theorem Pfc.clearIrq_height (p : Pfc) (v : Word) :
    (p.clearIrq v).height = p.height := rfl
@[simp] theorem Pfc.clearIrq_src (p : Pfc) (v : Word) :
    (p.clearIrq v).src = p.src := rfl
@[simp] theorem Pfc.clearIrq_dst (p : Pfc) (v : Word) :
    (p.clearIrq v).dst = p.dst := rfl
@[simp] theorem Pfc.clearIrq_engine (p : Pfc) (v : Word) :
    (p.clearIrq v).engine = p.engine := rfl

@[simp] theorem Pfc.postError_regBase (p : Pfc) (e : ErrCode) :
    (p.postError e).regBase = p.regBase := rfl
@[simp] theorem Pfc.postError_inReset (p : Pfc) (e : ErrCode) :
    (p.postError e).inReset = p.inReset := rfl
@[simp] theorem Pfc.postError_tierAllow (p : Pfc) (e : ErrCode) :
    (p.postError e).tierAllow = p.tierAllow := rfl
@[simp] theorem Pfc.postError_tier (p : Pfc) (e : ErrCode) :
    (p.postError e).tier = p.tier := rfl
@[simp] theorem Pfc.postError_err (p : Pfc) (e : ErrCode) :
    (p.postError e).err = e := rfl
@[simp] theorem Pfc.postError_irqStatus (p : Pfc) (e : ErrCode) :
    (p.postError e).irqStatus = p.irqStatus ||| irqErr := rfl
@[simp] theorem Pfc.postError_irqEnable (p : Pfc) (e : ErrCode) :
    (p.postError e).irqEnable = p.irqEnable := rfl
@[simp] theorem Pfc.postError_op (p : Pfc) (e : ErrCode) :
    (p.postError e).op = p.op := rfl
@[simp] theorem Pfc.postError_width (p : Pfc) (e : ErrCode) :
    (p.postError e).width = p.width := rfl
@[simp] theorem Pfc.postError_height (p : Pfc) (e : ErrCode) :
    (p.postError e).height = p.height := rfl
@[simp] theorem Pfc.postError_src (p : Pfc) (e : ErrCode) :
    (p.postError e).src = p.src := rfl
@[simp] theorem Pfc.postError_dst (p : Pfc) (e : ErrCode) :
    (p.postError e).dst = p.dst := rfl
@[simp] theorem Pfc.postError_engine (p : Pfc) (e : ErrCode) :
    (p.postError e).engine = p.engine := rfl

@[simp] theorem Pfc.reject_regBase (p : Pfc) (e : ErrCode) :
    (p.reject e).regBase = p.regBase := rfl
@[simp] theorem Pfc.reject_inReset (p : Pfc) (e : ErrCode) :
    (p.reject e).inReset = p.inReset := rfl
@[simp] theorem Pfc.reject_tierAllow (p : Pfc) (e : ErrCode) :
    (p.reject e).tierAllow = p.tierAllow := rfl
@[simp] theorem Pfc.reject_tier (p : Pfc) (e : ErrCode) :
    (p.reject e).tier = p.tier := rfl
@[simp] theorem Pfc.reject_err (p : Pfc) (e : ErrCode) :
    (p.reject e).err = e := rfl
@[simp] theorem Pfc.reject_irqStatus (p : Pfc) (e : ErrCode) :
    (p.reject e).irqStatus = p.irqStatus ||| irqErr := rfl
@[simp] theorem Pfc.reject_irqEnable (p : Pfc) (e : ErrCode) :
    (p.reject e).irqEnable = p.irqEnable := rfl
@[simp] theorem Pfc.reject_op (p : Pfc) (e : ErrCode) :
    (p.reject e).op = p.op := rfl
@[simp] theorem Pfc.reject_width (p : Pfc) (e : ErrCode) :
    (p.reject e).width = p.width := rfl
@[simp] theorem Pfc.reject_height (p : Pfc) (e : ErrCode) :
    (p.reject e).height = p.height := rfl
@[simp] theorem Pfc.reject_src (p : Pfc) (e : ErrCode) :
    (p.reject e).src = p.src := rfl
@[simp] theorem Pfc.reject_dst (p : Pfc) (e : ErrCode) :
    (p.reject e).dst = p.dst := rfl
@[simp] theorem Pfc.reject_engine (p : Pfc) (e : ErrCode) :
    (p.reject e).engine = p.engine := rfl

@[simp] theorem Pfc.accept_regBase (p : Pfc) (lc : Latched) (t : Tier) (img : Memory) :
    (p.accept lc t img).regBase = p.regBase := rfl
@[simp] theorem Pfc.accept_inReset (p : Pfc) (lc : Latched) (t : Tier) (img : Memory) :
    (p.accept lc t img).inReset = p.inReset := rfl
@[simp] theorem Pfc.accept_tierAllow (p : Pfc) (lc : Latched) (t : Tier) (img : Memory) :
    (p.accept lc t img).tierAllow = p.tierAllow := rfl
@[simp] theorem Pfc.accept_tier (p : Pfc) (lc : Latched) (t : Tier) (img : Memory) :
    (p.accept lc t img).tier = t := rfl
@[simp] theorem Pfc.accept_err (p : Pfc) (lc : Latched) (t : Tier) (img : Memory) :
    (p.accept lc t img).err = .none := rfl
@[simp] theorem Pfc.accept_irqStatus (p : Pfc) (lc : Latched) (t : Tier) (img : Memory) :
    (p.accept lc t img).irqStatus = p.irqStatus := rfl
@[simp] theorem Pfc.accept_irqEnable (p : Pfc) (lc : Latched) (t : Tier) (img : Memory) :
    (p.accept lc t img).irqEnable = p.irqEnable := rfl
@[simp] theorem Pfc.accept_op (p : Pfc) (lc : Latched) (t : Tier) (img : Memory) :
    (p.accept lc t img).op = p.op := rfl
@[simp] theorem Pfc.accept_width (p : Pfc) (lc : Latched) (t : Tier) (img : Memory) :
    (p.accept lc t img).width = p.width := rfl
@[simp] theorem Pfc.accept_height (p : Pfc) (lc : Latched) (t : Tier) (img : Memory) :
    (p.accept lc t img).height = p.height := rfl
@[simp] theorem Pfc.accept_src (p : Pfc) (lc : Latched) (t : Tier) (img : Memory) :
    (p.accept lc t img).src = p.src := rfl
@[simp] theorem Pfc.accept_dst (p : Pfc) (lc : Latched) (t : Tier) (img : Memory) :
    (p.accept lc t img).dst = p.dst := rfl
@[simp] theorem Pfc.accept_engine (p : Pfc) (lc : Latched) (t : Tier) (img : Memory) :
    (p.accept lc t img).engine = some ⟨lc, img⟩ := rfl

@[simp] theorem Pfc.complete_regBase (p : Pfc) :
    p.complete.regBase = p.regBase := rfl
@[simp] theorem Pfc.complete_inReset (p : Pfc) :
    p.complete.inReset = p.inReset := rfl
@[simp] theorem Pfc.complete_tierAllow (p : Pfc) :
    p.complete.tierAllow = p.tierAllow := rfl
@[simp] theorem Pfc.complete_tier (p : Pfc) :
    p.complete.tier = p.tier := rfl
@[simp] theorem Pfc.complete_err (p : Pfc) :
    p.complete.err = p.err := rfl
@[simp] theorem Pfc.complete_irqStatus (p : Pfc) :
    p.complete.irqStatus = p.irqStatus ||| irqDone := rfl
@[simp] theorem Pfc.complete_irqEnable (p : Pfc) :
    p.complete.irqEnable = p.irqEnable := rfl
@[simp] theorem Pfc.complete_op (p : Pfc) :
    p.complete.op = p.op := rfl
@[simp] theorem Pfc.complete_width (p : Pfc) :
    p.complete.width = p.width := rfl
@[simp] theorem Pfc.complete_height (p : Pfc) :
    p.complete.height = p.height := rfl
@[simp] theorem Pfc.complete_src (p : Pfc) :
    p.complete.src = p.src := rfl
@[simp] theorem Pfc.complete_dst (p : Pfc) :
    p.complete.dst = p.dst := rfl
@[simp] theorem Pfc.complete_engine (p : Pfc) :
    p.complete.engine = none := rfl

@[simp] theorem Pfc.failBus_regBase (p : Pfc) :
    p.failBus.regBase = p.regBase := rfl
@[simp] theorem Pfc.failBus_inReset (p : Pfc) :
    p.failBus.inReset = p.inReset := rfl
@[simp] theorem Pfc.failBus_tierAllow (p : Pfc) :
    p.failBus.tierAllow = p.tierAllow := rfl
@[simp] theorem Pfc.failBus_tier (p : Pfc) :
    p.failBus.tier = p.tier := rfl
@[simp] theorem Pfc.failBus_err (p : Pfc) :
    p.failBus.err = .bus := rfl
@[simp] theorem Pfc.failBus_irqStatus (p : Pfc) :
    p.failBus.irqStatus = p.irqStatus ||| irqErr := rfl
@[simp] theorem Pfc.failBus_irqEnable (p : Pfc) :
    p.failBus.irqEnable = p.irqEnable := rfl
@[simp] theorem Pfc.failBus_op (p : Pfc) :
    p.failBus.op = p.op := rfl
@[simp] theorem Pfc.failBus_width (p : Pfc) :
    p.failBus.width = p.width := rfl
@[simp] theorem Pfc.failBus_height (p : Pfc) :
    p.failBus.height = p.height := rfl
@[simp] theorem Pfc.failBus_src (p : Pfc) :
    p.failBus.src = p.src := rfl
@[simp] theorem Pfc.failBus_dst (p : Pfc) :
    p.failBus.dst = p.dst := rfl
@[simp] theorem Pfc.failBus_engine (p : Pfc) :
    p.failBus.engine = none := rfl

@[simp] theorem Pfc.overrun_regBase (p : Pfc) :
    p.overrun.regBase = p.regBase := rfl
@[simp] theorem Pfc.overrun_inReset (p : Pfc) :
    p.overrun.inReset = p.inReset := rfl
@[simp] theorem Pfc.overrun_tierAllow (p : Pfc) :
    p.overrun.tierAllow = p.tierAllow := rfl
@[simp] theorem Pfc.overrun_tier (p : Pfc) :
    p.overrun.tier = p.tier := rfl
@[simp] theorem Pfc.overrun_err (p : Pfc) :
    p.overrun.err = p.err := rfl
@[simp] theorem Pfc.overrun_irqStatus (p : Pfc) :
    p.overrun.irqStatus = p.irqStatus ||| irqOvr := rfl
@[simp] theorem Pfc.overrun_irqEnable (p : Pfc) :
    p.overrun.irqEnable = p.irqEnable := rfl
@[simp] theorem Pfc.overrun_op (p : Pfc) :
    p.overrun.op = p.op := rfl
@[simp] theorem Pfc.overrun_width (p : Pfc) :
    p.overrun.width = p.width := rfl
@[simp] theorem Pfc.overrun_height (p : Pfc) :
    p.overrun.height = p.height := rfl
@[simp] theorem Pfc.overrun_src (p : Pfc) :
    p.overrun.src = p.src := rfl
@[simp] theorem Pfc.overrun_dst (p : Pfc) :
    p.overrun.dst = p.dst := rfl
@[simp] theorem Pfc.overrun_engine (p : Pfc) :
    p.overrun.engine = p.engine := rfl

@[simp] theorem State.setPfc_cfg (s : State) (p : Pfc) :
    (s.setPfc p).cfg = s.cfg := rfl
@[simp] theorem State.setPfc_before (s : State) (p : Pfc) :
    (s.setPfc p).before = s.before := rfl
@[simp] theorem State.setPfc_pfc (s : State) (p : Pfc) :
    (s.setPfc p).pfc = p := rfl
@[simp] theorem State.setPfc_after (s : State) (p : Pfc) :
    (s.setPfc p).after = s.after := rfl
@[simp] theorem State.setPfc_mem (s : State) (p : Pfc) :
    (s.setPfc p).mem = s.mem := rfl
@[simp] theorem State.setPfc_memMap (s : State) (p : Pfc) :
    (s.setPfc p).memMap = s.memMap := rfl
@[simp] theorem State.setPfc_host (s : State) (p : Pfc) :
    (s.setPfc p).host = s.host := rfl
@[simp] theorem State.setPfc_turns (s : State) (p : Pfc) :
    (s.setPfc p).turns = s.turns := rfl
@[simp] theorem State.setPfc_draws (s : State) (p : Pfc) :
    (s.setPfc p).draws = s.draws := rfl
@[simp] theorem State.setPfc_unseen (s : State) (p : Pfc) :
    (s.setPfc p).unseen = s.unseen := rfl

@[simp] theorem State.nextStmt_cfg (s : State) :
    s.nextStmt.cfg = s.cfg := rfl
@[simp] theorem State.nextStmt_before (s : State) :
    s.nextStmt.before = s.before := rfl
@[simp] theorem State.nextStmt_pfc (s : State) :
    s.nextStmt.pfc = s.pfc := rfl
@[simp] theorem State.nextStmt_after (s : State) :
    s.nextStmt.after = s.after := rfl
@[simp] theorem State.nextStmt_mem (s : State) :
    s.nextStmt.mem = s.mem := rfl
@[simp] theorem State.nextStmt_memMap (s : State) :
    s.nextStmt.memMap = s.memMap := rfl
@[simp] theorem State.nextStmt_host (s : State) :
    s.nextStmt.host = { s.host with pc := s.host.pc + 1 } := rfl
@[simp] theorem State.nextStmt_turns (s : State) :
    s.nextStmt.turns = s.turns := rfl
@[simp] theorem State.nextStmt_draws (s : State) :
    s.nextStmt.draws = s.draws := rfl
@[simp] theorem State.nextStmt_unseen (s : State) :
    s.nextStmt.unseen = s.unseen := rfl

@[simp] theorem State.bind_cfg (s : State) (name : Nat) (v : Word) :
    (s.bind name v).cfg = s.cfg := rfl
@[simp] theorem State.bind_before (s : State) (name : Nat) (v : Word) :
    (s.bind name v).before = s.before := rfl
@[simp] theorem State.bind_pfc (s : State) (name : Nat) (v : Word) :
    (s.bind name v).pfc = s.pfc := rfl
@[simp] theorem State.bind_after (s : State) (name : Nat) (v : Word) :
    (s.bind name v).after = s.after := rfl
@[simp] theorem State.bind_mem (s : State) (name : Nat) (v : Word) :
    (s.bind name v).mem = s.mem := rfl
@[simp] theorem State.bind_memMap (s : State) (name : Nat) (v : Word) :
    (s.bind name v).memMap = s.memMap := rfl
@[simp] theorem State.bind_host (s : State) (name : Nat) (v : Word) :
    (s.bind name v).host = { s.host with vars := Cells.write s.host.vars name v } := rfl
@[simp] theorem State.bind_turns (s : State) (name : Nat) (v : Word) :
    (s.bind name v).turns = s.turns := rfl
@[simp] theorem State.bind_draws (s : State) (name : Nat) (v : Word) :
    (s.bind name v).draws = s.draws := rfl
@[simp] theorem State.bind_unseen (s : State) (name : Nat) (v : Word) :
    (s.bind name v).unseen = s.unseen := rfl

@[simp] theorem State.see_cfg (s : State) (off : Nat) :
    (s.see off).cfg = s.cfg := by unfold State.see; split <;> rfl
@[simp] theorem State.see_before (s : State) (off : Nat) :
    (s.see off).before = s.before := by unfold State.see; split <;> rfl
@[simp] theorem State.see_pfc (s : State) (off : Nat) :
    (s.see off).pfc = s.pfc := by unfold State.see; split <;> rfl
@[simp] theorem State.see_after (s : State) (off : Nat) :
    (s.see off).after = s.after := by unfold State.see; split <;> rfl
@[simp] theorem State.see_mem (s : State) (off : Nat) :
    (s.see off).mem = s.mem := by unfold State.see; split <;> rfl
@[simp] theorem State.see_memMap (s : State) (off : Nat) :
    (s.see off).memMap = s.memMap := by unfold State.see; split <;> rfl
@[simp] theorem State.see_host (s : State) (off : Nat) :
    (s.see off).host = s.host := by unfold State.see; split <;> rfl
@[simp] theorem State.see_turns (s : State) (off : Nat) :
    (s.see off).turns = s.turns := by unfold State.see; split <;> rfl
@[simp] theorem State.see_draws (s : State) (off : Nat) :
    (s.see off).draws = s.draws := by unfold State.see; split <;> rfl
@[simp] theorem State.see_pfcs (s : State) (off : Nat) :
    (s.see off).pfcs = s.pfcs := by unfold State.see; split <;> rfl

/-- What seeing an end does: the bytes of that PFC, and no others, are no longer unseen. -/
theorem State.see_unseen (s : State) (off : Nat) :
    (s.see off).unseen = if s.pfc.showsEnd off then
      s.unseen.filter fun c => c.regBase != s.pfc.regBase else s.unseen := by
  unfold State.see; split <;> rfl

/-- A byte is unseen exactly when it is listed. -/
theorem State.unsees_iff (s : State) (a : Nat) :
    s.unsees a = true ↔ ∃ c ∈ s.unseen, c.addr = a := by
  simp [State.unsees]

@[simp] theorem Pfc.reset_regBase (cfg : Params) (b : Nat) :
    (Pfc.reset cfg b).regBase = b := rfl
@[simp] theorem Pfc.reset_inReset (cfg : Params) (b : Nat) :
    (Pfc.reset cfg b).inReset = false := rfl
@[simp] theorem Pfc.reset_tierAllow (cfg : Params) (b : Nat) :
    (Pfc.reset cfg b).tierAllow = presentTiers cfg := rfl
@[simp] theorem Pfc.reset_tier (cfg : Params) (b : Nat) :
    (Pfc.reset cfg b).tier = .scalar := rfl
@[simp] theorem Pfc.reset_err (cfg : Params) (b : Nat) :
    (Pfc.reset cfg b).err = .none := rfl
@[simp] theorem Pfc.reset_irqStatus (cfg : Params) (b : Nat) :
    (Pfc.reset cfg b).irqStatus = 0 := rfl
@[simp] theorem Pfc.reset_irqEnable (cfg : Params) (b : Nat) :
    (Pfc.reset cfg b).irqEnable = 0 := rfl
@[simp] theorem Pfc.reset_op (cfg : Params) (b : Nat) :
    (Pfc.reset cfg b).op = 0 := rfl
@[simp] theorem Pfc.reset_width (cfg : Params) (b : Nat) :
    (Pfc.reset cfg b).width = 0 := rfl
@[simp] theorem Pfc.reset_height (cfg : Params) (b : Nat) :
    (Pfc.reset cfg b).height = 0 := rfl
@[simp] theorem Pfc.reset_engine (cfg : Params) (b : Nat) :
    (Pfc.reset cfg b).engine = none := rfl

@[simp] theorem State.setPfc_others (s : State) (p : Pfc) : (s.setPfc p).others = s.others := rfl
@[simp] theorem State.setPfc_here (s : State) (p : Pfc) : (s.setPfc p).here = s.here := rfl
@[simp] theorem State.setPfc_pfcs (s : State) (p : Pfc) :
    (s.setPfc p).pfcs = s.before ++ p :: s.after := rfl
@[simp] theorem State.setPfc_self (s : State) : s.setPfc s.pfc = s := rfl
@[simp] theorem State.setPfc_setPfc (s : State) (p q : Pfc) :
    (s.setPfc p).setPfc q = s.setPfc q := rfl
@[simp] theorem State.nextStmt_pfcs (s : State) : s.nextStmt.pfcs = s.pfcs := rfl
@[simp] theorem State.nextStmt_others (s : State) : s.nextStmt.others = s.others := rfl
@[simp] theorem State.bind_pfcs (s : State) (name : Nat) (v : Word) :
    (s.bind name v).pfcs = s.pfcs := rfl

@[simp] theorem Three.get_set_same {α : Type} (t : Three α) (i : Ix) (x : α) :
    (t.set i x).get i = x := by cases i <;> rfl

theorem Three.get_set_other {α : Type} (t : Three α) {i j : Ix} (x : α) (h : j ≠ i) :
    (t.set i x).get j = t.get j := by cases i <;> cases j <;> first | rfl | exact absurd rfl h

end Sys2Proof.Machine
end

