-- ==== Sys2Proof/Laws/Command.lean ====
section
/-! SUPPORT. What a command can do: its START, its run to the end, and that `exec` is one of the two
(40_control.md R133, R135; 42_kernel_common.md R160). -/

namespace Sys2Proof.Machine

/-- The kernel of each command. -/
def kernelFor : Instr → KernelOut
  | .cvtP420Spuv => interleave420 false
  | .cvtP420Spvu => interleave420 true
  | .cvtPk444P444 => deinterleave444
  | .cvtPk422cSpuv => pk422To420 true false
  | .cvtPk422cSpvu => pk422To420 true true
  | .cvtPk422lSpuv => pk422To420 false false
  | .cvtPk422lSpvu => pk422To420 false true
  | .cvtRgbfP444 sel => rgbfToP444 sel
  | .cvtRgbfSpuv sel => rgbfTo420 sel false
  | .cvtRgbfSpvu sel => rgbfTo420 sel true

/-- Every command is the shared command operation at its formats and its kernel. -/
theorem exec_eq_advanceCommand (i : Instr) (s : State) :
    exec i s = advanceCommand i.src i.dst (kernelFor i) s := by cases i <;> rfl

/-- On an idle engine a command is its START. -/
theorem exec_idle {i : Instr} {s : State} (h : s.pfc.engine = none) :
    exec i s = startCommand i.src i.dst s := by
  rw [exec_eq_advanceCommand, advanceCommand, h]

/-- On a busy engine a command is its run to the end. -/
theorem exec_busy {i : Instr} {s : State} {run : Running} (h : s.pfc.engine = some run) :
    exec i s = finishCommand i.src i.dst (kernelFor i) run s := by
  rw [exec_eq_advanceCommand, advanceCommand, h]

/-- What `stridesCover` tests. -/
theorem stridesCover_iff (ps : Three LatchedPlane) (gs : List PlaneGeom) :
    stridesCover ps gs = true ↔ ∀ g ∈ gs, g.used ≤ (ps.get g.ix).s := by
  simp only [stridesCover, List.all_eq_true, decide_eq_true_eq]

/-- What `planesInRange` tests. -/
theorem planesInRange_iff (addrW : Nat) (ps : Three LatchedPlane) (gs : List PlaneGeom) :
    planesInRange addrW ps gs = true ↔ ∀ g ∈ gs,
      (ps.get g.ix).a + (g.rows - 1) * (ps.get g.ix).s + roundup g.used 32 ≤ 2 ^ addrW := by
  simp only [planesInRange, List.all_eq_true, decide_eq_true_eq]

/-- What `alignedPlanes` tests. -/
theorem alignedPlanes_iff (ps : Three LatchedPlane) (gs : List PlaneGeom) (n : Nat) :
    alignedPlanes ps gs n = true ↔
      ∀ g ∈ gs, (ps.get g.ix).a % n = 0 ∧ (ps.get g.ix).s % n = 0 := by
  simp only [alignedPlanes, List.all_eq_true, Bool.and_eq_true, beq_iff_eq]

/-- Everything a START can do, with the guard of each outcome. -/
theorem startCommand_cases (src dst : Format) (s : State) :
    (∃ e, startError s.cfg src dst (s.pfc.latch s.cfg) = some e
      ∧ startCommand src dst s = .next (s.setPfc (s.pfc.reject e))) ∨
    (startError s.cfg src dst (s.pfc.latch s.cfg) = none ∧
      ∃ t, t = selectTier s.cfg src dst (s.pfc.latch s.cfg) ∧
      (((s.pfc.latch s.cfg).overlapping src dst t = true
          ∧ startCommand src dst s = .fault .overlap) ∨
        ((s.pfc.latch s.cfg).overlapping src dst t = false ∧
          s.reachesBlock (((s.pfc.latch s.cfg).srcFootprints src t).flatten
            ++ ((s.pfc.latch s.cfg).dstFootprints dst t).flatten) = true
          ∧ startCommand src dst s = .fault .notOrdinaryMemory) ∨
        ((s.pfc.latch s.cfg).overlapping src dst t = false ∧
          s.reachesBlock (((s.pfc.latch s.cfg).srcFootprints src t).flatten
            ++ ((s.pfc.latch s.cfg).dstFootprints dst t).flatten) = false ∧
          (s.others.any fun q => racing (s.pfc.accept (s.pfc.latch s.cfg) t s.mem) q) = true
          ∧ startCommand src dst s = .fault .race) ∨
        ((s.pfc.latch s.cfg).overlapping src dst t = false ∧
          s.reachesBlock (((s.pfc.latch s.cfg).srcFootprints src t).flatten
            ++ ((s.pfc.latch s.cfg).dstFootprints dst t).flatten) = false ∧
          (s.others.any fun q => racing (s.pfc.accept (s.pfc.latch s.cfg) t s.mem) q) = false
          ∧ startCommand src dst s
            = .next (s.setPfc (s.pfc.accept (s.pfc.latch s.cfg) t s.mem))))) := by
  cases he : startError s.cfg src dst (s.pfc.latch s.cfg) with
  | some e => exact .inl ⟨e, rfl, by simp only [startCommand, he]⟩
  | none =>
    refine .inr ⟨rfl, _, rfl, ?_⟩
    simp only [startCommand, he]
    cases (s.pfc.latch s.cfg).overlapping src dst
        (selectTier s.cfg src dst (s.pfc.latch s.cfg)) with
    | true => simp
    | false =>
      cases s.reachesBlock (((s.pfc.latch s.cfg).srcFootprints src
            (selectTier s.cfg src dst (s.pfc.latch s.cfg))).flatten
          ++ ((s.pfc.latch s.cfg).dstFootprints dst
            (selectTier s.cfg src dst (s.pfc.latch s.cfg))).flatten) with
      | true => simp
      | false =>
        cases s.others.any fun q => racing (s.pfc.accept (s.pfc.latch s.cfg)
            (selectTier s.cfg src dst (s.pfc.latch s.cfg)) s.mem) q <;> simp

/-- A START that answers a next state changes the addressed PFC only: rejected, or accepted. -/
theorem startCommand_next {src dst : Format} {s t : State} (h : startCommand src dst s = .next t) :
    (∃ e, startError s.cfg src dst (s.pfc.latch s.cfg) = some e ∧ t = s.setPfc (s.pfc.reject e)) ∨
    (∃ tr, acceptable s.cfg src dst (s.pfc.latch s.cfg) tr
      ∧ (∀ q ∈ s.others, racing (s.pfc.accept (s.pfc.latch s.cfg) tr s.mem) q = false)
      ∧ t = s.setPfc (s.pfc.accept (s.pfc.latch s.cfg) tr s.mem)) := by
  rcases startCommand_cases src dst s with ⟨e, he, ho⟩ | ⟨he, tr, htr, hc⟩
  · rw [ho] at h; cases h; exact .inl ⟨e, he, rfl⟩
  · rcases hc with ⟨-, ho⟩ | ⟨-, -, ho⟩ | ⟨-, -, -, ho⟩ | ⟨hov, -, hr, ho⟩ <;> rw [ho] at h <;>
      cases h
    refine .inr ⟨tr, ⟨he, htr, hov⟩, fun q hq => ?_, rfl⟩
    simpa using List.any_eq_false.1 hr q hq

/-- A run to the end that answers a next state, in full. -/
theorem finishCommand_next {src dst : Format} {out : KernelOut} {run : Running} {s t : State}
    (h : finishCommand src dst out run s = .next t) :
    run.lc.mapped s.memMap src dst s.pfc.tier = true ∧
      t = { s with
        pfc := s.pfc.complete
        mem := (drawOver
          (Cells.writeAll s.mem (run.lc.dstWrites dst (out s.cfg run.lc run.image))) s.draws
          (run.lc.dstWindows dst s.pfc.tier)).1
        draws := (drawOver
          (Cells.writeAll s.mem (run.lc.dstWrites dst (out s.cfg run.lc run.image))) s.draws
          (run.lc.dstWindows dst s.pfc.tier)).2
        unseen := unseenAfter s.unseen s.pfc.regBase
          (run.lc.dstFootprints dst s.pfc.tier).flatten } := by
  unfold finishCommand at h
  split at h
  · rename_i hm; cases h; exact ⟨hm, rfl⟩
  · cases h

/-- A mapped run to the end answers a next state. -/
theorem finishCommand_mapped {src dst : Format} {out : KernelOut} {run : Running} {s : State}
    (h : run.lc.mapped s.memMap src dst s.pfc.tier = true) :
    ∃ t, finishCommand src dst out run s = .next t := by
  simp [finishCommand, h]

/-- The stride and dimension checks of an acceptable command. -/
theorem acceptable_checks {cfg : Params} {src dst : Format} {lc : Latched} {t : Tier}
    (h : acceptable cfg src dst lc t) :
    ¬ (dst = .spvu ∧ cfg.hasSpvuDst = false) ∧ dimsOk src dst lc = true
      ∧ stridesOk src dst lc = true ∧ rangeOk cfg.addrW src dst lc = true := by
  have h := h.1
  unfold startError at h
  split_ifs at h with h1 h2 h3 h4
  exact ⟨h1, by simpa using h2, by simpa using h3, by simpa using h4⟩

/-- A vector tier is selected only when W is a multiple of its lane width (47_dispatch.md R242). -/
theorem selectTier_width (cfg : Params) (src dst : Format) (lc : Latched) :
    lc.w % laneWidth (selectTier cfg src dst lc) = 0 := by
  have key : ∀ g lanes, disqualified src dst lc g lanes = false → lc.w % lanes = 0 := by
    intro g lanes h
    simp only [disqualified, Bool.or_eq_false_iff, bne_eq_false_iff_eq] at h
    exact h.1.2
  unfold selectTier
  split_ifs with h1 h2
  · simp only [Bool.and_eq_true, Bool.not_eq_true'] at h1
    exact key 32 32 h1.2
  · simp only [Bool.and_eq_true, Bool.not_eq_true'] at h2
    exact key 16 16 h2.2
  · exact Nat.mod_one _

/-- The destination planes of the ten commands have W used bytes a row (30_encoding.md R93, R103). -/
theorem dstPlanes_used (i : Instr) {lc : Latched} {g : PlaneGeom} (hg : g ∈ lc.dstPlanes i.dst) :
    g.used = lc.w := by
  cases i <;>
    simp only [Latched.dstPlanes, Instr.dst, formatPlanes, List.mem_cons, List.not_mem_nil,
      or_false] at hg <;>
    rcases hg with rfl | rfl | rfl <;> rfl

/-- Every destination overshoot window of an acceptable command is empty (20_memory.md R67). -/
theorem dstWindows_eq_nil {cfg : Params} {i : Instr} {lc : Latched} {t : Tier}
    (h : acceptable cfg i.src i.dst lc t) : lc.dstWindows i.dst t = [] := by
  have hw := selectTier_width cfg i.src i.dst lc
  rw [← h.2.1] at hw
  rw [Latched.dstWindows, List.flatMap_eq_nil_iff]
  intro g hg
  rw [List.flatMap_eq_nil_iff]
  intro r _
  rw [dstPlanes_used i hg, roundup_of_dvd (laneWidth_pos t) hw]
  simp

/-- The memory an acceptable command leaves: its value at each used destination byte, and every other
byte as it was. -/
theorem finishCommand_memory {i : Instr} {out : KernelOut} {run : Running} {s t : State}
    (ha : acceptable s.cfg i.src i.dst run.lc s.pfc.tier)
    (h : finishCommand i.src i.dst out run s = .next t) :
    (∀ g ∈ run.lc.dstPlanes i.dst, ∀ r < g.rows, ∀ k < g.used,
      Cells.read t.mem (run.lc.dstAddr g.ix r k) = out s.cfg run.lc run.image g.ix r k) ∧
    (∀ a, (∀ g ∈ run.lc.dstPlanes i.dst, ∀ r < g.rows, ∀ k < g.used,
        a ≠ run.lc.dstAddr g.ix r k) →
      Cells.read t.mem a = Cells.read s.mem a) := by
  obtain ⟨-, rfl⟩ := finishCommand_next h
  obtain ⟨-, -, hs, -⟩ := acceptable_checks ha
  simp only [dstWindows_eq_nil ha, drawOver_nil]
  constructor
  · intro g hg r hr k hk
    refine Cells.read_writeAll_named _ _ _ _
      ((Latched.mem_dstWrites _ _ _ _).2 ⟨g, hg, r, hr, k, hk, rfl⟩) ?_
    intro c hc he
    obtain ⟨g', hg', r', hr', k', hk', rfl⟩ := (Latched.mem_dstWrites _ _ _ _).1 hc
    obtain ⟨rfl, rfl, rfl⟩ := Latched.dstAddr_inj hs ha.2.2 hg' hg hr' hr hk' hk he
    rfl
  · intro a hn
    refine Cells.read_writeAll_other _ _ _ fun c hc => ?_
    obtain ⟨g, hg, r, hr, k, hk, rfl⟩ := (Latched.mem_dstWrites _ _ _ _).1 hc
    exact (hn g hg r hr k hk).symm

/-- What a command's run to the end changes outside memory: the addressed PFC ends its command. -/
theorem exec_busy_next {i : Instr} {run : Running} {s t : State} (hr : s.pfc.engine = some run)
    (h : exec i s = .next t) :
    t = { s with
      pfc := s.pfc.complete
      mem := t.mem
      draws := t.draws
      unseen := unseenAfter s.unseen s.pfc.regBase
        (run.lc.dstFootprints i.dst s.pfc.tier).flatten } := by
  rw [exec_busy hr] at h
  obtain ⟨-, rfl⟩ := finishCommand_next h
  rfl

/-- After a command's run to the end the host has yet to see its destination bytes, and those it had yet to
see before. -/
theorem exec_busy_unsees {i : Instr} {run : Running} {s t : State} (hr : s.pfc.engine = some run)
    (h : exec i s = .next t) (a : Nat) : t.unsees a = true ↔
      anyHas (run.lc.dstFootprints i.dst s.pfc.tier).flatten a = true ∨ s.unsees a = true := by
  rw [State.unsees_iff, State.unsees_iff, exec_busy_next hr h]
  simp only [mem_unseenAfter]
  constructor
  · rintro ⟨c, ⟨hc, -⟩ | ⟨-, hc⟩, rfl⟩
    · exact .inl hc
    · exact .inr ⟨c, hc, rfl⟩
  · intro h
    by_cases hf : anyHas (run.lc.dstFootprints i.dst s.pfc.tier).flatten a = true
    · exact ⟨⟨a, s.pfc.regBase⟩, .inl ⟨hf, rfl⟩, rfl⟩
    · obtain ⟨c, hc, rfl⟩ := h.resolve_left hf
      exact ⟨c, .inr ⟨by simpa using hf, hc⟩, rfl⟩

end Sys2Proof.Machine
end

