-- ==== Sys2Proof/Laws/Float.lean ====
section
/-! SUPPORT. What packing, unpacking and rounding do to binary32 encodings, on the magnitudes they stand
for. A magnitude is counted in units of `2^-149`, the smallest binary32 has. -/

namespace Sys2Proof.Machine

/-- The magnitude of the encoding `b`, without its sign, in units of `2^-149`. -/
def encodedMag (b : Nat) : Nat :=
  if b < 2 ^ 23 then b else (2 ^ 23 + b % 2 ^ 23) * 2 ^ (b / 2 ^ 23 - 1)

/-- The encoding with last place `Q` and significand `sig` stands for `sig × 2^Q`; `sig` may carry. -/
theorem encodedMag_of_parts {Q sig : Nat} (h : Q = 0 ∨ 2 ^ 23 ≤ sig) (hs : sig ≤ 2 ^ 24) :
    encodedMag (Q * 2 ^ 23 + sig) = sig * 2 ^ Q := by
  unfold encodedMag
  by_cases h24 : sig = 2 ^ 24
  · subst h24
    rw [if_neg (by omega), show (Q * 2 ^ 23 + 2 ^ 24) % 2 ^ 23 = 0 by omega,
      show (Q * 2 ^ 23 + 2 ^ 24) / 2 ^ 23 - 1 = Q + 1 by omega, Nat.pow_succ]
    omega
  · by_cases h23 : sig < 2 ^ 23
    · obtain rfl : Q = 0 := by omega
      rw [if_pos (by omega)]; omega
    · rw [if_neg (by omega), show (Q * 2 ^ 23 + sig) % 2 ^ 23 = sig - 2 ^ 23 by omega,
        show (Q * 2 ^ 23 + sig) / 2 ^ 23 - 1 = Q by omega, show 2 ^ 23 + (sig - 2 ^ 23) = sig by omega]

/-- Every encoding is a last place and a significand. -/
theorem encoding_parts (b : Nat) :
    ∃ Q sig, b = Q * 2 ^ 23 + sig ∧ (Q = 0 ∨ 2 ^ 23 ≤ sig) ∧ sig < 2 ^ 24 := by
  by_cases h : b < 2 ^ 23
  · exact ⟨0, b, by omega, .inl rfl, by omega⟩
  · exact ⟨b / 2 ^ 23 - 1, 2 ^ 23 + b % 2 ^ 23, by omega, by omega, by omega⟩

/-- Greater encodings stand for greater magnitudes. -/
theorem encodedMag_lt_succ (b : Nat) : encodedMag b < encodedMag (b + 1) := by
  obtain ⟨Q, sig, rfl, hQ, hs⟩ := encoding_parts b
  rw [Nat.add_assoc, encodedMag_of_parts hQ (by omega), encodedMag_of_parts (by omega) (by omega)]
  exact Nat.mul_lt_mul_of_pos_right (by omega) (Nat.two_pow_pos _)

theorem encodedMag_lt {a b : Nat} (h : a < b) : encodedMag a < encodedMag b :=
  strictMono_nat_of_lt_succ encodedMag_lt_succ h

theorem encodedMag_le {a b : Nat} (h : a ≤ b) : encodedMag a ≤ encodedMag b :=
  (strictMono_nat_of_lt_succ encodedMag_lt_succ).monotone h

/-- Powers of two multiply by adding their exponents. -/
theorem two_pow_mul {a b c : Nat} (h : a + b = c) : 2 ^ a * 2 ^ b = 2 ^ c := by rw [← h, Nat.pow_add]

/-- What a finite encoding stands for. -/
theorem unpack32_fin {w : Word} {neg : Bool} {m : Nat} {e : Int} (h : unpack32 w = .fin neg m e) :
    neg = w.getLsbD 31 ∧ -149 ≤ e ∧ w.toNat % 2 ^ 31 < 0x7F800000
      ∧ m * 2 ^ (e + 149).toNat = encodedMag (w.toNat % 2 ^ 31) := by
  have hw := w.isLt
  simp only [unpack32, BitVec.extractLsb'_toNat, Nat.shiftRight_eq_div_pow, Nat.pow_zero,
    Nat.div_one] at h
  split_ifs at h with h1 h2 h3 <;> cases h
  · refine ⟨rfl, by omega, by omega, ?_⟩
    rw [encodedMag, if_pos (by omega)]
    rw [show ((-149 : Int) + 149).toNat = 0 by decide]
    omega
  · refine ⟨rfl, by simp only [Int.ofNat_eq_natCast]; omega, by omega, ?_⟩
    rw [encodedMag, if_neg (by omega)]
    congr 1
    · omega
    · congr 1; simp only [Int.ofNat_eq_natCast]; omega

/-- The sign of a packed encoding. -/
theorem pack32_sign (neg : Bool) {b : Nat} (h : b < 2 ^ 31) : (pack32 neg b).getLsbD 31 = neg := by
  have hn : (pack32 neg b).toNat = (if neg then b + 2 ^ 31 else b) := by
    rw [pack32, BitVec.toNat_ofNat]; split <;> omega
  rw [BitVec.getLsbD, Nat.testBit_eq_decide_div_mod_eq, hn]
  cases neg <;> simp <;> omega

/-- A finite encoding, packed with its sign, unpacks as finite. -/
theorem unpack32_pack32 (neg : Bool) {b : Nat} (h : b < 0x7F800000) :
    (∃ m e, unpack32 (pack32 neg b) = .fin neg m e) ∧ (pack32 neg b).toNat % 2 ^ 31 = b := by
  have hn : (pack32 neg b).toNat = (if neg then b + 2 ^ 31 else b) := by
    rw [pack32, BitVec.toNat_ofNat]; split <;> omega
  have hb : (pack32 neg b).getLsbD 31 = neg := pack32_sign neg (by omega)
  refine ⟨?_, by rw [hn]; split <;> omega⟩
  unfold unpack32
  simp only [BitVec.extractLsb'_toNat, Nat.shiftRight_eq_div_pow, hb, hn]
  rw [if_neg (by split <;> omega)]
  split_ifs <;> exact ⟨_, _, rfl⟩

/-- Rounding keeps the sign. -/
theorem round32_sign (neg : Bool) (m : Nat) (e : Int) : (round32 neg m e).getLsbD 31 = neg := by
  unfold round32 inf32
  split <;> exact pack32_sign _ (by omega)

/-- A zero stays a zero, whatever its exponent (46_rgb_to_yuv.md R226). -/
@[simp] theorem round32_zero (neg : Bool) (e : Int) : round32 neg 0 e = pack32 neg 0 := rfl

@[simp] theorem unpack32_inf32 (neg : Bool) : unpack32 (inf32 neg) = .inf neg := by
  cases neg <;> decide

@[simp] theorem unpack32_nan32 : unpack32 nan32 = .nan := by decide

theorem isNaN32_iff (d : Word) : isNaN32 d = true ↔ unpack32 d = .nan := by
  unfold isNaN32; cases unpack32 d <;> simp

/-- The product of two finite values is their exact product, rounded. -/
theorem fmul_fin {a b : Word} {s t : Bool} {m n : Nat} {e f : Int} (ha : unpack32 a = .fin s m e)
    (hb : unpack32 b = .fin t n f) : fmul a b = round32 (s != t) (m * n) (e + f) := by
  unfold fmul; rw [ha, hb]

/-- `shiftRne` is the nearest integer to `m / 2^k`, the even one of two. -/
theorem shiftRne_nearest (m k : Nat) :
    2 * m ≤ (2 * shiftRne m k + 1) * 2 ^ k ∧ 2 * shiftRne m k * 2 ^ k ≤ 2 * m + 2 ^ k
      ∧ (2 * m = (2 * shiftRne m k + 1) * 2 ^ k ∨ 2 * shiftRne m k * 2 ^ k = 2 * m + 2 ^ k →
          shiftRne m k % 2 = 0) := by
  have hp := Nat.two_pow_pos k
  have hd := Nat.div_add_mod m (2 ^ k)
  have hm := Nat.mod_lt m hp
  unfold shiftRne
  generalize 2 ^ k = p at *
  generalize hq : m / p = q at *
  generalize hr : m % p = r at *
  have e1 : (2 * q + 1) * p = 2 * (p * q) + p := by ring
  have e2 : 2 * q * p = 2 * (p * q) := by ring
  have e3 : (2 * (q + 1) + 1) * p = 2 * (p * q) + 3 * p := by ring
  have e4 : 2 * (q + 1) * p = 2 * (p * q) + 2 * p := by ring
  simp only []
  split_ifs with h
  · rw [e3, e4]; refine ⟨by omega, by omega, fun h' => ?_⟩; omega
  · rw [e1, e2]; refine ⟨by omega, by omega, fun h' => ?_⟩; omega

theorem shiftRne_le {m k n : Nat} (h : m < n * 2 ^ k) : shiftRne m k ≤ n := by
  have : m / 2 ^ k < n := (Nat.div_lt_iff_lt_mul (Nat.two_pow_pos k)).2 h
  unfold shiftRne
  simp only []
  split_ifs <;> omega

theorem le_shiftRne {m k n : Nat} (h : n * 2 ^ k ≤ m) : n ≤ shiftRne m k := by
  have : n ≤ m / 2 ^ k := (Nat.le_div_iff_mul_le (Nat.two_pow_pos k)).2 h
  unfold shiftRne
  simp only []
  split_ifs <;> omega

/-- `m` has `bitLength m` bits. -/
theorem bitLength_bounds {m : Nat} (h : m ≠ 0) :
    1 ≤ bitLength m ∧ 2 ^ (bitLength m - 1) ≤ m ∧ m < 2 ^ bitLength m := by
  rw [bitLength, if_neg h]
  exact ⟨by omega, by simpa using Nat.log2_self_le h, by simpa using Nat.lt_log2_self⟩

/-- The encoding `roundBits` gives stands for a magnitude nearest to `m × 2^e`, the even one of two: in
units of `2^-k`, twice the exact magnitude lies between the sums with the neighbours. -/
theorem roundBits_nearest (m : Nat) (e : Int) (k : Nat) (hk : 149 ≤ k) (he : 0 ≤ e + k) :
    2 * (m * 2 ^ (e + k).toNat)
        ≤ (encodedMag (roundBits m e) + encodedMag (roundBits m e + 1)) * 2 ^ (k - 149)
    ∧ (0 < roundBits m e →
        (encodedMag (roundBits m e - 1) + encodedMag (roundBits m e)) * 2 ^ (k - 149)
          ≤ 2 * (m * 2 ^ (e + k).toNat))
    ∧ (2 * (m * 2 ^ (e + k).toNat)
          = (encodedMag (roundBits m e) + encodedMag (roundBits m e + 1)) * 2 ^ (k - 149) ∨
        (0 < roundBits m e ∧
          (encodedMag (roundBits m e - 1) + encodedMag (roundBits m e)) * 2 ^ (k - 149)
            = 2 * (m * 2 ^ (e + k).toNat)) →
        roundBits m e % 2 = 0) := by
  by_cases hm : m = 0
  · subst hm
    have h0 : roundBits 0 e = 0 := rfl
    simp [h0]
  obtain ⟨hl, hlo, hhi⟩ := bitLength_bounds hm
  obtain ⟨Q, sig, hB, hsig, hQ, hlow, hU⟩ : ∃ Q sig : Nat, roundBits m e = Q * 2 ^ 23 + sig
      ∧ sig ≤ 2 ^ 24 ∧ (Q = 0 ∨ 2 ^ 23 ≤ sig)
      ∧ (Q ≠ 0 → 2 ^ 23 * (2 ^ Q * 2 ^ (k - 149)) ≤ m * 2 ^ (e + k).toNat)
      ∧ (sig = 2 ^ 24 → m * 2 ^ (e + k).toNat ≤ sig * (2 ^ Q * 2 ^ (k - 149)))
      ∧ (2 * (m * 2 ^ (e + k).toNat) ≤ (2 * sig + 1) * (2 ^ Q * 2 ^ (k - 149))
        ∧ 2 * sig * (2 ^ Q * 2 ^ (k - 149)) ≤ 2 * (m * 2 ^ (e + k).toNat) + 2 ^ Q * 2 ^ (k - 149)
        ∧ (2 * (m * 2 ^ (e + k).toNat) = (2 * sig + 1) * (2 ^ Q * 2 ^ (k - 149)) ∨
            2 * sig * (2 ^ Q * 2 ^ (k - 149))
              = 2 * (m * 2 ^ (e + k).toNat) + 2 ^ Q * 2 ^ (k - 149) → sig % 2 = 0)) := by
    generalize hq : lastPlace m e = q
    have hq' : q = max (e + Int.ofNat (bitLength m) - 24) (-149) := hq ▸ rfl
    have hu : 2 ^ (q + 149).toNat * 2 ^ (k - 149) = 2 ^ (q + k).toNat := by
      exact two_pow_mul (by omega)
    refine ⟨(q + 149).toNat, if q ≤ e then m * 2 ^ (e - q).toNat else shiftRne m (q - e).toNat, ?_⟩
    rw [roundBits, if_neg hm, hq, hu]
    refine ⟨rfl, ?_⟩
    simp only [Int.ofNat_eq_natCast] at hq'
    by_cases hqe : q ≤ e
    · simp only [if_pos hqe]
      have hx : m * 2 ^ (e + k).toNat = m * 2 ^ (e - q).toNat * 2 ^ (q + k).toNat := by
        rw [Nat.mul_assoc, two_pow_mul (c := (e + k).toNat) (by omega)]
      have hlt : m * 2 ^ (e - q).toNat < 2 ^ 24 := by
        calc m * 2 ^ (e - q).toNat < 2 ^ bitLength m * 2 ^ (e - q).toNat :=
              Nat.mul_lt_mul_of_pos_right hhi (Nat.two_pow_pos _)
          _ ≤ 2 ^ 24 := by rw [← Nat.pow_add]; exact Nat.pow_le_pow_right (by omega) (by omega)
      have hge : (q + 149).toNat = 0 ∨ 2 ^ 23 ≤ m * 2 ^ (e - q).toNat := by
        by_cases h0 : (q + 149).toNat = 0
        · exact .inl h0
        · right
          calc 2 ^ 23 = 2 ^ (bitLength m - 1) * 2 ^ (e - q).toNat :=
                (two_pow_mul (by omega)).symm
            _ ≤ _ := Nat.mul_le_mul_right _ hlo
      rw [hx]
      generalize m * 2 ^ (e - q).toNat = g at *
      have hp := Nat.two_pow_pos (q + k).toNat
      generalize 2 ^ (q + k).toNat = u at *
      refine ⟨by omega, hge, fun h0 => Nat.mul_le_mul_right _ (by omega), fun h => le_refl _, ?_, ?_, ?_⟩
      · have : (2 * g + 1) * u = 2 * (g * u) + u := by ring
        omega
      · have : 2 * g * u = 2 * (g * u) := by ring
        omega
      · have e1 : (2 * g + 1) * u = 2 * (g * u) + u := by ring
        have e2 : 2 * g * u = 2 * (g * u) := by ring
        omega
    · simp only [if_neg hqe]
      have hx : 2 ^ (q + k).toNat = 2 ^ (q - e).toNat * 2 ^ (e + k).toNat :=
        (two_pow_mul (by omega)).symm
      have hlt : m < 2 ^ 24 * 2 ^ (q - e).toNat := by
        rw [← Nat.pow_add]
        exact lt_of_lt_of_le hhi (Nat.pow_le_pow_right (by omega) (by omega))
      have hge : (q + 149).toNat = 0 ∨ 2 ^ 23 * 2 ^ (q - e).toNat ≤ m := by
        by_cases h0 : (q + 149).toNat = 0
        · exact .inl h0
        · right
          exact le_trans (le_of_eq (two_pow_mul (by omega))) hlo
      obtain ⟨n1, n2, n3⟩ := shiftRne_nearest m (q - e).toNat
      have hle := shiftRne_le hlt
      have hge' : (q + 149).toNat = 0 ∨ 2 ^ 23 ≤ shiftRne m (q - e).toNat :=
        hge.imp_right le_shiftRne
      rw [hx]
      generalize shiftRne m (q - e).toNat = g at *
      have hp := Nat.two_pow_pos (e + k).toNat
      generalize 2 ^ (e + k).toNat = u at *
      generalize 2 ^ (q - e).toNat = d at *
      refine ⟨hle, hge', fun h0 => ?_, fun h => ?_, ?_, ?_, ?_⟩
      · rw [← Nat.mul_assoc]; exact Nat.mul_le_mul_right _ (by omega)
      · subst h; rw [← Nat.mul_assoc]; exact Nat.mul_le_mul_right _ (by omega)
      · calc 2 * (m * u) = 2 * m * u := by ring
          _ ≤ (2 * g + 1) * d * u := Nat.mul_le_mul_right _ n1
          _ = _ := by ring
      · calc 2 * g * (d * u) = 2 * g * d * u := by ring
          _ ≤ (2 * m + d) * u := Nat.mul_le_mul_right _ n2
          _ = _ := by ring
      · rintro (h | h)
        · refine n3 (.inl (Nat.eq_of_mul_eq_mul_right hp ?_))
          calc 2 * m * u = 2 * (m * u) := by ring
            _ = _ := h
            _ = _ := by ring
        · refine n3 (.inr (Nat.eq_of_mul_eq_mul_right hp ?_))
          calc 2 * g * d * u = 2 * g * (d * u) := by ring
            _ = _ := h
            _ = _ := by ring
  obtain ⟨hcarry, u1, u2, u3⟩ := hU
  generalize roundBits m e = B at *
  have hpar : B % 2 = sig % 2 := by omega
  have hmag : encodedMag B = sig * 2 ^ Q := hB ▸ encodedMag_of_parts hQ hsig
  have hup : sig < 2 ^ 24 → encodedMag (B + 1) = (sig + 1) * 2 ^ Q := fun h => by
    rw [hB, Nat.add_assoc]; exact encodedMag_of_parts (by omega) (by omega)
  have hdown : 0 < sig → (Q = 0 ∨ 2 ^ 23 < sig) → encodedMag (B - 1) = (sig - 1) * 2 ^ Q :=
    fun h h' => by
      rw [show B - 1 = Q * 2 ^ 23 + (sig - 1) by omega]
      exact encodedMag_of_parts (by omega) (by omega)
  have hlt := encodedMag_lt_succ B
  have hlt' : 0 < B → encodedMag (B - 1) < encodedMag B := fun h => encodedMag_lt (by omega)
  rw [hpar]
  have hpp := Nat.two_pow_pos (k - 149)
  generalize m * 2 ^ (e + k).toNat = V at *
  generalize 2 ^ (k - 149) = p at *
  generalize encodedMag B = c at *
  generalize encodedMag (B + 1) = d at *
  generalize encodedMag (B - 1) = a at *
  have hcp : c * p = sig * (2 ^ Q * p) := by rw [hmag, Nat.mul_assoc]
  have hdp : sig < 2 ^ 24 → d * p = sig * (2 ^ Q * p) + 2 ^ Q * p := fun h => by
    rw [hup h]; ring
  have hap : 0 < sig → (Q = 0 ∨ 2 ^ 23 < sig) → a * p + 2 ^ Q * p = sig * (2 ^ Q * p) :=
    fun h h' => by
      rw [hdown h h']
      obtain ⟨n, rfl⟩ : ∃ n, sig = n + 1 := ⟨sig - 1, by omega⟩
      simp only [Nat.add_sub_cancel]; ring
  have hcd : c * p < d * p := Nat.mul_lt_mul_of_pos_right hlt hpp
  have hac : 0 < B → a * p < c * p := fun h => Nat.mul_lt_mul_of_pos_right (hlt' h) hpp
  rw [Nat.add_mul, Nat.add_mul]
  have e1 : (2 * sig + 1) * (2 ^ Q * p) = 2 * (sig * (2 ^ Q * p)) + 2 ^ Q * p := by ring
  have e2 : 2 * sig * (2 ^ Q * p) = 2 * (sig * (2 ^ Q * p)) := by ring
  have e3 : sig = 2 ^ 23 → 2 ^ 23 * (2 ^ Q * p) = sig * (2 ^ Q * p) := fun h => by rw [h]
  generalize sig * (2 ^ Q * p) = w at *
  generalize 2 ^ Q * p = u at *
  rw [e1] at u1 u3
  rw [e2] at u2 u3
  have hz : sig = 0 → Q = 0 := fun h => by omega
  by_cases h24 : sig = 2 ^ 24
  · have := hcarry h24
    have := hap (by omega) (by omega)
    refine ⟨by omega, fun _ => by omega, fun h => by omega⟩
  · have := hdp (by omega)
    by_cases h23 : 0 < sig ∧ (Q = 0 ∨ 2 ^ 23 < sig)
    · have := hap h23.1 h23.2
      refine ⟨by omega, fun _ => by omega, fun h => u3 (by omega)⟩
    · refine ⟨by omega, fun h => ?_, fun h => ?_⟩
      · have : sig = 2 ^ 23 := by omega
        have := hlow (by omega)
        have := hac h
        have := e3 (by omega)
        omega
      · rcases h with h | ⟨h0, h⟩
        · exact u3 (by omega)
        · have := hlow (by omega)
          have := hac h0
          have := e3 (by omega)
          omega

end Sys2Proof.Machine
end

