-- ==== Sys2Proof/Laws/PerInstr.lean ====
section
/-! SUPPORT. A statement about every command as syntax, one lemma a command. -/

namespace Sys2Proof.Laws

/-- The fields of a command's OP word are its formats and its selector, the reserved bits are 0, and it
needs CAPS.HAS_SPVU_DST exactly when it writes SPVU (30_encoding.md R90, R98, R103). -/
def OpFields.Statement (i : Instr) : Prop :=
  opSrcf (encodeOp i) = i.src.code ∧ opDstf (encodeOp i) = i.dst.code
    ∧ opSel (encodeOp i) = i.selBits ∧ opRsv (encodeOp i) = 0
    ∧ i.writesSpvu = decide (i.dst = .spvu)

theorem OpFields.cvtP420Spuv : OpFields.Statement .cvtP420Spuv := by unfold Statement; decide +kernel
theorem OpFields.cvtP420Spvu : OpFields.Statement .cvtP420Spvu := by unfold Statement; decide +kernel
theorem OpFields.cvtPk444P444 : OpFields.Statement .cvtPk444P444 := by unfold Statement; decide +kernel
theorem OpFields.cvtPk422cSpuv : OpFields.Statement .cvtPk422cSpuv := by unfold Statement; decide +kernel
theorem OpFields.cvtPk422cSpvu : OpFields.Statement .cvtPk422cSpvu := by unfold Statement; decide +kernel
theorem OpFields.cvtPk422lSpuv : OpFields.Statement .cvtPk422lSpuv := by unfold Statement; decide +kernel
theorem OpFields.cvtPk422lSpvu : OpFields.Statement .cvtPk422lSpvu := by unfold Statement; decide +kernel
theorem OpFields.cvtRgbfP444 (sel : Sel) : OpFields.Statement (.cvtRgbfP444 sel) := by
  cases sel <;> (unfold Statement; decide +kernel)
theorem OpFields.cvtRgbfSpuv (sel : Sel) : OpFields.Statement (.cvtRgbfSpuv sel) := by
  cases sel <;> (unfold Statement; decide +kernel)
theorem OpFields.cvtRgbfSpvu (sel : Sel) : OpFields.Statement (.cvtRgbfSpvu sel) := by
  cases sel <;> (unfold Statement; decide +kernel)

end Sys2Proof.Laws
end

