-- ==== Sys2Proof/Laws/Register.lean ====
section
/-! SUPPORT. The register map: offsets name registers, and what a register write reaches. -/

namespace Sys2Proof.Machine

/-- Every register is found at its offset. -/
@[simp] theorem regAt_regOffset (r : Reg) : regAt (regOffset r) = some r := by
  cases r with
  | srcAddrLo n | srcAddrHi n | srcStride n | dstAddrLo n | dstAddrHi n | dstStride n =>
    cases n <;> decide
  | _ => decide

/-- The register found at an offset has that offset. -/
theorem regOffset_of_regAt {off : Nat} {r : Reg} (h : regAt off = some r) : regOffset r = off := by
  have := List.find?_some h
  simpa using this

@[simp] theorem Pfc.readAt_regOffset (cfg : Params) (p : Pfc) (r : Reg) :
    p.readAt cfg (regOffset r) = p.readReg cfg r := by simp [Pfc.readAt]

/-- A register write reaches no state but the register: not the running command, not STATUS. -/
theorem Pfc.writeReg_keeps (cfg : Params) (p : Pfc) (r : Reg) (v : Word) :
    (p.writeReg cfg r v).engine = p.engine ∧ (p.writeReg cfg r v).tier = p.tier
      ∧ (p.writeReg cfg r v).err = p.err ∧ (p.writeReg cfg r v).regBase = p.regBase
      ∧ (p.writeReg cfg r v).inReset = p.inReset := by
  cases r <;> exact ⟨rfl, rfl, rfl, rfl, rfl⟩

@[simp] theorem Pfc.writeReg_engine (cfg : Params) (p : Pfc) (r : Reg) (v : Word) :
    (p.writeReg cfg r v).engine = p.engine := (p.writeReg_keeps cfg r v).1

@[simp] theorem Pfc.writeReg_tier (cfg : Params) (p : Pfc) (r : Reg) (v : Word) :
    (p.writeReg cfg r v).tier = p.tier := (p.writeReg_keeps cfg r v).2.1

@[simp] theorem Pfc.writeReg_err (cfg : Params) (p : Pfc) (r : Reg) (v : Word) :
    (p.writeReg cfg r v).err = p.err := (p.writeReg_keeps cfg r v).2.2.1

@[simp] theorem Pfc.writeReg_regBase (cfg : Params) (p : Pfc) (r : Reg) (v : Word) :
    (p.writeReg cfg r v).regBase = p.regBase := (p.writeReg_keeps cfg r v).2.2.2.1

@[simp] theorem Pfc.writeReg_inReset (cfg : Params) (p : Pfc) (r : Reg) (v : Word) :
    (p.writeReg cfg r v).inReset = p.inReset := (p.writeReg_keeps cfg r v).2.2.2.2

/-- Which reads show the end of a PFC's command, in the register map's own numbers. -/
theorem Pfc.showsEnd_iff (p : Pfc) (off : Nat) : p.showsEnd off = true ↔
    (off = 0x010 ∧ p.engine = none) ∨ (off = 0x014 ∧ p.irqStatus.getLsbD 0 = true) := by
  have bit : ∀ x : BitVec 3, x &&& 1 ≠ 0 ↔ x.getLsbD 0 = true := by decide
  simp only [Pfc.showsEnd, regOffset, Bool.or_eq_true, Bool.and_eq_true, beq_iff_eq, Bool.not_eq_true',
    Pfc.busy, irqDone, bne_iff_ne, bit, Option.isSome_eq_false_iff, Option.isNone_iff_eq_none]

end Sys2Proof.Machine
end

