-- ==== Sys2Proof/Laws/Select.lean ====
section
/-! SUPPORT. Addressing a PFC changes which one is addressed and nothing else. -/

namespace Sys2Proof.Machine

/-- Everything `selectAt` does: the platform's PFCs stay as they are, the one at position `n` is the
addressed one. -/
theorem State.selectAt_spec {s t : State} {n : Nat} (h : s.selectAt n = some t) :
    t = { s with before := t.before, pfc := t.pfc, after := t.after }
      ∧ t.pfcs = s.pfcs ∧ t.here = n ∧ s.pfcs[n]? = some t.pfc := by
  unfold State.selectAt at h
  split at h
  · rename_i p rest hd
    cases h
    have hlt : n < s.pfcs.length := by
      by_contra hc
      rw [List.drop_eq_nil_of_le (by omega)] at hd
      cases hd
    refine ⟨rfl, ?_, ?_, ?_⟩
    · change s.pfcs.take n ++ p :: rest = s.pfcs
      rw [← hd, List.take_append_drop]
    · simp [State.here, hlt.le]
    · have : s.pfcs.drop n = s.pfcs[n] :: s.pfcs.drop (n + 1) := List.drop_eq_getElem_cons hlt
      rw [this] at hd
      rw [List.getElem?_eq_getElem hlt, (List.cons.inj hd).1]
  · cases h

/-- A position the list has can be addressed. -/
theorem State.selectAt_isSome {s : State} {n : Nat} (h : n < s.pfcs.length) :
    ∃ t, s.selectAt n = some t := by
  unfold State.selectAt
  rw [List.drop_eq_getElem_cons h]
  exact ⟨_, rfl⟩

/-- The addressed PFC stands at its position. -/
theorem State.getElem?_here (s : State) : s.pfcs[s.here]? = some s.pfc := by
  simp [State.pfcs, State.here]

/-- Everything `select` does: the platform's PFCs stay as they are, and one whose REG_BASE is `base` is the
addressed one. -/
theorem State.select_spec {s t : State} {base : Nat} (h : s.select base = some t) :
    t = { s with before := t.before, pfc := t.pfc, after := t.after }
      ∧ t.pfcs = s.pfcs ∧ t.pfc.regBase = base ∧ s.pfcs[t.here]? = some t.pfc := by
  unfold State.select at h
  split_ifs at h with hb
  · cases h; exact ⟨rfl, rfl, hb, s.getElem?_here⟩
  · split at h
    · rename_i n hn
      obtain ⟨ht, hp, hh, hg⟩ := State.selectAt_spec h
      obtain ⟨hlt, hpn, -⟩ := List.findIdx?_eq_some_iff_getElem.1 hn
      rw [List.getElem?_eq_getElem hlt] at hg
      refine ⟨ht, hp, ?_, by rw [hh, List.getElem?_eq_getElem hlt, hg]⟩
      rw [← Option.some.inj hg]
      simpa using hpn
    · cases h

/-- What both ways of addressing a PFC do. -/
def Readdressed (s t : State) : Prop :=
  t = { s with before := t.before, pfc := t.pfc, after := t.after }
    ∧ t.pfcs = s.pfcs ∧ s.pfcs[t.here]? = some t.pfc

theorem Readdressed.of_select {s t : State} {base : Nat} (h : s.select base = some t) :
    Readdressed s t :=
  let ⟨ht, hp, _, hg⟩ := State.select_spec h
  ⟨ht, hp, hg⟩

theorem Readdressed.of_selectAt {s t : State} {n : Nat} (h : s.selectAt n = some t) :
    Readdressed s t :=
  let ⟨ht, hp, hn, hg⟩ := State.selectAt_spec h
  ⟨ht, hp, hn ▸ hg⟩

section
variable {s t : State} (h : Readdressed s t)
include h

theorem Readdressed.pfcs : t.pfcs = s.pfcs := h.2.1
theorem Readdressed.cfg : t.cfg = s.cfg := by rw [h.1]
theorem Readdressed.mem : t.mem = s.mem := by rw [h.1]
theorem Readdressed.memMap : t.memMap = s.memMap := by rw [h.1]
theorem Readdressed.host : t.host = s.host := by rw [h.1]
theorem Readdressed.turns : t.turns = s.turns := by rw [h.1]
theorem Readdressed.draws : t.draws = s.draws := by rw [h.1]
theorem Readdressed.unseen : t.unseen = s.unseen := by rw [h.1]

end

/-- Addressing the addressed PFC changes nothing. -/
@[simp] theorem State.select_here (s : State) : s.select s.pfc.regBase = some s := by
  simp [State.select]

/-- Addressing the addressed PFC by its position changes nothing. -/
@[simp] theorem State.selectAt_here (s : State) : s.selectAt s.here = some s := by
  simp [State.selectAt, State.here, State.pfcs]

/-- A platform has a PFC to address exactly when some PFC has that REG_BASE. -/
theorem State.select_isSome (s : State) (base : Nat) :
    (s.select base).isSome = true ↔ ∃ p ∈ s.pfcs, p.regBase = base := by
  constructor
  · intro h
    obtain ⟨t, ht⟩ := Option.isSome_iff_exists.1 h
    obtain ⟨-, -, hb, hg⟩ := State.select_spec ht
    exact ⟨t.pfc, List.mem_of_getElem? hg, hb⟩
  · rintro ⟨p, hp, rfl⟩
    unfold State.select
    split_ifs
    · rfl
    · have hs : (s.pfcs.findIdx? fun q => q.regBase == p.regBase).isSome = true := by
        rw [List.findIdx?_isSome]
        exact List.any_eq_true.2 ⟨p, hp, by simp⟩
      obtain ⟨n, hn⟩ := Option.isSome_iff_exists.1 hs
      obtain ⟨t, ht⟩ := State.selectAt_isSome (List.findIdx?_eq_some_iff_getElem.1 hn).1
      simp [hn, ht]

end Sys2Proof.Machine
end

