-- ==== Sys2Proof/Laws/Step.lean ====
section
/-! SUPPORT. Inversion of a step: what each agent's move can do when it answers a next state. -/

namespace Sys2Proof.Machine

/-- `t` is `s` but for which PFC is addressed and the host's position, names, draws and what it has seen. -/
def Quiet (s t : State) : Prop :=
  t.cfg = s.cfg ∧ t.pfcs = s.pfcs ∧ t.mem = s.mem ∧ t.memMap = s.memMap ∧ t.turns = s.turns
    ∧ t.host.prog = s.host.prog ∧ (Cells.wf s.host.vars → Cells.wf t.host.vars)

theorem Quiet.rfl' (s : State) : Quiet s s := ⟨rfl, rfl, rfl, rfl, rfl, rfl, id⟩

theorem Quiet.of_readdressed {s t : State} (h : Readdressed s t) : Quiet s t := by
  refine ⟨h.cfg, h.pfcs, h.mem, h.memMap, h.turns, by rw [h.host], by rw [h.host]; exact id⟩

theorem Quiet.of_select {s t : State} {base : Nat} (h : s.select base = some t) : Quiet s t :=
  .of_readdressed (.of_select h)

theorem Quiet.of_selectAt {s t : State} {n : Nat} (h : s.selectAt n = some t) : Quiet s t :=
  .of_readdressed (.of_selectAt h)

theorem Quiet.trans {s t u : State} (h : Quiet s t) (h' : Quiet t u) : Quiet s u :=
  ⟨h'.1.trans h.1, h'.2.1.trans h.2.1, h'.2.2.1.trans h.2.2.1, h'.2.2.2.1.trans h.2.2.2.1,
    h'.2.2.2.2.1.trans h.2.2.2.2.1, h'.2.2.2.2.2.1.trans h.2.2.2.2.2.1,
    fun hw => h'.2.2.2.2.2.2 (h.2.2.2.2.2.2 hw)⟩

theorem Quiet.nextStmt (s : State) : Quiet s s.nextStmt := ⟨rfl, rfl, rfl, rfl, rfl, rfl, id⟩

theorem Quiet.bind (s : State) (name : Nat) (v : Word) : Quiet s (s.bind name v) :=
  ⟨rfl, rfl, rfl, rfl, rfl, rfl, fun h => Cells.write_wf h _ _⟩

theorem Quiet.see (s : State) (off : Nat) : Quiet s (s.see off) := by simp [Quiet]

/-- The ways a START write answers a next state. -/
theorem startWrite_next {s t : State} (h : startWrite s = .next t) :
    (s.pfc.busy = true ∧ t = s.setPfc s.pfc.overrun) ∨
    (s.pfc.engine = none ∧ ∃ e, decodeOp s.pfc.op = .error e ∧ t = s.setPfc (s.pfc.reject e)) ∨
    (s.pfc.engine = none ∧ ∃ i, decodeOp s.pfc.op = .ok i
      ∧ startCommand i.src i.dst s = .next t) := by
  unfold startWrite at h
  split at h
  · rename_i hb; cases h; exact .inl ⟨hb, rfl⟩
  · rename_i hb
    have hn : s.pfc.engine = none := by simpa [Pfc.busy] using hb
    split at h
    · rename_i e he; cases h; exact .inr (.inl ⟨hn, e, he, rfl⟩)
    · rename_i i hi; rw [exec_idle hn] at h; exact .inr (.inr ⟨hn, i, hi, h⟩)

/-- The ways a register access goes on. -/
theorem onPfc_next {s t : State} {n : Nat} {f : State → Host.Outcome State Fault Refusal}
    (h : onPfc s n f = .next t) :
    ∃ u, s.select n = some u ∧
      ((u.pfc.inReset = true ∧ t = u) ∨ (u.pfc.inReset = false ∧ f u = .next t)) := by
  unfold onPfc at h
  split at h
  · cases h
  · rename_i u hu
    refine ⟨u, hu, ?_⟩
    split at h
    · rename_i hr; cases h; exact .inl ⟨hr, rfl⟩
    · rename_i hr; exact .inr ⟨by simpa using hr, h⟩

/-- The ways a register write answers a next state. -/
theorem regWrite_next {s t : State} {off : Nat} {v : Word} (h : regWrite s off v = .next t) :
    t = s ∨ (∃ r, regAt off = some r ∧ r ≠ .ctrl ∧ t = s.setPfc (s.pfc.writeReg s.cfg r v)) ∨
    (regAt off = some .ctrl ∧ v.getLsbD 0 = true ∧ startWrite s = .next t) := by
  unfold regWrite at h
  split at h
  · cases h; exact .inl rfl
  · rename_i r hr
    split at h
    · rename_i hc
      subst hc
      split at h
      · rename_i hv; exact .inr (.inr ⟨hr, hv, h⟩)
      · cases h; exact .inl rfl
    · rename_i hc; cases h; exact .inr (.inl ⟨r, hr, hc, rfl⟩)

/-- A host store that answers a next state: all its bytes lie outside every running footprint. -/
theorem hostStore_next {s t : State} {bytes : List (Nat × Byte)} (h : hostStore s bytes = .next t) :
    (∀ c ∈ bytes, s.inFootprint c.1 = false) ∧
      t = { s with mem := Cells.writeAll s.mem bytes } := by
  unfold hostStore at h
  split_ifs at h with h1
  cases h
  refine ⟨fun c hc => ?_, rfl⟩
  simpa using List.any_eq_false.1 (Bool.not_eq_true _ ▸ h1) c hc

/-- A host load that answers a next state is quiet. -/
theorem hostLoad_next {s t : State} {a name : Nat} (h : hostLoad s a name = .next t) :
    Quiet s t := by
  unfold hostLoad at h
  split_ifs at h <;> cases h
  · exact ⟨rfl, rfl, rfl, rfl, rfl, rfl, fun hw => Cells.write_wf hw _ _⟩
  · exact Quiet.bind s _ _

/-- Everything a host move can do: nothing but to the host itself; a plain register write; a START; or a
store outside every running footprint. -/
theorem hostTurn_next {s t : State} (h : hostTurn s = .next t) :
    Quiet s t ∨
    (∃ n u r v, s.host.prog[s.host.pc]? = some (.wr32 n (regOffset r) v) ∧ s.select n = some u
      ∧ u.pfc.inReset = false ∧ r ≠ Reg.ctrl
      ∧ t = u.nextStmt.setPfc (u.pfc.writeReg u.cfg r v)) ∨
    (∃ n u v, s.host.prog[s.host.pc]? = some (.wr32 n (regOffset .ctrl) v) ∧ v.getLsbD 0 = true
      ∧ s.select n = some u ∧ u.pfc.inReset = false ∧ startWrite u.nextStmt = .next t) ∨
    (∃ bytes, (∀ c ∈ bytes, s.inFootprint c.1 = false)
      ∧ t = { s.nextStmt with mem := Cells.writeAll s.mem bytes }) := by
  unfold hostTurn at h
  split at h
  · cases h; exact .inl (Quiet.rfl' s)
  rename_i st hst
  cases st with
  | wr32 n off v =>
    simp only [runStmt] at h
    split at h
    · obtain ⟨u, hu, ⟨-, rfl⟩ | ⟨hr, hw⟩⟩ := onPfc_next h
      · exact .inl (Quiet.of_select hu)
      · rcases regWrite_next hw with rfl | ⟨r, ho, hc, rfl⟩ | ⟨ho, hv, hw⟩
        · exact .inl ((Quiet.of_select hu).trans (Quiet.nextStmt u))
        · rw [← regOffset_of_regAt ho] at hst
          exact .inr (.inl ⟨n, u, r, v, hst, hu, hr, hc, rfl⟩)
        · rw [← regOffset_of_regAt ho] at hst
          exact .inr (.inr (.inl ⟨n, u, v, hst, hv, hu, hr, hw⟩))
    · cases h
  | rd32 n off name =>
    simp only [runStmt] at h
    split at h
    · obtain ⟨u, hu, ⟨-, rfl⟩ | ⟨-, hw⟩⟩ := onPfc_next h
      · exact .inl (Quiet.of_select hu)
      · cases hw
        exact .inl ((Quiet.of_select hu).trans
          ((Quiet.nextStmt u).trans ((Quiet.bind _ _ _).trans (Quiet.see _ _))))
    · cases h
  | regOther n off b => cases h
  | waitIrq n =>
    simp only [runStmt] at h
    split at h
    · cases h
    · rename_i u hu
      cases h
      split
      · exact .inl ((Quiet.of_select hu).trans (Quiet.nextStmt u))
      · exact .inl (Quiet.of_select hu)
  | memW8 a b =>
    obtain ⟨hf, rfl⟩ := hostStore_next h
    exact .inr (.inr (.inr ⟨_, hf, rfl⟩))
  | memW32 a v =>
    obtain ⟨hf, rfl⟩ := hostStore_next h
    exact .inr (.inr (.inr ⟨_, hf, rfl⟩))
  | memR8 a name => exact .inl ((Quiet.nextStmt s).trans (hostLoad_next h))
  | label l => cases h; exact .inl (Quiet.nextStmt s)
  | bnz name mask l =>
    simp only [runStmt] at h
    split at h
    · cases h; exact .inl (Quiet.nextStmt s)
    · split at h
      · cases h; exact .inl ⟨rfl, rfl, rfl, rfl, rfl, rfl, id⟩
      · cases h

/-- A register read of a PFC out of reset, in full. -/
theorem hostTurn_rd32 {s u : State} {n off name : Nat}
    (hs : s.host.prog[s.host.pc]? = some (.rd32 n off name)) (ho : regOffsetOk off = true)
    (hu : s.select n = some u) (hr : u.pfc.inReset = false) :
    hostTurn s = .next ((u.nextStmt.bind name (u.pfc.readAt u.cfg off)).see off) := by
  simp [hostTurn, hs, runStmt, ho, onPfc, hu, hr]

/-- What a host move does to the bytes the host has yet to see: nothing, but for a read that shows the end of
the PFC it addresses. -/
theorem hostTurn_unseen {s t : State} (h : hostTurn s = .next t) :
    t.unseen = s.unseen ∨
    ∃ n off name u, s.host.prog[s.host.pc]? = some (.rd32 n off name) ∧ s.select n = some u
      ∧ u.pfc.inReset = false ∧ u.pfc.showsEnd off = true
      ∧ t.unseen = s.unseen.filter fun c => c.regBase != n := by
  by_cases hst : ∃ n off name, s.host.prog[s.host.pc]? = some (.rd32 n off name)
  · obtain ⟨n, off, name, hst⟩ := hst
    simp only [hostTurn, hst, runStmt] at h
    split at h
    · obtain ⟨u, hu, ⟨-, rfl⟩ | ⟨hr, hw⟩⟩ := onPfc_next h
      · exact .inl (Readdressed.of_select hu).unseen
      · obtain rfl := Host.Outcome.next.inj hw
        rw [State.see_unseen]
        simp only [State.bind_pfc, State.nextStmt_pfc, State.bind_unseen, State.nextStmt_unseen,
          (Readdressed.of_select hu).unseen]
        split
        · rename_i hs
          exact .inr ⟨n, off, name, u, hst, hu, hr, hs, by rw [(State.select_spec hu).2.2.1]⟩
        · exact .inl rfl
    · cases h
  · have start : ∀ u, startWrite u = .next t → t.unseen = u.unseen := fun u hw => by
      rcases startWrite_next hw with ⟨-, rfl⟩ | ⟨-, e, -, rfl⟩ | ⟨-, i, -, hi⟩
      · rfl
      · rfl
      · rcases startCommand_next hi with ⟨e, -, rfl⟩ | ⟨tr, -, -, rfl⟩ <;> rfl
    unfold hostTurn at h
    split at h
    · cases h; exact .inl rfl
    rename_i st hs
    left
    cases st with
    | rd32 n off name => exact absurd ⟨n, off, name, hs⟩ hst
    | wr32 n off v =>
      simp only [runStmt] at h
      split at h
      · obtain ⟨u, hu, ⟨-, rfl⟩ | ⟨-, hw⟩⟩ := onPfc_next h
        · exact (Readdressed.of_select hu).unseen
        · rw [← (Readdressed.of_select hu).unseen]
          rcases regWrite_next hw with rfl | ⟨r, -, -, rfl⟩ | ⟨-, -, hw⟩
          · rfl
          · rfl
          · exact start u.nextStmt hw
      · cases h
    | regOther n off b => cases h
    | waitIrq n =>
      simp only [runStmt] at h
      split at h
      · cases h
      · rename_i u hu
        cases h
        rw [← (Readdressed.of_select hu).unseen]
        split <;> rfl
    | memW8 a b => obtain ⟨-, rfl⟩ := hostStore_next h; rfl
    | memW32 a v => obtain ⟨-, rfl⟩ := hostStore_next h; rfl
    | memR8 a name =>
      simp only [runStmt, hostLoad] at h
      split_ifs at h <;> cases h <;> rfl
    | label l => cases h; rfl
    | bnz name mask l =>
      simp only [runStmt] at h
      split at h
      · cases h; rfl
      · split at h <;> cases h; rfl

/-- Everything an engine's move can do: nothing, or the run to the end of its latched command. -/
theorem engineTurn_next {n : Nat} {s t : State} (h : engineTurn n s = .next t) :
    Quiet s t ∨
    ∃ u run i, s.selectAt n = some u ∧ u.pfc.engine = some run ∧ decodeOp run.lc.op = .ok i
      ∧ exec i u = .next t := by
  unfold engineTurn at h
  split at h
  · cases h; exact .inl (Quiet.rfl' s)
  rename_i u hu
  split at h
  · cases h; exact .inl (Quiet.of_selectAt hu)
  rename_i run hrun
  split at h
  · rename_i i hi; exact .inr ⟨u, run, i, hu, hrun, hi, h⟩
  · cases h

/-- Everything a memory-system failure can leave as a next state: nothing happened. -/
theorem busErrorTurn_next {n : Nat} {s t : State} (h : busErrorTurn n s = .next t) :
    Quiet s t := by
  unfold busErrorTurn at h
  split at h
  · cases h; exact Quiet.rfl' s
  · rename_i u hu
    split at h
    · cases h
    · cases h; exact Quiet.of_selectAt hu

/-- Asserting reset always answers a next state. -/
theorem resetOnTurn_next {n : Nat} {s t : State} (h : resetOnTurn n s = .next t) :
    (t = s ∧ s.selectAt n = none) ∨
    ∃ u, s.selectAt n = some u ∧ t = { u with
      pfc := { Pfc.reset u.cfg u.pfc.regBase with inReset := true }
      mem := (drawOver u.mem u.draws (addressesOf u.pfc.dstRanges)).1
      draws := (drawOver u.mem u.draws (addressesOf u.pfc.dstRanges)).2 } := by
  unfold resetOnTurn at h
  split at h
  · rename_i hn; cases h; exact .inl ⟨rfl, hn⟩
  · rename_i u hu; cases h; exact .inr ⟨u, hu, rfl⟩

/-- Releasing reset always answers a next state. -/
theorem resetOffTurn_next {n : Nat} {s t : State} (h : resetOffTurn n s = .next t) :
    Quiet s t ∨
    ∃ u, s.selectAt n = some u ∧ u.pfc.inReset = true
      ∧ t = u.setPfc (Pfc.reset u.cfg u.pfc.regBase) := by
  unfold resetOffTurn at h
  split at h
  · cases h; exact .inl (Quiet.rfl' s)
  · rename_i u hu
    split at h
    · rename_i hr; cases h; exact .inr ⟨u, hu, hr, rfl⟩
    · cases h; exact .inl (Quiet.of_selectAt hu)

/-- The move a step makes, and the state it is made in. -/
theorem step_eq_takeTurn (s : State) :
    ∃ tn u, step s = takeTurn tn u ∧ u = { s with turns := s.turns.tail } := by
  unfold step
  split
  · rename_i tn rest h; exact ⟨tn, _, rfl, by rw [h, List.tail_cons]⟩
  · rename_i h
    refine ⟨_, _, rfl, ?_⟩
    rw [h, List.tail_nil, ← h]

/-- A property of states that every single agent's move keeps, every step keeps. -/
theorem step_induction {P : State → Prop}
    (hq : ∀ s (l : List Turn), P s → P { s with turns := l })
    (hh : ∀ s t, P s → hostTurn s = .next t → P t)
    (he : ∀ n s t, P s → engineTurn n s = .next t → P t)
    (hb : ∀ n s t, P s → busErrorTurn n s = .next t → P t)
    (ho : ∀ n s t, P s → resetOnTurn n s = .next t → P t)
    (hf : ∀ n s t, P s → resetOffTurn n s = .next t → P t)
    {s t : State} (hs : P s) (h : step s = .next t) : P t := by
  obtain ⟨tn, u, e, rfl⟩ := step_eq_takeTurn s
  rw [e] at h
  have hs' := hq s s.turns.tail hs
  cases tn with
  | host => exact hh _ _ hs' h
  | engine n => exact he n _ _ hs' h
  | busError n => exact hb n _ _ hs' h
  | resetOn n => exact ho n _ _ hs' h
  | resetOff n => exact hf n _ _ hs' h
  | together n =>
    simp only [takeTurn] at h
    split at h
    · rename_i u hu; exact he n _ _ (hh _ _ hs' hu) h
    · cases h
    · cases h

end Sys2Proof.Machine
end

