-- ==== Sys2Proof/Laws/Pfcs.lean ====
section
/-! SUPPORT. What each agent's move does to each PFC of the platform, by its position in the list. -/

namespace Sys2Proof.Machine

/-- Replacing the addressed PFC replaces that one of the platform. -/
theorem State.pfcs_of_readdressed {s u t : State} (h : Readdressed s u)
    (hb : t.before = u.before) (ha : t.after = u.after) : t.pfcs = s.pfcs.set u.here t.pfc := by
  rw [← h.pfcs, State.pfcs, hb, ha, State.pfcs, State.here]
  simp

/-- The PFC at position `k` after the one at `n` was replaced. -/
theorem getElem?_set_pfc {l : List Pfc} {n k : Nat} {p p' q : Pfc} (h : l[k]? = some p)
    (hq : (l.set n p')[k]? = some q) : (k ≠ n ∧ q = p) ∨ (k = n ∧ q = p') := by
  by_cases e : k = n
  · subst e
    have hk : k < l.length := (List.getElem?_eq_some_iff.1 h).1
    rw [List.getElem?_set_self hk] at hq
    exact .inr ⟨rfl, (Option.some.inj hq).symm⟩
  · rw [List.getElem?_set_ne (fun h => e h.symm), h] at hq
    exact .inl ⟨e, (Option.some.inj hq).symm⟩

/-- What a host statement can do to a PFC `p` it writes to: a plain register write, or START in one of its
outcomes. -/
def HostEffect (cfg : Params) (off : Nat) (v : Word) (p q : Pfc) : Prop :=
  p.inReset = false ∧
  ((∃ r, off = regOffset r ∧ r ≠ Reg.ctrl ∧ q = p.writeReg cfg r v) ∨
    (off = regOffset .ctrl ∧ v.getLsbD 0 = true ∧
      ((p.busy = true ∧ q = p.overrun) ∨
        (p.engine = none ∧ ((∃ e, q = p.reject e) ∨ ∃ lc t m, q = p.accept lc t m)))))

/-- A host statement leaves a PFC its REG_BASE. -/
theorem HostEffect.regBase_eq {cfg : Params} {off : Nat} {v : Word} {p q : Pfc}
    (h : HostEffect cfg off v p q) : q.regBase = p.regBase := by
  rcases h with ⟨-, ⟨r, -, -, rfl⟩ | ⟨-, -, ⟨-, rfl⟩ | ⟨-, ⟨e, rfl⟩ | ⟨lc, tr, m, rfl⟩⟩⟩⟩ <;> simp

/-- A host move changes no PFC but the one its statement writes to. -/
theorem hostTurn_pfcs {s t : State} (h : hostTurn s = .next t) {k : Nat} {p q : Pfc}
    (hp : s.pfcs[k]? = some p) (hq : t.pfcs[k]? = some q) :
    q = p ∨ ∃ off v, s.host.prog[s.host.pc]? = some (.wr32 p.regBase off v)
      ∧ HostEffect s.cfg off v p q := by
  have same : t.pfcs = s.pfcs → q = p := fun e => by rw [e, hp] at hq; exact (Option.some.inj hq).symm
  rcases hostTurn_next h with hQ | ⟨n, u, r, v, hs, hu, hr, hc, rfl⟩ | ⟨n, u, v, hs, hv, hu, hr, hst⟩ |
    ⟨bytes, -, rfl⟩
  · exact .inl (same hQ.2.1)
  · obtain ⟨-, -, rfl, hn⟩ := State.select_spec hu
    rw [State.pfcs_of_readdressed (t := u.nextStmt.setPfc (u.pfc.writeReg u.cfg r v)) (Readdressed.of_select hu) rfl rfl] at hq
    rcases getElem?_set_pfc hp hq with ⟨-, rfl⟩ | ⟨rfl, rfl⟩
    · exact .inl rfl
    · obtain rfl : p = u.pfc := Option.some.inj (hp.symm.trans hn)
      exact .inr ⟨_, _, hs, hr, .inl ⟨r, rfl, hc, by rw [(Readdressed.of_select hu).cfg]; rfl⟩⟩
  · obtain ⟨-, -, rfl, hn⟩ := State.select_spec hu
    have key : ∀ p', t = u.nextStmt.setPfc p' →
        ((u.pfc.busy = true ∧ p' = u.pfc.overrun) ∨
        (u.pfc.engine = none ∧ ((∃ e, p' = u.pfc.reject e) ∨ ∃ lc t m, p' = u.pfc.accept lc t m))) →
        q = p ∨ ∃ off v, s.host.prog[s.host.pc]? = some (.wr32 p.regBase off v)
          ∧ HostEffect s.cfg off v p q := by
      intro p' ht he
      rw [State.pfcs_of_readdressed (t := t) (Readdressed.of_select hu) (by rw [ht]; rfl) (by rw [ht]; rfl), ht] at hq
      rcases getElem?_set_pfc hp hq with ⟨-, rfl⟩ | ⟨rfl, rfl⟩
      · exact .inl rfl
      · obtain rfl : p = u.pfc := Option.some.inj (hp.symm.trans hn)
        exact .inr ⟨_, _, hs, hr, .inr ⟨rfl, hv, he⟩⟩
    rcases startWrite_next hst with ⟨hb, ht⟩ | ⟨he, e, -, ht⟩ | ⟨he, i, -, hi⟩
    · exact key _ ht (.inl ⟨hb, rfl⟩)
    · exact key _ ht (.inr ⟨he, .inl ⟨e, rfl⟩⟩)
    · rcases startCommand_next hi with ⟨e, -, ht⟩ | ⟨tr, -, -, ht⟩
      · exact key _ ht (.inr ⟨he, .inl ⟨e, rfl⟩⟩)
      · exact key _ ht (.inr ⟨he, .inr ⟨_, _, _, rfl⟩⟩)
  · exact .inl (same rfl)

/-- An engine's move changes no PFC but its own, and that one only by completing its command. -/
theorem engineTurn_pfcs {n : Nat} {s t : State} (h : engineTurn n s = .next t) {k : Nat} {p q : Pfc}
    (hp : s.pfcs[k]? = some p) (hq : t.pfcs[k]? = some q) :
    q = p ∨ (k = n ∧ p.busy = true ∧ q = p.complete) := by
  rcases engineTurn_next h with hQ | ⟨u, run, i, hu, hrun, -, hi⟩
  · rw [hQ.2.1, hp] at hq; exact .inl (Option.some.inj hq).symm
  · obtain ⟨-, -, rfl, hn⟩ := State.selectAt_spec hu
    have ht := exec_busy_next hrun hi
    have hc : t.pfc = u.pfc.complete := by rw [ht]
    rw [State.pfcs_of_readdressed (t := t) (Readdressed.of_selectAt hu) (by rw [ht]) (by rw [ht]), hc] at hq
    rcases getElem?_set_pfc hp hq with ⟨-, rfl⟩ | ⟨rfl, rfl⟩
    · exact .inl rfl
    · obtain rfl : p = u.pfc := Option.some.inj (hp.symm.trans hn)
      exact .inr ⟨rfl, by simp [Pfc.busy, hrun], rfl⟩

/-- Asserting a reset changes no PFC but its own. -/
theorem resetOnTurn_pfcs {n : Nat} {s t : State} (h : resetOnTurn n s = .next t) {k : Nat} {p q : Pfc}
    (hp : s.pfcs[k]? = some p) (hq : t.pfcs[k]? = some q) :
    q = p ∨ (k = n ∧ q = { Pfc.reset s.cfg p.regBase with inReset := true }) := by
  rcases resetOnTurn_next h with ⟨rfl, -⟩ | ⟨u, hu, rfl⟩
  · rw [hp] at hq; exact .inl (Option.some.inj hq).symm
  · obtain ⟨-, -, rfl, hn⟩ := State.selectAt_spec hu
    rw [State.pfcs_of_readdressed (Readdressed.of_selectAt hu) (by rfl) (by rfl)] at hq
    rcases getElem?_set_pfc hp hq with ⟨-, rfl⟩ | ⟨rfl, rfl⟩
    · exact .inl rfl
    · obtain rfl : p = u.pfc := Option.some.inj (hp.symm.trans hn)
      exact .inr ⟨rfl, by simp only [(Readdressed.of_selectAt hu).cfg]⟩

/-- Releasing a reset changes no PFC but its own. -/
theorem resetOffTurn_pfcs {n : Nat} {s t : State} (h : resetOffTurn n s = .next t) {k : Nat}
    {p q : Pfc} (hp : s.pfcs[k]? = some p) (hq : t.pfcs[k]? = some q) :
    q = p ∨ (k = n ∧ p.inReset = true ∧ q = Pfc.reset s.cfg p.regBase) := by
  rcases resetOffTurn_next h with hQ | ⟨u, hu, hr, rfl⟩
  · rw [hQ.2.1, hp] at hq; exact .inl (Option.some.inj hq).symm
  · obtain ⟨-, -, rfl, hn⟩ := State.selectAt_spec hu
    rw [State.pfcs_of_readdressed (t := u.setPfc (Pfc.reset u.cfg u.pfc.regBase)) (Readdressed.of_selectAt hu) rfl rfl] at hq
    rcases getElem?_set_pfc hp hq with ⟨-, rfl⟩ | ⟨rfl, rfl⟩
    · exact .inl rfl
    · obtain rfl : p = u.pfc := Option.some.inj (hp.symm.trans hn)
      exact .inr ⟨rfl, hr, by rw [(Readdressed.of_selectAt hu).cfg]; rfl⟩

/-- A host move keeps the number of PFCs. -/
theorem hostTurn_length {s t : State} (h : hostTurn s = .next t) : t.pfcs.length = s.pfcs.length := by
  rcases hostTurn_next h with hQ | ⟨n, u, r, v, -, hu, -, -, rfl⟩ | ⟨n, u, v, -, -, hu, -, hst⟩ |
    ⟨bytes, -, rfl⟩
  · rw [hQ.2.1]
  · rw [State.pfcs_of_readdressed (t := u.nextStmt.setPfc (u.pfc.writeReg u.cfg r v)) (Readdressed.of_select hu) rfl rfl]
    simp
  · have key : ∀ p, t = u.nextStmt.setPfc p → t.pfcs.length = s.pfcs.length := by
      intro p ht
      rw [State.pfcs_of_readdressed (t := t) (Readdressed.of_select hu) (by rw [ht]; rfl) (by rw [ht]; rfl)]
      simp
    rcases startWrite_next hst with ⟨-, ht⟩ | ⟨-, e, -, ht⟩ | ⟨-, i, -, hi⟩
    · exact key _ ht
    · exact key _ ht
    · rcases startCommand_next hi with ⟨e, -, ht⟩ | ⟨tr, -, -, ht⟩ <;> exact key _ ht
  · rfl

/-- Everything a step does to the PFC at position `k`: first what a host statement does to it, then its engine's
completion or its reset. -/
theorem step_pfcs {s t : State} {k : Nat} {p q : Pfc} (h : step s = .next t)
    (hp : s.pfcs[k]? = some p) (hq : t.pfcs[k]? = some q) :
    ∃ m, (m = p ∨
        ((s.turns.headD s.defaultTurn = .host ∨ ∃ n, s.turns.headD s.defaultTurn = .together n) ∧
          ∃ off v, s.host.prog[s.host.pc]? = some (.wr32 p.regBase off v) ∧ HostEffect s.cfg off v p m)) ∧
      (q = m ∨
        (s.turns.headD s.defaultTurn ∈ [Turn.engine k, .together k] ∧ m.busy = true
          ∧ q = m.complete) ∨
        (s.turns.headD s.defaultTurn = .resetOn k
          ∧ q = { Pfc.reset s.cfg m.regBase with inReset := true }) ∨
        (s.turns.headD s.defaultTurn = .resetOff k ∧ m.inReset = true
          ∧ q = Pfc.reset s.cfg m.regBase)) := by
  obtain ⟨u, hu, h1, h2, h3⟩ : ∃ u, takeTurn (s.turns.headD s.defaultTurn) u = .next t
      ∧ u.pfcs = s.pfcs ∧ u.host = s.host ∧ u.cfg = s.cfg := by
    unfold step at h
    split at h <;> rename_i hh <;> rw [hh]
    · exact ⟨_, h, rfl, rfl, rfl⟩
    · exact ⟨s, h, rfl, rfl, rfl⟩
  rw [← h1] at hp
  rw [← h2, ← h3]
  generalize s.turns.headD s.defaultTurn = tn at hu ⊢
  cases tn with
  | host =>
    rcases hostTurn_pfcs hu hp hq with rfl | hx
    · exact ⟨_, .inl rfl, .inl rfl⟩
    · exact ⟨q, .inr ⟨.inl rfl, hx⟩, .inl rfl⟩
  | engine n =>
    rcases engineTurn_pfcs hu hp hq with rfl | ⟨rfl, hb, rfl⟩
    · exact ⟨_, .inl rfl, .inl rfl⟩
    · exact ⟨p, .inl rfl, .inr (.inl ⟨by simp, hb, rfl⟩)⟩
  | together n =>
    simp only [takeTurn] at hu
    split at hu
    · rename_i v hv
      have hk : k < v.pfcs.length := by
        rw [hostTurn_length hv]; exact (List.getElem?_eq_some_iff.1 hp).1
      have hm := List.getElem?_eq_getElem hk
      refine ⟨v.pfcs[k], (hostTurn_pfcs hv hp hm).imp_right fun h' => ⟨.inr ⟨n, rfl⟩, h'⟩, ?_⟩
      rcases engineTurn_pfcs hu hm hq with h' | ⟨rfl, hb, h'⟩
      · exact .inl h'
      · exact .inr (.inl ⟨by simp, hb, h'⟩)
    · cases hu
    · cases hu
  | busError n =>
    rw [(busErrorTurn_next hu).2.1, hp] at hq
    exact ⟨p, .inl rfl, .inl (Option.some.inj hq).symm⟩
  | resetOn n =>
    rcases resetOnTurn_pfcs hu hp hq with rfl | ⟨rfl, h'⟩
    · exact ⟨_, .inl rfl, .inl rfl⟩
    · exact ⟨p, .inl rfl, .inr (.inr (.inl ⟨rfl, h'⟩))⟩
  | resetOff n =>
    rcases resetOffTurn_pfcs hu hp hq with rfl | ⟨rfl, hr, h'⟩
    · exact ⟨_, .inl rfl, .inl rfl⟩
    · exact ⟨p, .inl rfl, .inr (.inr (.inr ⟨rfl, hr, h'⟩))⟩

/-- On a platform whose PFCs each have a block of their own, equal REG_BASEs mean one position. -/
theorem State.position_of_regBase {s : State} (h : s.ownBlocks) {j k : Nat} {p q : Pfc}
    (hp : s.pfcs[k]? = some p) (hq : s.pfcs[j]? = some q) (e : q.regBase = p.regBase) : j = k := by
  have apart : ∀ {a b : Nat} {x y : Pfc}, s.pfcs[a]? = some x → s.pfcs[b]? = some y → a < b →
      x.regBase ≠ y.regBase := by
    intro a b x y hx hy hab hxy
    obtain ⟨ha, rfl⟩ := List.getElem?_eq_some_iff.1 hx
    obtain ⟨hb, rfl⟩ := List.getElem?_eq_some_iff.1 hy
    have := List.pairwise_iff_getElem.1 h a b ha hb hab
    rw [hxy] at this
    simp [blocksApart, blockSize] at this
  rcases Nat.lt_trichotomy j k with hlt | rfl | hlt
  · exact absurd e (apart hq hp hlt)
  · rfl
  · exact absurd e.symm (apart hp hq hlt)

/-- There a REG_BASE addresses exactly the PFC that has it. -/
theorem State.select_of_ownBlocks {s : State} (h : s.ownBlocks) {k : Nat} {p : Pfc}
    (hp : s.pfcs[k]? = some p) : ∃ u, s.select p.regBase = some u ∧ u.pfc = p ∧ u.here = k := by
  obtain ⟨u, hu⟩ := Option.isSome_iff_exists.1
    ((State.select_isSome s p.regBase).2 ⟨p, List.mem_of_getElem? hp, rfl⟩)
  obtain ⟨-, -, hb, hg⟩ := State.select_spec hu
  have hk := State.position_of_regBase h hp hg hb
  rw [hk, hp] at hg
  exact ⟨u, hu, (Option.some.inj hg).symm, hk⟩

/-- The bases `separateBases` keeps are apart from the ones given and from each other. -/
theorem separateBases_apart (kept l : List Nat) :
    (∀ b ∈ separateBases kept l, ∀ k ∈ kept, blocksApart k b = true) ∧
      (separateBases kept l).Pairwise fun a b => blocksApart a b = true := by
  induction l generalizing kept with
  | nil => exact ⟨fun b hb => by simp [separateBases] at hb, .nil⟩
  | cons x rest ih =>
    unfold separateBases
    split_ifs with hx
    · obtain ⟨h1, h2⟩ := ih (x :: kept)
      refine ⟨fun b hb k hk => ?_, .cons (fun b hb => h1 b hb x List.mem_cons_self) h2⟩
      rcases List.mem_cons.1 hb with rfl | hb
      · exact List.all_eq_true.1 hx k hk
      · exact h1 b hb k (List.mem_cons_of_mem _ hk)
    · exact ih kept

/-- A list of bases that are apart is unchanged: every legal platform is some value of the open constants. -/
theorem separateBases_of_apart (kept l : List Nat)
    (h1 : ∀ b ∈ l, ∀ k ∈ kept, blocksApart k b = true)
    (h2 : l.Pairwise fun a b => blocksApart a b = true) : separateBases kept l = l := by
  induction l generalizing kept with
  | nil => rfl
  | cons x rest ih =>
    obtain ⟨hx, hr⟩ := List.pairwise_cons.1 h2
    rw [separateBases, if_pos (List.all_eq_true.2 fun k hk => h1 x List.mem_cons_self k hk),
      ih (x :: kept) (fun b hb k hk => ?_) hr]
    rcases List.mem_cons.1 hk with rfl | hk
    · exact hx b hb
    · exact h1 b (List.mem_cons_of_mem _ hb) k hk

end Sys2Proof.Machine
end

