-- ==== Sys2Proof/Tests/Slice0.lean ====
section
/-! SUPPORT. Small tests, each with its source in spec/, and for every obligation with hypotheses a
theorem that a concrete state and operands meet them. -/

namespace Sys2Proof.Tests

open Sys2Proof Sys2Proof.Machine

set_option Elab.async false

/-! ## A small platform: one PFC, the parameters of 95_test_vectors.md section 0 -/

/-- Row `k` of TM: 1.0 at place `k`, +0.0 elsewhere. -/
def unitRow (k : Nat) : Row4 :=
  let at' := fun j => if j = k then (0x3F800000 : Word) else 0
  ⟨at' 0, at' 1, at' 2, at' 3⟩

/-- TM, the test matrix of 95_test_vectors.md section 0. -/
def testMatrix : Matrix := ⟨unitRow 0, unitRow 1, unitRow 2⟩

/-- The parameters of 95_test_vectors.md section 0. -/
def params : Params where
  hasV128 := true
  hasV256 := true
  hasSpvuDst := true
  addrW := 32
  pfcId := 0x50464331
  pk444 := ⟨2, 1, 0⟩
  cm := ⟨testMatrix, testMatrix, testMatrix, testMatrix⟩
  zcFull := 128
  cmDot := .specDefault
  f2i := .specDefault
  nanSample := 0

/-- Three planes from `base` on, 0x1000 bytes apart, of one stride. -/
def planesAt (base stride : Nat) : Three PlaneRegs :=
  let plane := fun n => PlaneRegs.mk (BitVec.ofNat 32 (base + 0x1000 * n)) 0 (BitVec.ofNat 32 stride)
  ⟨plane 0, plane 1, plane 2⟩

/-- REG_BASE of the small platform's PFC. -/
def regBase0 : Nat := 0xF0000000

/-- A PFC out of reset with the descriptor of command word `op`: sources from 0x10000 on and
destinations from 0x20000 on, every stride 512. -/
def pfcFor (op w h : Nat) : Pfc :=
  { Pfc.reset params regBase0 with
    op := BitVec.ofNat 32 op
    width := BitVec.ofNat 16 w
    height := BitVec.ofNat 16 h
    src := planesAt 0x10000 512
    dst := planesAt 0x20000 512 }

/-- Memory holding rows of bytes at their addresses. -/
def memOf (rows : List (Nat × List Byte)) : Memory :=
  Cells.writeAll [] (rows.flatMap fun r => (List.range r.2.length).map fun k => (r.1 + k, r.2.getD k 0))

/-- The bytes of binary32 words, little-endian. -/
def floats (ws : List Word) : List Byte :=
  ws.flatMap fun w => [byteOfWord w 0, byteOfWord w 1, byteOfWord w 2, byteOfWord w 3]

/-- One PFC, memory mapped from 0 to 0x40000, the host at the statement `st`. -/
def stateOf (p : Pfc) (rows : List (Nat × List Byte)) (prog : List Stmt) : State where
  cfg := params
  before := []
  pfc := p
  after := []
  mem := memOf rows
  memMap := [⟨0, 0x40000, true, true⟩]
  host := ⟨prog, 0, []⟩
  turns := []
  draws := 0
  unseen := []

/-- The same with the PFC busy with its descriptor, on the tier SelectTier gives. -/
def busyOf (i : Instr) (w h : Nat) (rows : List (Nat × List Byte)) (prog : List Stmt) : State :=
  let p := pfcFor (encodeOp i).toNat w h
  let lc := p.latch params
  stateOf (p.accept lc (selectTier params i.src i.dst lc) (memOf rows)) rows prog

/-- What the engine of `busyOf` runs. -/
def runOf (i : Instr) (w h : Nat) (rows : List (Nat × List Byte)) : Running :=
  ⟨(pfcFor (encodeOp i).toNat w h).latch params, memOf rows⟩

/-- The idle state of the same descriptor. -/
def idleOf (i : Instr) (w h : Nat) (prog : List Stmt) : State :=
  stateOf (pfcFor (encodeOp i).toNat w h) [] prog

/-- Rows of `n` bytes read at their addresses after an outcome; none where it stopped. -/
def readRows (o : Host.Outcome State Fault Refusal) (addrs : List Nat) (n : Nat) :
    Option (List (List Byte)) :=
  match o with
  | .next t => some (addrs.map fun a => (List.range n).map fun k => Cells.read t.mem (a + k))
  | .fault _ => none
  | .refused _ => none

/-- A fact about the next state of an outcome; false where it stopped. -/
def holdsAfter (o : Host.Outcome State Fault Refusal) (f : State → Bool) : Bool :=
  match o with
  | .next t => f t
  | .fault _ => false
  | .refused _ => false

/-! ## Well-formedness: a term that each check refuses -/

theorem test_wellFormed_spvu_needs_caps :
    Instr.wellFormed { params with hasSpvuDst := false } .cvtP420Spvu = false := by decide +kernel
theorem test_wellFormed_spuv_needs_none :
    Instr.wellFormed { params with hasSpvuDst := false } .cvtP420Spuv = true := by decide +kernel
theorem test_stmt_offset_unaligned : Stmt.wellFormed [0] 32 [] (.wr32 0 0x022 0) = false := by
  decide +kernel
theorem test_stmt_offset_outside : Stmt.wellFormed [0] 32 [] (.rd32 0 0x1000 0) = false := by
  decide +kernel
theorem test_stmt_no_such_pfc : Stmt.wellFormed [0] 32 [] (.waitIrq 1) = false := by decide +kernel
theorem test_stmt_other_access : Stmt.wellFormed [0] 32 [] (.regOther 0 0x020 1) = false := by
  decide +kernel
theorem test_stmt_address_outside : Stmt.wellFormed [0] 32 [] (.memW32 0xFFFFFFFD 0) = false := by
  decide +kernel
theorem test_stmt_no_such_label : Stmt.wellFormed [0] 32 [.label 2] (.bnz 0 1 3) = false := by
  decide +kernel
theorem test_params_offsets_distinct :
    Params.legal { params with pk444 := ⟨2, 2, 0⟩ } = false := by decide +kernel

/-! ## Decoding: words written out from 30_encoding.md R90 to R104 (RSV, SEL, DSTF, SRCF) -/

theorem test_decode_p420_spuv : decodeOp (0b00#22 ++ 0b00#2 ++ 1#4 ++ 0#4) = .ok .cvtP420Spuv := by
  decide +kernel
theorem test_decode_p420_spvu : decodeOp 0x00000020 = .ok .cvtP420Spvu := by decide +kernel
theorem test_decode_pk444_p444 : decodeOp (0b00#22 ++ 0b00#2 ++ 3#4 ++ 4#4) = .ok .cvtPk444P444 := by
  decide +kernel
theorem test_decode_pk422c_spuv : decodeOp 0x00000015 = .ok .cvtPk422cSpuv := by decide +kernel
theorem test_decode_pk422c_spvu : decodeOp (0b00#22 ++ 0b00#2 ++ 2#4 ++ 5#4) = .ok .cvtPk422cSpvu := by
  decide +kernel
theorem test_decode_pk422l_spuv : decodeOp 0x00000016 = .ok .cvtPk422lSpuv := by decide +kernel
theorem test_decode_pk422l_spvu : decodeOp 0x00000026 = .ok .cvtPk422lSpvu := by decide +kernel
theorem test_decode_rgbf_p444 :
    decodeOp 0x00000037 = .ok (.cvtRgbfP444 .full601)
      ∧ decodeOp 0x00000137 = .ok (.cvtRgbfP444 .full709)
      ∧ decodeOp 0x00000237 = .ok (.cvtRgbfP444 .studio601) := by decide +kernel
theorem test_decode_rgbf_spuv :
    decodeOp (0b00#22 ++ 0b11#2 ++ 1#4 ++ 7#4) = .ok (.cvtRgbfSpuv .studio709) := by decide +kernel
theorem test_decode_rgbf_spvu : decodeOp 0x00000327 = .ok (.cvtRgbfSpvu .studio709) := by
  decide +kernel
/-- SEL is ignored (95_test_vectors.md section 3.1, OP 0x310). -/
theorem test_decode_ignores_sel : decodeOp 0x00000310 = .ok .cvtP420Spuv := by decide +kernel
/-- The rejections of 95_test_vectors.md section 3.1. -/
theorem test_decode_rejects :
    [0x400, 0x80000010].map decodeOp = [.error .op, .error .op]
      ∧ [0x9F, 0x19, 0x90].map decodeOp = [.error .fmt, .error .fmt, .error .fmt]
      ∧ ([0x0, 0x81, 0x08, 0x73, 0x12, 0x14, 0x35, 0x30, 0x77].all fun w =>
          decide (decodeOp w = .error .unsup)) = true
      ∧ decodeOn { params with hasSpvuDst := false } 0x20 = .error .unsup := by decide +kernel
theorem test_decode_short_word : decodeBytes [0x10, 0x00, 0x00] = .error .op := by decide +kernel
theorem test_decodeTableWord_rows :
    ([0x10, 0x20, 0x34, 0x15, 0x25, 0x16, 0x26, 0x37, 0x17, 0x27].all fun w =>
      (decodeTableWord 32 w).isSome) = true := by decide +kernel
/-- The word placed by `withFetchWord` is run by the next step. -/
theorem test_withFetchWord_runs :
    holdsAfter (step (State.reset.withFetchWord 32 0x237))
      (fun t => t.pfc.op == 0x237 && t.pfc.irqStatus == 1 && !t.pfc.busy) = true := rfl

/-! ## The commands, by the vectors of 95_test_vectors.md -/

/-- The source of K43-3: Y byte (x, y) is 0x10 y + x. -/
def rows420 : List (Nat × List Byte) :=
  [(0x10000, [0x00, 0x01, 0x02, 0x03]), (0x10200, [0x10, 0x11, 0x12, 0x13]),
   (0x10400, [0x20, 0x21, 0x22, 0x23]), (0x10600, [0x30, 0x31, 0x32, 0x33]),
   (0x11000, [1, 2]), (0x11200, [3, 4]), (0x12000, [5, 6]), (0x12200, [7, 8])]

/-- K43-3. -/
theorem test_p420_spuv :
    readRows (exec .cvtP420Spuv (busyOf .cvtP420Spuv 4 4 rows420 []))
      [0x20000, 0x20600, 0x21000, 0x21200] 4
      = some [[0x00, 0x01, 0x02, 0x03], [0x30, 0x31, 0x32, 0x33], [1, 5, 2, 6], [3, 7, 4, 8]] := by
  decide +kernel
/-- K43-4. -/
theorem test_p420_spvu :
    readRows (exec .cvtP420Spvu (busyOf .cvtP420Spvu 4 4 rows420 []))
      [0x20000, 0x20600, 0x21000, 0x21200] 4
      = some [[0x00, 0x01, 0x02, 0x03], [0x30, 0x31, 0x32, 0x33], [5, 1, 6, 2], [7, 3, 8, 4]] := by
  decide +kernel
/-- K43-6: bytes past the used ones are kept. -/
theorem test_p420_spuv_padding :
    readRows (exec .cvtP420Spuv (busyOf .cvtP420Spuv 2 2
      [(0x11000, [0x80]), (0x12000, [0x90]), (0x21000, [0xEE, 0xEE, 0xEE, 0xEE, 0xEE, 0xEE])] []))
      [0x21000] 6 = some [[0x80, 0x90, 0xEE, 0xEE, 0xEE, 0xEE]] := by decide +kernel

/-- K44-1: the flip with odd H. -/
theorem test_pk444_p444 :
    readRows (exec .cvtPk444P444 (busyOf .cvtPk444P444 2 3
      [(0x10000, [0x00, 0x01, 0x02, 0x03, 0x04, 0x05, 0x06, 0x07]),
       (0x10200, [0x10, 0x11, 0x12, 0x13, 0x14, 0x15, 0x16, 0x17]),
       (0x10400, [0x20, 0x21, 0x22, 0x23, 0x24, 0x25, 0x26, 0x27])] []))
      [0x20000, 0x20200, 0x20400, 0x21000, 0x22400] 2
      = some [[0x22, 0x26], [0x12, 0x16], [0x02, 0x06], [0x21, 0x25], [0x00, 0x04]] := by
  decide +kernel

/-- The chroma-first source of K45-1. -/
def rows422c : List (Nat × List Byte) := [(0x10000, [100, 16, 200, 17]), (0x10200, [102, 18, 201, 19])]

/-- The luma-first source of K45-3. -/
def rows422l : List (Nat × List Byte) := [(0x10000, [16, 100, 17, 200]), (0x10200, [18, 102, 19, 201])]

/-- K45-1, the source's own example S1. -/
theorem test_pk422c_spuv :
    readRows (exec .cvtPk422cSpuv (busyOf .cvtPk422cSpuv 2 2 rows422c []))
      [0x20000, 0x20200, 0x21000] 2 = some [[16, 17], [18, 19], [101, 201]] := by decide +kernel
/-- K45-2. -/
theorem test_pk422c_spvu :
    readRows (exec .cvtPk422cSpvu (busyOf .cvtPk422cSpvu 2 2 rows422c []))
      [0x20000, 0x20200, 0x21000] 2 = some [[16, 17], [18, 19], [201, 101]] := by decide +kernel
/-- K45-3. -/
theorem test_pk422l_spuv :
    readRows (exec .cvtPk422lSpuv (busyOf .cvtPk422lSpuv 2 2 rows422l []))
      [0x20000, 0x20200, 0x21000] 2 = some [[16, 17], [18, 19], [101, 201]] := by decide +kernel
/-- K45-4. -/
theorem test_pk422l_spvu :
    readRows (exec .cvtPk422lSpvu (busyOf .cvtPk422lSpvu 2 2 rows422l []))
      [0x20000, 0x20200, 0x21000] 2 = some [[16, 17], [18, 19], [201, 101]] := by decide +kernel
/-- K45-6: chroma rows 1 and 2 are never averaged. -/
theorem test_pk422l_spuv_blocks :
    readRows (exec .cvtPk422lSpuv (busyOf .cvtPk422lSpuv 2 4
      [(0x10000, [0, 10, 1, 0]), (0x10200, [2, 20, 3, 0]), (0x10400, [4, 30, 5, 255]),
       (0x10600, [6, 40, 7, 255])] []))
      [0x20600, 0x21000, 0x21200] 2 = some [[6, 7], [15, 0], [35, 255]] := by decide +kernel

/-- K46-12: pixels K46-1, K46-2, K46-3 under TM and SEL 2. -/
theorem test_rgbf_p444 :
    readRows (exec (.cvtRgbfP444 .studio601) (busyOf (.cvtRgbfP444 .studio601) 3 1
      [(0x10000, floats [0x42C80000, 0, 0, 0, 0x42480000, 0xC1200000, 0x41200000, 0,
        0x42FD0000, 0x42FF0000, 0xBF000000, 0])] []))
      [0x20000, 0x21000, 0x22000] 3
      = some [[0x74, 0x42, 0x8E], [0x80, 0x76, 0xFF], [0x80, 0x8A, 0x80]] := by decide +kernel
/-- K46-11: the flip. -/
theorem test_rgbf_p444_flip :
    readRows (exec (.cvtRgbfP444 .studio601) (busyOf (.cvtRgbfP444 .studio601) 1 2
      [(0x10000, floats [0x42C80000, 0, 0, 0]),
       (0x10200, floats [0x42480000, 0xC1200000, 0x41200000, 0])] []))
      [0x20000, 0x20200, 0x21000, 0x22000] 1 = some [[66], [116], [118], [138]] := by decide +kernel

/-- The source of K46-15. -/
def rowsRgb : List (Nat × List Byte) :=
  [(0x10000, floats [0, 0, 0, 0, 0x3F800000, 0x40800000, 0xC0800000, 0]),
   (0x10200, floats [0x41200000, 0x41000000, 0xC1000000, 0, 0x41300000, 0x41400000, 0xC1400000, 0]),
   (0x10400, floats [0x41A00000, 0x3F800000, 0x3F800000, 0, 0x41A80000, 0x3F800000, 0x40000000, 0]),
   (0x10600, floats [0x41F00000, 0x40000000, 0x40000000, 0, 0x41F80000, 0x40000000, 0x40000000, 0])]

/-- K46-15. -/
theorem test_rgbf_spuv :
    readRows (exec (.cvtRgbfSpuv .studio709) (busyOf (.cvtRgbfSpuv .studio709) 2 4 rowsRgb []))
      [0x20000, 0x20200, 0x20400, 0x20600, 0x21000, 0x21200] 2
      = some [[46, 47], [36, 37], [26, 27], [16, 17], [130, 130], [134, 122]] := by decide +kernel
/-- K46-16. -/
theorem test_rgbf_spvu :
    readRows (exec (.cvtRgbfSpvu .studio709) (busyOf (.cvtRgbfSpvu .studio709) 2 4 rowsRgb []))
      [0x20000, 0x20200, 0x20400, 0x20600, 0x21000, 0x21200] 2
      = some [[46, 47], [36, 37], [26, 27], [16, 17], [130, 130], [122, 134]] := by decide +kernel

/-- 95_test_vectors.md section 4. -/
theorem test_averages :
    avg2 100 101 = 101 ∧ avg2 255 255 = 255 ∧ avg4 0 0 0 1 = 0 ∧ avg4 0 0 1 1 = 1
      ∧ avg4 0 255 0 255 = 128 := by decide +kernel
/-- 95_test_vectors.md section 8.1. -/
theorem test_f2i_ties :
    f2iDefault 0x42FD0000 = .int 126 ∧ f2iDefault 0x42FF0000 = .int 128 ∧ f2iDefault 0xBFC00000 = .int (-2)
      ∧ f2iDefault 0x00000001 = .int 0 := by decide +kernel
/-- K46-8: the sum is left to right. -/
theorem test_cmDot_order :
    cmDotDefault ⟨0x4B800000, 0x3F800000, 0xCB800000, 0⟩ ⟨0x3F800000, 0x3F800000, 0x3F800000, 0⟩ = 0 := by
  decide +kernel
/-- 46_rgb_to_yuv.md R226, "Fourth channel": a zero factor gives a signed zero, whatever the other is. -/
theorem test_fmul_zero :
    fmul 0x7F000000 0x00000000 = 0x00000000 ∧ fmul 0x80000000 0x7F7FFFFF = 0x80000000 := by decide +kernel
/-- R218 by hand: 2^127 × 0, then 2^-25, then 0.5 is the tie 0.5 + 2^-25, which rounds to 0.5, and so to
the integer 0. -/
theorem test_cmDot_zero_coefficient :
    cmDotDefault ⟨0x7F000000, 0x33000000, 0x3F000000, 0⟩ ⟨0, 0x3F800000, 0x3F800000, 0⟩ = 0x3F000000
      ∧ f2iDefault 0x3F000000 = .int 0 := by decide +kernel
/-- K46-6: a NaN in the fourth channel reaches every component. -/
theorem test_cmDot_nan :
    isNaN32 (cmDotDefault ⟨0x3F800000, 0x40000000, 0x40400000, 0x7FC00000⟩ (unitRow 1)) = true := by
  decide +kernel

/-- A running CVT_PK444_P444 whose host is about to store into its source. -/
def storeIntoSource : State := busyOf .cvtPk444P444 2 2 [] [.memW8 0x10000 9]

/-! ## Control, by the vectors of 95_test_vectors.md sections 2 and 9 -/

/-- K40-22: ERR_STRIDE, STATUS 0x50, IRQ_STATUS 2. -/
theorem test_start_err_stride :
    holdsAfter (startWrite { idleOf .cvtPk444P444 1 1 [] with
        pfc := { pfcFor 0x34 1 1 with src := planesAt 0 0 } })
      (fun t => t.pfc.statusWord == 0x50 && t.pfc.irqStatus == 2) = true := by decide +kernel
/-- K40-15: write one to clear. -/
theorem test_irq_w1c :
    holdsAfter (regWrite (stateOf { pfcFor 0 0 0 with irqStatus := 7 } [] []) 0x014 0x5)
      (fun t => t.pfc.readAt t.cfg 0x014 == 2) = true := by decide +kernel
/-- K40-2: the allow bit of an absent tier stays 0. -/
theorem test_tierAllow_warl :
    holdsAfter (regWrite { stateOf (pfcFor 0 0 0) [] [] with cfg := { params with hasV256 := false } }
        0x008 0x3)
      (fun t => t.pfc.readAt t.cfg 0x008 == 1) = true := by decide +kernel
/-- 20_memory.md R78: a host store to a footprint byte that the memory map makes read-only is a race. -/
theorem test_store_readOnly_source_races :
    (match hostTurn { storeIntoSource with memMap := [⟨0x10000, 0x1000, true, false⟩] } with
      | .fault f => f == .race
      | .next _ | .refused _ => false) = true := by decide +kernel
/-- 60_exceptions.md R281: a register write goes to the PFC whose REG_BASE it names, not to the first. -/
theorem test_write_by_regBase :
    holdsAfter (hostTurn { stateOf (pfcFor 0 0 0) [] [.wr32 0xE0000000 0x024 8] with
        after := [Pfc.reset params 0xE0000000] })
      (fun t => t.pfcs.map (fun p => (p.regBase, p.width)) == [(regBase0, 0), (0xE0000000, 8)]) = true := by
  decide +kernel
/-- 60_exceptions.md R281: of bases whose blocks overlap only the first is an instance's. -/
theorem test_separateBases : separateBases [0x1000] [0x2000, 0x1FFC, 0x5000, 0x2000] = [0x2000, 0x5000] := by
  decide +kernel
/-- A running CVT_PK444_P444, its run to the end, and the first host statements after it. -/
def afterEnd (prog : List Stmt) (turns : List Turn) (f : State → Bool) : Bool :=
  let s := { busyOf .cvtPk444P444 2 2 [(0x10000, [1, 2, 3, 4])] prog with turns := .engine 0 :: turns }
  match step s with
  | .next t =>
    (match turns with
    | [_, _] => (match step t with
      | .next u => holdsAfter (step u) f
      | .fault _ | .refused _ => false)
    | _ => holdsAfter (step t) f)
  | .fault _ | .refused _ => false
/-- 70_reset_and_hazards.md R296: a load right after the end, and one after a read of ID, are draws. -/
theorem test_load_before_seen :
    afterEnd [.memR8 0x20200 1] [.host] (fun t => t.draws == 1) = true
      ∧ afterEnd [.rd32 regBase0 0x000 0, .memR8 0x20200 1] [.host, .host] (fun t => t.draws == 1) = true := by
  decide +kernel
/-- 20_memory.md R76: after a read of STATUS the destination byte is the command's, here Y of the top row,
which the flip puts into the last (44_deinterleave_444.md R190, PK444_OFF (2, 1, 0)). -/
theorem test_load_after_seen :
    afterEnd [.rd32 regBase0 0x010 0, .memR8 0x20200 1] [.host, .host]
      (fun t => Cells.read t.host.vars 1 == 3 && t.draws == 0) = true := by decide +kernel
/-- D1, D2, D12: W 64, 48, 8. -/
theorem test_selectTier_widths :
    [64, 48, 8].map (fun w => selectTier params .p420 .spuv ((pfcFor 0x10 w 2).latch params))
      = [.v256, .v128, .scalar] := by decide +kernel
/-- M7, M8: a plane that ends at 2^32 exactly, and one that ends past it. -/
theorem test_range_edge :
    [0xFFFFFFE0, 0xFFFFFFF0].map (fun a =>
      rangeOk 32 .pk444 .p444 (Pfc.latch params { pfcFor 0x34 4 1 with
        dst := ⟨⟨BitVec.ofNat 32 a, 0, 4⟩, ⟨0, 0, 4⟩, ⟨0, 0, 4⟩⟩ })) = [true, false] := by
  decide +kernel

/-! ## Witnesses: the hypotheses of each obligation are met by a concrete state and operands -/

/-- A running command of 2×2 pixels, its host at `prog`. -/
def running (i : Instr) (prog : List Stmt) : State := busyOf i 2 2 [(0x10000, [1, 2, 3, 4])] prog

/-- The latched command of `running`. -/
def runningRun (i : Instr) : Running := runOf i 2 2 [(0x10000, [1, 2, 3, 4])]

/-- Every command as `running` runs it is one that START accepted, with its footprint mapped. -/
theorem running_runs (i : Instr) (prog : List Stmt) : (running i prog).runs i (runningRun i) := by
  have h : ∀ i, (running i []).runs i (runningRun i) := by
    intro i
    unfold State.runs acceptable
    cases i with
    | cvtRgbfP444 sel | cvtRgbfSpuv sel | cvtRgbfSpvu sel => cases sel <;> decide +kernel
    | _ => decide +kernel
  exact h i

/-- Every command's descriptor of 2×2 pixels may be started from the idle engine. -/
theorem idle_mayStart (i : Instr) (prog : List Stmt) : (idleOf i 2 2 prog).mayStart i := by
  have h : ∀ i, (idleOf i 2 2 []).mayStart i := by
    intro i
    unfold State.mayStart
    cases i with
    | cvtRgbfP444 sel | cvtRgbfSpuv sel | cvtRgbfSpvu sel => cases sel <;> decide +kernel
    | _ => decide +kernel
  exact h i

theorem idle_decodes (i : Instr) (prog : List Stmt) :
    decodeOn (idleOf i 2 2 prog).cfg (idleOf i 2 2 prog).pfc.op = .ok i := by
  have h : ∀ i, decodeOn (idleOf i 2 2 []).cfg (idleOf i 2 2 []).pfc.op = .ok i := by
    intro i
    cases i with
    | cvtRgbfP444 sel | cvtRgbfSpuv sel | cvtRgbfSpvu sel => cases sel <;> decide +kernel
    | _ => decide +kernel
  exact h i

theorem running_decodes (i : Instr) : decodeOp (runningRun i).lc.op = .ok i := by
  cases i with
  | cvtRgbfP444 sel | cvtRgbfSpuv sel | cvtRgbfSpvu sel => cases sel <;> decide +kernel
  | _ => decide +kernel

/-- A second PFC, idle, at another register block. -/
def otherPfc : Pfc := Pfc.reset params 0xE0000000

/-- A PFC whose reset is asserted. -/
def heldPfc : Pfc := { pfcFor 0 0 0 with inReset := true }

theorem witness_ResetRegisterValues :
    (∃ u, (stateOf heldPfc [] []).selectAt 0 = some u ∧ u.pfc.inReset = true)
      ∧ ∃ u, (stateOf (pfcFor 0 0 0) [] []).selectAt 0 = some u ∧ u.pfc.engine = none :=
  ⟨⟨stateOf heldPfc [] [], by decide +kernel⟩, ⟨stateOf (pfcFor 0 0 0) [] [], by decide +kernel⟩⟩

theorem witness_ResetWhileBusyStopsCommand :
    (running .cvtP420Spuv []).selectAt 0 = some (running .cvtP420Spuv [])
      ∧ (running .cvtP420Spuv []).pfc.engine = some (runningRun .cvtP420Spuv) := by decide +kernel

theorem witness_NoCommandRunsOnResetValues :
    let s := idleOf .cvtPk444P444 0 0 []
    s.pfc.engine = none ∧ decodeOn s.cfg s.pfc.op = .ok .cvtPk444P444 ∧ s.pfc.width = 0
      ∧ s.pfc.height = 0 := by decide +kernel

/-- The first and the last reserved offsets of the map. -/
theorem witness_ReservedAndReadOnlyOffsets :
    regAt 0x01C = none ∧ regAt 0x078 ≠ none ∧ regAt 0x07C = none ∧ regAt 0xFFC = none
      ∧ (0x2 : Word).getLsbD 0 = false := by decide +kernel

theorem witness_TierAllowWrite :
    (0x2 : Word).getLsbD 0 = false ∧ (0x1 : Word).getLsbD 1 = false := by decide +kernel

theorem witness_InterruptRegisterWrites :
    let s := running .cvtP420Spuv [.wr32 regBase0 0x014 0x1]
    s.runs .cvtP420Spuv (runningRun .cvtP420Spuv)
      ∧ decodeOp (runningRun .cvtP420Spuv).lc.op = .ok .cvtP420Spuv
      ∧ s.pfc.inReset = false ∧ hostIsAt s (.wr32 s.pfc.regBase 0x014 0x1) :=
  ⟨running_runs _ _, running_decodes _, rfl, rfl⟩

/-- The descriptor registers at both ends of the map, and a masked one. -/
theorem witness_DescriptorWrite :
    Reg.op.isDescriptor = true ∧ (Reg.dstStride .p2).isDescriptor = true
      ∧ (Reg.srcAddrHi .p0).isDescriptor = true ∧ params.legal = true
      ∧ { params with addrW := 64 }.legal = true ∧ Reg.width ≠ Reg.op := by decide +kernel

theorem witness_RegisterReadHasNoSideEffect :
    let s := running .cvtP420Spuv [.rd32 regBase0 0x010 7]
    hostIsAt s (.rd32 regBase0 0x010 7) ∧ 0x010 % 4 = 0 ∧ 0x010 < 4096 ∧ s.select regBase0 = some s
      ∧ s.pfc.inReset = false ∧ 8 ≠ 7 := by unfold hostIsAt; decide +kernel

theorem witness_OtherRegisterAccessRefused :
    hostIsAt (idleOf .cvtP420Spuv 2 2 [.regOther regBase0 0x020 2]) (.regOther regBase0 0x020 2)
      ∧ hostIsAt (idleOf .cvtP420Spuv 2 2 [.wr32 regBase0 0x021 0]) (.wr32 regBase0 0x021 0) ∧ 0x021 % 4 ≠ 0
      ∧ hostIsAt (idleOf .cvtP420Spuv 2 2 [.rd32 regBase0 4096 1]) (.rd32 regBase0 4096 1) ∧ 4096 ≤ 4096 := by
  unfold hostIsAt; decide +kernel

theorem witness_RegisterAccessWaitsInReset :
    let s := stateOf heldPfc [] [.wr32 regBase0 0x00C 0x1]
    let t := stateOf heldPfc [] [.rd32 regBase0 0xFFC 1]
    s.select regBase0 = some s ∧ s.pfc.inReset = true ∧ hostIsAt s (.wr32 regBase0 0x00C 0x1)
      ∧ t.select regBase0 = some t ∧ t.pfc.inReset = true ∧ hostIsAt t (.rd32 regBase0 0xFFC 1)
      ∧ 0xFFC % 4 = 0 ∧ 0xFFC < 4096
      ∧ (idleOf .cvtP420Spuv 2 2 []).selectAt 0 = some (idleOf .cvtP420Spuv 2 2 [])
      ∧ (idleOf .cvtP420Spuv 2 2 []).pfc.engine = none := by unfold hostIsAt; decide +kernel

theorem witness_StartWhileBusyIsOverrun :
    (running .cvtPk444P444 []).pfc.engine ≠ none ∧ (0x1 : Word).getLsbD 0 = true := by decide +kernel

/-- A state for each clause, in the order of the clauses. -/
theorem witness_StartErrorsInOrder :
    (stateOf (pfcFor 0x415 3 2) [] []).pfc.op.toNat / 2 ^ 10 ≠ 0
      ∧ (9 ≤ (0x19 : Nat) % 16 ∧ 9 ≤ (0x90 : Nat) / 16 % 16)
      ∧ (0x12 % 256 ∉ [0x10, 0x20, 0x34, 0x15, 0x25, 0x16, 0x26, 0x37, 0x17, 0x27]
          ∧ 0x20 / 16 % 16 = 2 ∧ { params with hasSpvuDst := false }.hasSpvuDst = false)
      ∧ (let s := idleOf .cvtP420Spuv 3 2 [];
          s.pfc.engine = none ∧ decodeOn s.cfg s.pfc.op = .ok .cvtP420Spuv
            ∧ dimsOk .p420 .spuv (s.pfc.latch s.cfg) = false)
      ∧ (let s := stateOf { pfcFor 0x34 4 1 with src := planesAt 0x10000 15 } [] [];
          s.pfc.engine = none ∧ decodeOn s.cfg s.pfc.op = .ok .cvtPk444P444
            ∧ dimsOk .pk444 .p444 (s.pfc.latch s.cfg) = true
            ∧ stridesOk .pk444 .p444 (s.pfc.latch s.cfg) = false)
      ∧ (let s := stateOf { pfcFor 0x34 4 1 with dst := planesAt 0xFFFFFFF0 4 } [] [];
          s.pfc.engine = none ∧ decodeOn s.cfg s.pfc.op = .ok .cvtPk444P444
            ∧ dimsOk .pk444 .p444 (s.pfc.latch s.cfg) = true
            ∧ stridesOk .pk444 .p444 (s.pfc.latch s.cfg) = true
            ∧ rangeOk s.cfg.addrW .pk444 .p444 (s.pfc.latch s.cfg) = false) := by decide +kernel

/-- The last row of an accepted plane, at the last address of the space but the rounding. -/
theorem witness_AcceptedFootprintsExist :
    let lc := Pfc.latch params { pfcFor 0x34 4 1 with dst := planesAt 0xFFFFD000 4 }
    rangeOk 32 .pk444 .p444 lc = true
      ∧ anyHas ((lc.srcFootprints .pk444 .scalar).flatten ++ (lc.dstFootprints .p444 .scalar).flatten)
          0xFFFFF003 = true := by decide +kernel

theorem witness_LatchedOperands :
    params.legal = true ∧ { params with addrW := 64 }.legal = true := by decide +kernel

theorem witness_StartAcceptsCommand (i : Instr) :
    decodeOn (idleOf i 2 2 []).cfg (idleOf i 2 2 []).pfc.op = .ok i
      ∧ (idleOf i 2 2 []).mayStart i := ⟨idle_decodes i [], idle_mayStart i []⟩

/-- K40-23, an overlap of two destinations; a destination in a register block; a race. -/
theorem witness_UndefinedStartsFault :
    (let s := stateOf { pfcFor 0x34 1 1 with src := planesAt 0 4, dst := ⟨⟨0, 0, 1⟩, ⟨0, 0, 1⟩, ⟨0, 0, 1⟩⟩ }
        [] [];
      s.pfc.engine = none ∧ decodeOn s.cfg s.pfc.op = .ok .cvtPk444P444
        ∧ startError s.cfg .pk444 .p444 (s.pfc.latch s.cfg) = none
        ∧ (s.pfc.latch s.cfg).overlapping .pk444 .p444
            (selectTier s.cfg .pk444 .p444 (s.pfc.latch s.cfg)) = true)
    ∧ (let s := stateOf { pfcFor 0x34 1 1 with dst := planesAt 0xF0000000 4 } [] [];
      s.pfc.engine = none ∧ startError s.cfg .pk444 .p444 (s.pfc.latch s.cfg) = none
        ∧ (s.pfc.latch s.cfg).overlapping .pk444 .p444 .scalar = false
        ∧ selectTier s.cfg .pk444 .p444 (s.pfc.latch s.cfg) = .scalar
        ∧ ∃ q ∈ s.pfcs, anyOverlap (((s.pfc.latch s.cfg).srcFootprints .pk444 .scalar).flatten
            ++ ((s.pfc.latch s.cfg).dstFootprints .p444 .scalar).flatten) [q.block] = true)
    ∧ (let busy := (running .cvtPk444P444 []).pfc;
      let s := { idleOf .cvtPk444P444 2 2 [] with after := [{ busy with regBase := 0xE0000000 }] };
      s.pfc.engine = none ∧ startError s.cfg .pk444 .p444 (s.pfc.latch s.cfg) = none
        ∧ (s.pfc.latch s.cfg).overlapping .pk444 .p444 .scalar = false
        ∧ selectTier s.cfg .pk444 .p444 (s.pfc.latch s.cfg) = .scalar
        ∧ (∀ q ∈ s.pfcs, anyOverlap (((s.pfc.latch s.cfg).srcFootprints .pk444 .scalar).flatten
            ++ ((s.pfc.latch s.cfg).dstFootprints .p444 .scalar).flatten) [q.block] = false)
        ∧ ∃ q ∈ s.others,
            racing (s.pfc.accept (s.pfc.latch s.cfg) .scalar s.mem) q = true) := by decide +kernel

/-- A running command that runs on over a host statement, and one that its engine ends. -/
theorem witness_OnlyEndOrResetStopsCommand :
    (let s := { running .cvtP420Spuv [.wr32 regBase0 0x024 8] with turns := [.host] };
      s.pfcs[0]? = some s.pfc ∧ s.pfc.engine = some (runningRun .cvtP420Spuv) ∧ s.pfc.inReset = false
        ∧ holdsAfter (step s) (fun t => t.pfc.engine == some (runningRun .cvtP420Spuv)) = true)
    ∧ (let s := { running .cvtP420Spuv [] with turns := [.engine 0] };
      s.pfcs[0]? = some s.pfc ∧ s.pfc.engine = some (runningRun .cvtP420Spuv)
        ∧ holdsAfter (step s) (fun t => t.pfc.engine == none) = true) := by decide +kernel

/-- D2; D3; D4 and D5; D8 and a missing tier; D6 and a missing tier. -/
theorem witness_SelectTierProperties :
    (let lc := (pfcFor 0x10 48 2).latch params;
      lc.w % 16 = 0 ∧ lc.w % 32 ≠ 0)
    ∧ (let lc := Pfc.latch params { pfcFor 0x10 64 2 with dst := planesAt 0x20008 64 };
      ∃ g ∈ lc.dstPlanes .spuv, (lc.dst.get g.ix).a % 16 ≠ 0)
    ∧ (let lc := Pfc.latch params { pfcFor 0x10 64 2 with src := planesAt 0x10000 48 };
      ∃ g ∈ lc.srcPlanes .p420, (lc.src.get g.ix).s % 16 = 0 ∧ (lc.src.get g.ix).s % 32 ≠ 0)
    ∧ (let lc := Pfc.latch params { pfcFor 0x10 64 2 with dst := planesAt 0x20010 64 };
      ∃ g ∈ lc.dstPlanes .spuv, (lc.dst.get g.ix).a % 16 = 0 ∧ (lc.dst.get g.ix).a % 32 ≠ 0)
    ∧ { params with hasV256 := false }.hasV256 = false ∧ allowV256 0b01 = false
    ∧ { params with hasV128 := false }.hasV128 = false ∧ allowV128 0b10 = false := by decide +kernel

/-- For each allow value, a command that qualifies and one that does not. -/
theorem witness_AllowBitsAreIndependent :
    let lc := fun (w : Nat) (allow : BitVec 2) =>
      Pfc.latch params { pfcFor 0x10 w 2 with tierAllow := allow }
    params.hasV256 = true ∧ params.hasV128 = true
      ∧ (lc 64 0b10).allow = 0b10 ∧ disqualified .p420 .spuv (lc 64 0b10) 32 32 = false
      ∧ disqualified .p420 .spuv (lc 48 0b10) 32 32 = true
      ∧ (lc 48 0b01).allow = 0b01 ∧ disqualified .p420 .spuv (lc 48 0b01) 16 16 = false
      ∧ disqualified .p420 .spuv (lc 8 0b01) 16 16 = true ∧ (lc 64 0b00).allow = 0b00
      ∧ (lc 64 0b11).allow = 0b11 ∧ disqualified .p420 .spuv (lc 64 0b11) 32 32 = false
      ∧ (disqualified .p420 .spuv (lc 48 0b11) 32 32 = true
        ∧ disqualified .p420 .spuv (lc 48 0b11) 16 16 = false)
      ∧ (disqualified .p420 .spuv (lc 8 0b11) 32 32 = true
        ∧ disqualified .p420 .spuv (lc 8 0b11) 16 16 = true) := by
  decide +kernel

/-- M1 and M2: the two chroma windows of P420 sources. -/
theorem witness_OvershootStaysInsideRows :
    (let lc := (pfcFor 0x10 48 2).latch params;
      acceptable params .p420 .spuv lc .v128
        ∧ ∃ g ∈ lc.srcPlanes .p420, roundup g.used (laneWidth .v128) ≠ g.used)
    ∧ (let lc := (pfcFor 0x10 32 2).latch params;
      acceptable params .p420 .spuv lc .v256
        ∧ ∃ g ∈ lc.srcPlanes .p420, roundup g.used (laneWidth .v256) ≠ g.used) := by
  unfold acceptable; decide +kernel

/-- The 16×2 command on the 128-bit tier and, at other destinations and strides, on the scalar tier. -/
def tierRun (p : Pfc) : State :=
  stateOf (p.accept (p.latch params) (selectTier params .p420 .spuv (p.latch params)) (memOf rows420))
    rows420 []

/-- The same descriptor with destinations that are not aligned. -/
def unalignedPfc : Pfc := { pfcFor 0x10 16 2 with dst := planesAt 0x20001 17 }

theorem witness_TiersGiveIdenticalOutput :
    let s := tierRun (pfcFor 0x10 16 2)
    let t := tierRun unalignedPfc
    let run : Running := ⟨(pfcFor 0x10 16 2).latch params, memOf rows420⟩
    let run' : Running := ⟨unalignedPfc.latch params, memOf rows420⟩
    s.cfg = t.cfg ∧ s.runs .cvtP420Spuv run ∧ t.runs .cvtP420Spuv run'
      ∧ s.pfc.tier = .v128 ∧ t.pfc.tier = .scalar
      ∧ run.lc.width = run'.lc.width ∧ run.lc.height = run'.lc.height
      ∧ ∀ g ∈ run.lc.srcPlanes .p420, ∀ r < g.rows, ∀ k < g.used,
        Cells.read run.image (run.lc.srcAddr g.ix r k)
          = Cells.read run'.image (run'.lc.srcAddr g.ix r k) := by
  refine ⟨rfl, ?_, ?_, by decide +kernel, by decide +kernel, rfl, rfl, fun _ _ _ _ _ _ => rfl⟩ <;>
    (unfold State.runs acceptable; decide +kernel)

theorem witness_Interleave420Completes :
    (running .cvtP420Spuv []).runs .cvtP420Spuv (runningRun .cvtP420Spuv)
      ∧ (running .cvtP420Spvu []).runs .cvtP420Spvu (runningRun .cvtP420Spvu)
      ∧ 0 < (runningRun .cvtP420Spuv).lc.h / 2 ∧ 0 < (runningRun .cvtP420Spuv).lc.w / 2 :=
  ⟨running_runs _ _, running_runs _ _, by decide +kernel, by decide +kernel⟩

theorem witness_Deinterleave444Completes :
    (running .cvtPk444P444 []).runs .cvtPk444P444 (runningRun .cvtPk444P444)
      ∧ 1 < (runningRun .cvtPk444P444).lc.h ∧ 1 < (runningRun .cvtPk444P444).lc.w :=
  ⟨running_runs _ _, by decide +kernel, by decide +kernel⟩

theorem witness_Packed422Completes :
    (running .cvtPk422cSpuv []).runs .cvtPk422cSpuv (runningRun .cvtPk422cSpuv)
      ∧ (running .cvtPk422cSpvu []).runs .cvtPk422cSpvu (runningRun .cvtPk422cSpvu)
      ∧ (running .cvtPk422lSpuv []).runs .cvtPk422lSpuv (runningRun .cvtPk422lSpuv)
      ∧ (running .cvtPk422lSpvu []).runs .cvtPk422lSpvu (runningRun .cvtPk422lSpvu) :=
  ⟨running_runs _ _, running_runs _ _, running_runs _ _, running_runs _ _⟩

theorem witness_RgbfPlanarCompletes (sel : Sel) :
    (running (.cvtRgbfP444 sel) []).runs (.cvtRgbfP444 sel) (runningRun (.cvtRgbfP444 sel)) :=
  running_runs _ _

theorem witness_RgbfTo420Completes (sel : Sel) :
    (running (.cvtRgbfSpuv sel) []).runs (.cvtRgbfSpuv sel) (runningRun (.cvtRgbfSpuv sel))
      ∧ (running (.cvtRgbfSpvu sel) []).runs (.cvtRgbfSpvu sel) (runningRun (.cvtRgbfSpvu sel)) :=
  ⟨running_runs _ _, running_runs _ _⟩

theorem witness_CommandWritesOnlyItsFootprint :
    (running .cvtPk444P444 []).pfc.engine = some (runningRun .cvtPk444P444)
      ∧ holdsAfter (exec .cvtPk444P444 (running .cvtPk444P444 [])) (fun _ => true) = true
      ∧ anyHas ((runningRun .cvtPk444P444).lc.dstFootprints .p444 .scalar).flatten 0x20002 = false := by
  decide +kernel

/-- An accepted and a rejected START. -/
theorem witness_StartTouchesOnlyStatus :
    (idleOf .cvtPk444P444 2 2 []).pfc.engine = none
      ∧ holdsAfter (exec .cvtPk444P444 (idleOf .cvtPk444P444 2 2 [])) (fun t => t.pfc.busy) = true
      ∧ holdsAfter (exec .cvtPk444P444 (idleOf .cvtPk444P444 0 2 [])) (fun t => !t.pfc.busy) = true := by
  decide +kernel

/-- A footprint that is mapped, and the same on a platform that maps nothing. -/
theorem witness_BusErrorFaults :
    let s := running .cvtPk444P444 []
    s.pfc.engine = some (runningRun .cvtPk444P444)
      ∧ (runningRun .cvtPk444P444).lc.mapped s.memMap .pk444 .p444 s.pfc.tier = true
      ∧ (runningRun .cvtPk444P444).lc.mapped [] .pk444 .p444 s.pfc.tier = false := by decide +kernel

/-- 2^30 with an exponent that is not negative, and the tie 126.5. -/
theorem witness_FloatToIntegerIsNearestEven :
    unpack32 0x4E800000 = .fin false (2 ^ 23) 7 ∧ (0 : Int) ≤ 7
      ∧ unpack32 0x42FD0000 = .fin false 16580608 (-17) ∧ (-17 : Int) < 0 := by decide +kernel

theorem witness_SampleIsOffsetAndClamped :
    params.cmDot = .specDefault ∧ params.f2i = .specDefault
      ∧ ((.full601, .y, unitRow 0, 0) : Sel × Component × Row4 × Int)
          ∈ [(.full601, .y, params.cm.full601.y, 0)]
      ∧ ((.studio709, .v, unitRow 2, 128) : Sel × Component × Row4 × Int)
          ∈ [(.studio709, .v, params.cm.studio709.v, 128)]
      ∧ isNaN32 0x7FC00000 = true
      ∧ (isNaN32 0x437A0000 = false ∧ f2i params 0x437A0000 = .int 250)
      ∧ (isNaN32 0x7F800000 = false ∧ f2i params 0x7F800000 = .posInf)
      ∧ (isNaN32 0xFF800000 = false ∧ f2i params 0xFF800000 = .negInf) := by decide +kernel

/-- The first and the last channel, and an infinity against a zero coefficient. -/
theorem witness_NaNChannelGivesNaN :
    params.cmDot = .specDefault ∧ isNaN32 0x7FC00000 = true
      ∧ ((0x7FC00000, 0x3F800000) : Word × Word) ∈ [((0x7FC00000, 0x3F800000) : Word × Word), (0, 0), (0, 0), (0, 0)]
      ∧ ((0x7FC00000, 0) : Word × Word) ∈ [((0, 0) : Word × Word), (0, 0), (0, 0), (0x7FC00000, 0)]
      ∧ unpack32 0x7F800000 = .inf false ∧ unpack32 0x80000000 = .fin true 0 (-149) := by decide +kernel

/-- The smallest subnormal and the largest finite value against both zeros; a finite fourth channel against
+0.0, after a sum that is no zero. -/
theorem witness_UnitAndZeroAreExact :
    (let p : Row4 := ⟨0x3F800000, 0, 0, 0xFF7FFFFF⟩
      let m : Row4 := ⟨0x3F800000, 0, 0, 0⟩
      m.c3 = 0x00000000 ∧ unpack32 p.c3 = .fin true 16777215 104
        ∧ isNaN32 (fadd (fadd (fmul p.c0 m.c0) (fmul p.c1 m.c1)) (fmul p.c2 m.c2)) = false
        ∧ unpack32 (fadd (fadd (fmul p.c0 m.c0) (fmul p.c1 m.c1)) (fmul p.c2 m.c2))
            = .fin false (2 ^ 23) (-23))
      ∧ isNaN32 0x00000001 = false ∧ unpack32 0x00000001 = .fin false 1 (-149)
      ∧ unpack32 0xFF7FFFFF = .fin true 16777215 104 ∧ unpack32 0x80000000 = .fin true 0 (-149) := by
  decide +kernel

/-- A store to the last source byte of the running command, one beside it, and a word of which the last
byte alone is the first source byte. -/
theorem witness_HostStoreOutsideFootprints :
    (let s := running .cvtPk444P444 [.memW32 0xFFFD 9];
      hostIsAt s (.memW32 0xFFFD 9)
        ∧ ∃ k < 4, ∃ p ∈ s.pfcs, anyHas p.srcRanges (0xFFFD + k) = true
          ∨ anyHas p.dstRanges (0xFFFD + k) = true)
    ∧ (let s := running .cvtPk444P444 [.memW8 0x10207 9];
      hostIsAt s (.memW8 0x10207 9)
        ∧ ∃ p ∈ s.pfcs, anyHas p.srcRanges 0x10207 = true ∨ anyHas p.dstRanges 0x10207 = true)
    ∧ (let s := running .cvtPk444P444 [.memW8 0x10208 9];
      hostIsAt s (.memW8 0x10208 9) ∧ 0x10208 < 2 ^ s.cfg.addrW ∧ s.inBlock 0x10208 = false
        ∧ writableAt s.memMap 0x10208 = true
        ∧ ∀ p ∈ s.pfcs, anyHas p.srcRanges 0x10208 = false ∧ anyHas p.dstRanges 0x10208 = false) := by
  unfold hostIsAt; decide +kernel

/-- A load of a destination byte, which a map may leave out, of one the host has not seen, and of a source
byte. -/
theorem witness_HostLoadOfDestination :
    (let s := running .cvtPk444P444 [.memR8 0x20000 1];
      hostIsAt s (.memR8 0x20000 1) ∧ ∃ p ∈ s.pfcs, anyHas p.dstRanges 0x20000 = true)
    ∧ (let s := { idleOf .cvtPk444P444 2 2 [.memR8 0x20000 1] with unseen := [⟨0x20000, regBase0⟩] };
      hostIsAt s (.memR8 0x20000 1) ∧ s.unsees 0x20000 = true)
    ∧ (let s := running .cvtPk444P444 [.memR8 0x10000 1];
      hostIsAt s (.memR8 0x10000 1) ∧ 0x10000 < 2 ^ s.cfg.addrW ∧ s.inBlock 0x10000 = false
        ∧ readableAt s.memMap 0x10000 = true ∧ s.unsees 0x10000 = false
        ∧ ∀ p ∈ s.pfcs, anyHas p.dstRanges 0x10000 = false) := by
  unfold hostIsAt; decide +kernel

/-- The last used destination byte of a running command, loaded at once and after a read; a read that shows
the end of one of two PFCs; and a step by which a byte is seen. -/
theorem witness_CompletionIsSeenByReading :
    (∀ prog, (running .cvtPk444P444 prog).runs .cvtPk444P444 (runningRun .cvtPk444P444))
    ∧ (let s := running .cvtPk444P444 [.memR8 0x22201 1];
      anyHas ((runningRun .cvtPk444P444).lc.dstFootprints .p444 s.pfc.tier).flatten 0x22201 = true
        ∧ anyHas ((runningRun .cvtPk444P444).lc.dstFootprints .p444 s.pfc.tier).flatten 0x22202 = false
        ∧ hostIsAt s (.memR8 0x22201 1))
    ∧ (let s := running .cvtPk444P444 [.rd32 regBase0 0x014 0, .memR8 0x22201 1];
      s.pfc.inReset = false ∧ hostIsAt s (.rd32 s.pfc.regBase 0x014 0)
        ∧ s.host.prog[s.host.pc + 1]? = some (.memR8 0x22201 1) ∧ s.others = []
        ∧ 0x22201 < 2 ^ s.cfg.addrW ∧ s.inBlock 0x22201 = false ∧ readableAt s.memMap 0x22201 = true)
    ∧ (let s := { idleOf .cvtPk444P444 2 2 [.rd32 regBase0 0x010 0] with
          after := [otherPfc], turns := [.host], unseen := [⟨0x20000, regBase0⟩, ⟨0x20001, 0xE0000000⟩] };
      hostIsAt s (.rd32 regBase0 0x010 0) ∧ s.select regBase0 = some s ∧ s.pfc.inReset = false
        ∧ s.pfc.engine = none ∧ s.unsees 0x20000 = true
        ∧ holdsAfter (step s) (fun t => !t.unsees 0x20000 && t.unsees 0x20001) = true)
    ∧ (pfcFor 0 0 0).complete.irqStatus.getLsbD 0 = true := by
  unfold hostIsAt; exact ⟨fun _ => running_runs _ _, by decide +kernel⟩

theorem witness_WordsAreLittleEndian :
    let s := running .cvtPk444P444 [.memW32 0x10208 0x12345678]
    hostIsAt s (.memW32 0x10208 0x12345678)
      ∧ (∀ k < 4, 0x10208 + k < 2 ^ s.cfg.addrW ∧ s.inBlock (0x10208 + k) = false
        ∧ writableAt s.memMap (0x10208 + k) = true)
      ∧ ∀ k < 4, ∀ p ∈ s.pfcs, anyHas p.srcRanges (0x10208 + k) = false
        ∧ anyHas p.dstRanges (0x10208 + k) = false := by unfold hostIsAt; decide +kernel

/-- The interrupt output high and low; a branch taken and not taken; a program that is over. -/
theorem witness_HostControlFlow :
    (let s := stateOf { pfcFor 0 0 0 with irqStatus := 1, irqEnable := 1 } [] [.waitIrq regBase0];
      s.select regBase0 = some s ∧ s.pfc.irq = true ∧ hostIsAt s (.waitIrq regBase0))
    ∧ (let s := stateOf { pfcFor 0 0 0 with irqStatus := 1, irqEnable := 6 } [] [.waitIrq regBase0];
      s.select regBase0 = some s ∧ s.pfc.irq = false ∧ hostIsAt s (.waitIrq regBase0))
    ∧ (let s := { stateOf (pfcFor 0 0 0) [] [.label 4, .bnz 3 0x1 4] with
        host := ⟨[.label 4, .bnz 3 0x1 4], 1, [(3, 5)]⟩ };
      hostIsAt s (.bnz 3 0x1 4) ∧ Cells.read s.host.vars 3 &&& 0x1 ≠ 0
        ∧ Cells.read s.host.vars 3 &&& 0x2 = 0 ∧ s.host.prog[0]? = some (.label 4))
    ∧ hostIsAt (stateOf (pfcFor 0 0 0) [] [.label 4]) (.label 4)
    ∧ (stateOf (pfcFor 0 0 0) [] []).host.prog.length ≤ 0 := by unfold hostIsAt; decide +kernel

theorem witness_SuccessIsTold :
    (running .cvtPk422cSpuv []).runs .cvtPk422cSpuv (runningRun .cvtPk422cSpuv)
      ∧ (running .cvtPk422cSpuv []).pfc.err = .none
      ∧ (running .cvtPk422cSpuv []).pfc.irqStatus.getLsbD 2 = false
      ∧ (idleOf .cvtPk422cSpuv 3 2 []).pfc.engine = none
      ∧ (idleOf .cvtPk422cSpuv 3 2 []).pfc.irqStatus.getLsbD 0 = false
      ∧ holdsAfter (startWrite (idleOf .cvtPk422cSpuv 3 2 [])) (fun _ => true) = true
      ∧ (running .cvtPk422cSpuv []).pfc.engine ≠ none
      ∧ holdsAfter (startWrite (running .cvtPk422cSpuv [])) (fun _ => true) = true :=
  ⟨running_runs _ _, by decide +kernel⟩

/-- A host clear, and a reset. -/
theorem witness_InterruptBitsAreSticky :
    (let s := { stateOf { pfcFor 0 0 0 with irqStatus := 0b100 } [] [.wr32 regBase0 0x014 0x4] with
        turns := [.host] };
      s.pfcs[0]? = some s.pfc ∧ s.pfc.irqStatus.getLsbD 2 = true
        ∧ holdsAfter (step s) (fun t => !t.pfc.irqStatus.getLsbD 2) = true)
    ∧ (let s := { stateOf { pfcFor 0 0 0 with irqStatus := 0b001 } [] [] with turns := [.resetOn 0] };
      s.pfcs[0]? = some s.pfc ∧ s.pfc.irqStatus.getLsbD 0 = true
        ∧ holdsAfter (step s) (fun t => !t.pfc.irqStatus.getLsbD 0) = true) := by decide +kernel

theorem witness_StartInTheCycleOfTheEnd :
    let s := running .cvtPk422lSpvu [.wr32 regBase0 0x00C 0x1]
    s.runs .cvtPk422lSpvu (runningRun .cvtPk422lSpvu)
      ∧ decodeOp (runningRun .cvtPk422lSpvu).lc.op = .ok .cvtPk422lSpvu ∧ s.pfc.inReset = false
      ∧ (0x1 : Word).getLsbD 0 = true ∧ hostIsAt s (.wr32 s.pfc.regBase 0x00C 0x1) :=
  ⟨running_runs _ _, running_decodes _, rfl, rfl, rfl⟩

theorem witness_DecodeAndEncodeAgree :
    Instr.wellFormed params .cvtP420Spvu = true
      ∧ Instr.wellFormed { params with hasSpvuDst := false } .cvtP420Spuv = true
      ∧ decodeOp 0x310 = .ok .cvtP420Spuv ∧ decodeOp 0x337 = .ok (.cvtRgbfP444 .studio709) := by
  decide +kernel

theorem witness_FormatPredicatesPartition : Format.ofCode 8 = some .tile16 := by decide +kernel

theorem witness_StepRunsDecodedCommand :
    (let s := { running .cvtPk422cSpuv [] with turns := [.engine 0] };
      s.turns = .engine 0 :: [] ∧ { s with turns := [] }.selectAt 0 = some { s with turns := [] }
        ∧ s.pfc.engine = some (runningRun .cvtPk422cSpuv)
        ∧ decodeOp (runningRun .cvtPk422cSpuv).lc.op = .ok .cvtPk422cSpuv)
    ∧ (let s := { idleOf .cvtPk422cSpuv 2 2 [.wr32 regBase0 0x00C 0x1] with turns := [.host] };
      s.turns = .host :: [] ∧ s.host.prog[s.host.pc]? = some (.wr32 regBase0 0x00C 0x1)
        ∧ (0x1 : Word).getLsbD 0 = true
        ∧ { s with turns := [] }.select regBase0 = some { s with turns := [] } ∧ s.pfc.inReset = false
        ∧ s.pfc.engine = none ∧ decodeOp s.pfc.op = .ok .cvtPk422cSpuv)
    ∧ decodeTableWord 32 0x15 = some .cvtPk422cSpuv
    ∧ (let s := { running .cvtPk422cSpuv [.wr32 regBase0 0xFFC 0x1] with turns := [.host] };
      0xFFC % 4 = 0 ∧ 0xFFC < 4096 ∧ s.host.prog[s.host.pc]? = some (.wr32 regBase0 0xFFC 0x1)
        ∧ s.pfc.inReset = false ∧ turnTaken s = .host ∧ s.select regBase0 = some s
        ∧ { s with turns := s.turns.tail }.select regBase0 = some { s with turns := s.turns.tail })
    ∧ ([Turn.busError 0, .resetOn 0, .resetOff 0, .together 0].all fun t =>
        turnTaken { running .cvtPk422cSpuv [] with turns := [t] } == t) = true
    ∧ (running .cvtPk422cSpuv []).pfcs.findIdx? Pfc.busy = some 0
    ∧ (idleOf .cvtPk422cSpuv 2 2 []).pfcs.findIdx? Pfc.busy = none := by decide +kernel

/-- The three ways the host's statement of a same-cycle turn can end. -/
theorem witness_StepRunsDecodedCommand_together :
    (match hostTurn (running .cvtPk444P444 []) with | .next _ => true | .fault _ | .refused _ => false) = true
    ∧ (match hostTurn storeIntoSource with | .fault _ => true | .next _ | .refused _ => false) = true
    ∧ (match hostTurn (running .cvtPk444P444 [.regOther regBase0 0x020 1]) with
        | .refused _ => true | .next _ | .fault _ => false) = true := by decide +kernel

theorem witness_StepKeepsConstants :
    State.ownBlocks { running .cvtPk444P444 [] with after := [otherPfc] } ∧ holdsAfter (step { running .cvtPk444P444 [] with after := [otherPfc] }) (fun t => !t.pfc.busy)
      = true := by unfold State.ownBlocks; decide +kernel

/-- A step by which the second of two PFCs changes. -/
theorem witness_PfcsShareNoState :
    let s := { idleOf .cvtPk444P444 2 2 [.wr32 0xE0000000 0x024 8] with after := [otherPfc], turns := [.host] }
    s.ownBlocks ∧ s.pfcs[1]? = some otherPfc ∧ (∀ p ∈ s.pfcs, p.regBase ≠ 1)
      ∧ holdsAfter (step s) (fun t => decide (t.pfcs[1]? ≠ some otherPfc)) = true := by
  unfold State.ownBlocks; decide +kernel

/-- `running` is coherent: its source image is its memory. -/
theorem running_coherent (i : Instr) (prog : List Stmt) : (running i prog).coherent := by
  obtain ⟨-, ha, -⟩ := running_runs i prog
  refine ⟨fun p hp run hrun => ?_, List.pairwise_singleton _ _⟩
  obtain rfl : p = (running i prog).pfc := by simpa [running, busyOf, stateOf, State.pfcs] using hp
  obtain rfl : runningRun i = run := Option.some.inj hrun
  exact ⟨rfl, rfl, ⟨i, idle_decodes i prog, ha⟩, fun _ _ => rfl⟩

theorem witness_AcceptedCommandEnds :
    let s := running (.cvtRgbfP444 .full601) []
    s.coherent ∧ s.turns = [] ∧ s.pfcs.findIdx? Pfc.busy = some 0 ∧ s.pfcs[0]? = some s.pfc
      ∧ s.pfc.engine = some (runningRun (.cvtRgbfP444 .full601))
      ∧ ∀ i, decodeOp (runningRun (.cvtRgbfP444 .full601)).lc.op = .ok i →
        (runningRun (.cvtRgbfP444 .full601)).lc.mapped s.memMap i.src i.dst s.pfc.tier = true := by
  refine ⟨running_coherent _ _, by decide +kernel, by decide +kernel,
    by decide +kernel, by decide +kernel, fun i hi => ?_⟩
  rw [running_decodes] at hi
  cases hi
  exact (running_runs _ _).2.2

/-- One step from one state that meets the three invariants. -/
theorem witness_StepKeepsCanonicalMemory :
    (running .cvtPk444P444 []).canonical
      ∧ holdsAfter (step (running .cvtPk444P444 [])) (fun t => t.mem != []) = true := by
  unfold State.canonical; decide +kernel

theorem witness_StepKeepsHardwiredBits :
    (running .cvtPk444P444 []).hardwired
      ∧ holdsAfter (step (running .cvtPk444P444 [])) (fun _ => true) = true := by
  refine ⟨fun p hp => ?_, by decide +kernel⟩
  obtain rfl : p = (running .cvtPk444P444 []).pfc := by
    simpa [running, busyOf, stateOf, State.pfcs] using hp
  exact ⟨by decide +kernel, fun n => by cases n <;> decide +kernel,
    fun n => by cases n <;> decide +kernel, trivial⟩

/-- Each error code and tier, and the first and the last plane. -/
theorem witness_RegistersReadAtTheirOffsets :
    ((.none, 0) : ErrCode × Nat) ∈ [(ErrCode.none, 0), (.bus, 7)]
      ∧ ((.bus, 7) : ErrCode × Nat) ∈ [(ErrCode.none, 0), (.bus, 7)]
      ∧ ((.v256, 2) : Tier × Nat) ∈ [(Tier.scalar, 0), (.v256, 2)]
      ∧ ((.p2, 2) : Ix × Nat) ∈ [(Ix.p0, 0), (.p1, 1), (.p2, 2)] := by decide +kernel

/-- Finite factors, the greatest magnitudes among them; infinities; a zero; a NaN. -/
theorem witness_MultiplyRoundsToNearestEven :
    unpack32 0xFF7FFFFF = .fin true 16777215 104 ∧ unpack32 0x00000001 = .fin false 1 (-149)
      ∧ unpack32 0x7F800000 = .inf false ∧ unpack32 0xFF800000 = .inf true
      ∧ unpack32 0x80000000 = .fin true 0 (-149) ∧ isNaN32 0x7F800001 = true := by decide +kernel

/-- Finite addends with a sum of 0 and one that is not; infinities; a NaN. -/
theorem witness_AddRoundsToNearestEven :
    unpack32 0x3F800000 = .fin false (2 ^ 23) (-23) ∧ unpack32 0xBF800000 = .fin true (2 ^ 23) (-23)
      ∧ signed false (2 ^ 23 * 2 ^ (-23 + 149 : Int).toNat)
          + signed true (2 ^ 23 * 2 ^ (-23 + 149 : Int).toNat) = 0
      ∧ signed false (2 ^ 23 * 2 ^ (-23 + 149 : Int).toNat)
          + signed false (2 ^ 23 * 2 ^ (-23 + 149 : Int).toNat) ≠ 0
      ∧ unpack32 0x7F800000 = .inf false ∧ unpack32 0xFF800000 = .inf true
      ∧ isNaN32 0xFFC00000 = true := by decide +kernel

theorem witness_StepKeepsRunningCommandsCoherent :
    (running .cvtPk444P444 []).coherent
      ∧ holdsAfter (step (running .cvtPk444P444 [])) (fun _ => true) = true :=
  ⟨running_coherent _ _, by decide +kernel⟩

end Sys2Proof.Tests
end

section
/-! PROOF. R71 (20_memory.md): the host's register accesses that the platform refuses. -/

namespace Sys2Proof.Machine

/-- A register offset is served only when it is aligned and inside the block. -/
theorem regOffsetOk_eq_false_iff (off : Nat) :
    regOffsetOk off = false ↔ off % 4 ≠ 0 ∨ 4096 ≤ off := by
  rw [regOffsetOk, Bool.and_eq_false_iff, beq_eq_false_iff_ne, decide_eq_false_iff_not, Nat.not_lt,
    blockSize]

/-- The host's turn is the effect of the statement at its position. -/
theorem hostTurn_eq_runStmt {s : State} {st : Stmt} (h : hostIsAt s st) :
    hostTurn s = runStmt st s := by
  unfold hostIsAt at h
  simp [hostTurn, h]

/-- A write at an offset that is not served is refused, whichever PFC it addresses and even in reset. -/
theorem runStmt_wr32_badOffset {off : Nat} (ho : regOffsetOk off = false) (n : Nat) (v : Word)
    (s : State) : runStmt (.wr32 n off v) s = .refused .regAccess := by
  simp [runStmt, ho]

/-- A read at an offset that is not served is refused, whichever PFC it addresses and even in reset. -/
theorem runStmt_rd32_badOffset {off : Nat} (ho : regOffsetOk off = false) (n name : Nat)
    (s : State) : runStmt (.rd32 n off name) s = .refused .regAccess := by
  simp [runStmt, ho]

theorem runStmt_regOther (n off bytes : Nat) (s : State) :
    runStmt (.regOther n off bytes) s = .refused .regAccess := rfl

/-- Settles O9: the refusal is decided by the statement alone (its width, or its offset), before a PFC is
selected. -/
theorem otherRegisterAccessRefused : Obligations.OtherRegisterAccessRefused := by
  rintro s n off (⟨bytes, hst⟩ | ⟨hoff, hst⟩)
  · rw [hostTurn_eq_runStmt hst, runStmt_regOther]
  · have hbad : regOffsetOk off = false := (regOffsetOk_eq_false_iff off).2 hoff
    obtain ⟨v, hst⟩ | ⟨name, hst⟩ := hst
    · rw [hostTurn_eq_runStmt hst, runStmt_wr32_badOffset hbad]
    · rw [hostTurn_eq_runStmt hst, runStmt_rd32_badOffset hbad]

end Sys2Proof.Machine
end

section
/-! PROOF. R102 to R105 (30_encoding.md): what the decoder reads from a word, and that the encoder writes
it. -/

namespace Sys2Proof

/-! ## Format codes, the format predicates and the selector -/

@[simp] theorem Format.ofCode_code (f : Format) : Format.ofCode f.code = some f := by
  cases f <;> rfl

/-- A defined code is the code of the one format it names. -/
theorem Format.ofCode_eq_some_iff {c : BitVec 4} {f : Format} :
    Format.ofCode c = some f ↔ c = f.code := by
  refine ⟨fun h => ?_, fun h => h ▸ f.ofCode_code⟩
  have named : ∀ c : BitVec 4, ∀ f ∈ Format.ofCode c, c = f.code := by decide
  exact named c f h

theorem Format.ofCode_isSome_iff (c : BitVec 4) : (Format.ofCode c).isSome = true ↔ c.toNat < 9 := by
  revert c; decide

theorem isPlanar420_iff (c : BitVec 4) : isPlanar420 c = true ↔ c.toNat = 0 := by
  simp [isPlanar420, BitVec.toNat_eq]

theorem isInterleaved420_iff (c : BitVec 4) :
    isInterleaved420 c = true ↔ c.toNat = 1 ∨ c.toNat = 2 := by
  simp [isInterleaved420, BitVec.toNat_eq]

theorem isYuv444_iff (c : BitVec 4) : isYuv444 c = true ↔ c.toNat = 3 ∨ c.toNat = 4 := by
  simp [isYuv444, BitVec.toNat_eq]

theorem is422_iff (c : BitVec 4) : is422 c = true ↔ c.toNat = 5 ∨ c.toNat = 6 := by
  simp [is422, BitVec.toNat_eq]

theorem isRgbf_iff (c : BitVec 4) : isRgbf c = true ↔ c.toNat = 7 := by
  simp [isRgbf, BitVec.toNat_eq]

theorem isTiled16x16_iff (c : BitVec 4) : isTiled16x16 c = true ↔ c.toNat = 8 := by
  simp [isTiled16x16, BitVec.toNat_eq]

/-- The six predicates share out the defined codes and leave the reserved ones (R102). -/
theorem count_formatPredicates (c : BitVec 4) :
    [isPlanar420 c, isInterleaved420 c, isYuv444 c, is422 c, isRgbf c, isTiled16x16 c].count true
      = if c.toNat < 9 then 1 else 0 := by
  revert c; decide

@[simp] theorem Sel.ofBits_bits (sel : Sel) : Sel.ofBits sel.bits = sel := by cases sel <;> rfl

@[simp] theorem Sel.bits_ofBits (b : BitVec 2) : (Sel.ofBits b).bits = b := by revert b; decide

/-! ## The OP word and its fields -/

theorem op_eq_append_fields (w : Word) : w = opRsv w ++ opSel w ++ opDstf w ++ opSrcf w := by
  rw [opRsv, opSel, opDstf, opSrcf,
    BitVec.extractLsb'_append_extractLsb'_eq_extractLsb' (show 10 = 8 + 2 from rfl),
    BitVec.extractLsb'_append_extractLsb'_eq_extractLsb' (show 8 = 4 + 4 from rfl),
    BitVec.extractLsb'_append_extractLsb'_eq_extractLsb' (show 4 = 0 + 4 from rfl),
    BitVec.extractLsb'_eq_self]

/-- An OP word is its four fields (R90, R91). -/
theorem op_ext_iff {v w : Word} :
    v = w ↔ opRsv v = opRsv w ∧ opSel v = opSel w ∧ opDstf v = opDstf w ∧ opSrcf v = opSrcf w := by
  refine ⟨by rintro rfl; exact ⟨rfl, rfl, rfl, rfl⟩, ?_⟩
  rintro ⟨hrsv, hsel, hdst, hsrc⟩
  rw [op_eq_append_fields v, op_eq_append_fields w, hrsv, hsel, hdst, hsrc]

/-! The mask of R103's rows clears the selector and keeps every other field. It is written `#32`, as `simp`
writes a literal, so that the lemmas fire. -/

@[simp] theorem opRsv_and_rowMask (w : Word) : opRsv (w &&& 0xFFFFFCFF#32) = opRsv w :=
  BitVec.extractLsb'_and.trans BitVec.and_allOnes

@[simp] theorem opSel_and_rowMask (w : Word) : opSel (w &&& 0xFFFFFCFF#32) = 0 :=
  BitVec.extractLsb'_and.trans BitVec.and_zero

@[simp] theorem opDstf_and_rowMask (w : Word) : opDstf (w &&& 0xFFFFFCFF#32) = opDstf w :=
  BitVec.extractLsb'_and.trans BitVec.and_allOnes

@[simp] theorem opSrcf_and_rowMask (w : Word) : opSrcf (w &&& 0xFFFFFCFF#32) = opSrcf w :=
  BitVec.extractLsb'_and.trans BitVec.and_allOnes

theorem and_rowMask_eq_iff {v w : Word} : v &&& 0xFFFFFCFF = w &&& 0xFFFFFCFF ↔
    opRsv v = opRsv w ∧ opDstf v = opDstf w ∧ opSrcf v = opSrcf w := by
  rw [op_ext_iff]
  simp

/-! ## The encoder -/

/-- The fields of every command's OP word. -/
theorem opFields (i : Instr) : Laws.OpFields.Statement i := by
  cases i with
  | cvtP420Spuv => exact Laws.OpFields.cvtP420Spuv
  | cvtP420Spvu => exact Laws.OpFields.cvtP420Spvu
  | cvtPk444P444 => exact Laws.OpFields.cvtPk444P444
  | cvtPk422cSpuv => exact Laws.OpFields.cvtPk422cSpuv
  | cvtPk422cSpvu => exact Laws.OpFields.cvtPk422cSpvu
  | cvtPk422lSpuv => exact Laws.OpFields.cvtPk422lSpuv
  | cvtPk422lSpvu => exact Laws.OpFields.cvtPk422lSpvu
  | cvtRgbfP444 sel => exact Laws.OpFields.cvtRgbfP444 sel
  | cvtRgbfSpuv sel => exact Laws.OpFields.cvtRgbfSpuv sel
  | cvtRgbfSpvu sel => exact Laws.OpFields.cvtRgbfSpvu sel

@[simp] theorem opSrcf_encodeOp (i : Instr) : opSrcf (encodeOp i) = i.src.code := by
  obtain ⟨h, -⟩ := opFields i
  exact h

@[simp] theorem opDstf_encodeOp (i : Instr) : opDstf (encodeOp i) = i.dst.code := by
  obtain ⟨-, h, -⟩ := opFields i
  exact h

@[simp] theorem opSel_encodeOp (i : Instr) : opSel (encodeOp i) = i.selBits := by
  obtain ⟨-, -, h, -⟩ := opFields i
  exact h

@[simp] theorem opRsv_encodeOp (i : Instr) : opRsv (encodeOp i) = 0 := by
  obtain ⟨-, -, -, h, -⟩ := opFields i
  exact h

theorem Instr.selBits_of_src_ne_rgbf {i : Instr} (h : i.src ≠ .rgbf) : i.selBits = 0 := by
  cases i with
  | cvtRgbfP444 | cvtRgbfSpuv | cvtRgbfSpvu => exact absurd rfl h
  | _ => rfl

/-- The command of `i`'s row with another selector, where the row has one. -/
theorem Instr.exists_selBits_eq (i : Instr) (b : BitVec 2) :
    ∃ j : Instr, j.src = i.src ∧ j.dst = i.dst ∧ (j.src = .rgbf → j.selBits = b) := by
  cases i with
  | cvtRgbfP444 => exact ⟨.cvtRgbfP444 (Sel.ofBits b), rfl, rfl, fun _ => Sel.bits_ofBits b⟩
  | cvtRgbfSpuv => exact ⟨.cvtRgbfSpuv (Sel.ofBits b), rfl, rfl, fun _ => Sel.bits_ofBits b⟩
  | cvtRgbfSpvu => exact ⟨.cvtRgbfSpvu (Sel.ofBits b), rfl, rfl, fun _ => Sel.bits_ofBits b⟩
  | _ => exact ⟨_, rfl, rfl, nofun⟩

/-- The OP values of R103 are the commands' words without their selector. -/
theorem mem_opValues_iff (v : Word) :
    v ∈ ([0x10, 0x20, 0x34, 0x15, 0x25, 0x16, 0x26, 0x37, 0x17, 0x27] : List Word)
      ↔ ∃ i, v = encodeOp i &&& 0xFFFFFCFF := by
  constructor
  · have rows : ([0x10, 0x20, 0x34, 0x15, 0x25, 0x16, 0x26, 0x37, 0x17, 0x27] : List Word) =
        [.cvtP420Spuv, .cvtP420Spvu, .cvtPk444P444, .cvtPk422cSpuv, .cvtPk422cSpvu, .cvtPk422lSpuv,
          .cvtPk422lSpvu, .cvtRgbfP444 .full601, .cvtRgbfSpuv .full601, .cvtRgbfSpvu .full601].map
          (encodeOp · &&& 0xFFFFFCFF) := by decide
    intro hv
    rw [rows, List.mem_map] at hv
    obtain ⟨i, -, rfl⟩ := hv
    exact ⟨i, rfl⟩
  · rintro ⟨i, rfl⟩
    cases i with
    | cvtRgbfP444 sel | cvtRgbfSpuv sel | cvtRgbfSpvu sel => cases sel <;> decide
    | _ => decide

/-! ## The decoder -/

/-- The kernels of R103: the command has the pair's formats, and the selector if it has one. -/
theorem kernelOf_eq_some_iff {src dst : Format} {sel : Sel} {i : Instr} :
    kernelOf src dst sel = some i ↔
      src = i.src ∧ dst = i.dst ∧ (i.src = .rgbf → sel.bits = i.selBits) := by
  constructor
  · unfold kernelOf
    split <;> rintro ⟨⟩ <;> exact ⟨rfl, rfl, by simp [Instr.src, Instr.selBits]⟩
  · rintro ⟨rfl, rfl, hsel⟩
    cases i with
    | cvtRgbfP444 s | cvtRgbfSpuv s | cvtRgbfSpvu s =>
      obtain rfl : sel = s := by rw [← Sel.ofBits_bits sel, hsel rfl, Instr.selBits, Sel.ofBits_bits]
      rfl
    | _ => rfl

/-- What the decoder accepts (R104): a word with the reserved bits 0, the formats of a command and, if
the command has a selector, its selector. -/
theorem decodeOp_eq_ok_iff {w : Word} {i : Instr} : decodeOp w = .ok i ↔
    opRsv w = 0 ∧ opSrcf w = i.src.code ∧ opDstf w = i.dst.code
      ∧ (i.src = .rgbf → opSel w = i.selBits) := by
  constructor
  · intro h
    unfold decodeOp at h
    split at h
    · cases h
    next hrsv =>
    split at h
    next src dst hsrc hdst =>
      split at h
      next j hk =>
        cases h
        obtain ⟨rfl, rfl, hsel⟩ := kernelOf_eq_some_iff.1 hk
        exact ⟨not_not.1 hrsv, Format.ofCode_eq_some_iff.1 hsrc, Format.ofCode_eq_some_iff.1 hdst,
          by simpa using hsel⟩
      · cases h
    · cases h
  · rintro ⟨hrsv, hsrc, hdst, hsel⟩
    have hk : kernelOf i.src i.dst (Sel.ofBits (opSel w)) = some i :=
      kernelOf_eq_some_iff.2 ⟨rfl, rfl, by simpa using hsel⟩
    simp [decodeOp, hrsv, hsrc, hdst, hk]

@[simp] theorem decodeOp_encodeOp (i : Instr) : decodeOp (encodeOp i) = .ok i :=
  decodeOp_eq_ok_iff.2 ⟨opRsv_encodeOp i, opSrcf_encodeOp i, opDstf_encodeOp i,
    fun _ => opSel_encodeOp i⟩

theorem decodeOn_encodeOp {cfg : Params} {i : Instr} (h : i.wellFormed cfg = true) :
    decodeOn cfg (encodeOp i) = .ok i := by
  simp [decodeOn, h]

@[simp] theorem wordOfBytes_byteOfWord (w : Word) :
    wordOfBytes (byteOfWord w 0) (byteOfWord w 1) (byteOfWord w 2) (byteOfWord w 3) = w := by
  simp only [wordOfBytes, byteOfWord]
  rw [BitVec.extractLsb'_append_extractLsb'_eq_extractLsb' (show 8 * 3 = 8 * 2 + 8 from rfl),
    BitVec.extractLsb'_append_extractLsb'_eq_extractLsb' (show 8 * 2 = 8 * 1 + 8 from rfl),
    BitVec.extractLsb'_append_extractLsb'_eq_extractLsb' (show 8 * 1 = 8 * 0 + 8 from rfl),
    BitVec.extractLsb'_eq_self]

theorem decodeBytes_encode_append (i : Instr) (rest : List Byte) :
    decodeBytes (encode i ++ rest) = .ok (i, rest) := by
  simp [encode, decodeBytes]

/-- A word decodes exactly when it differs from some command's word in the selector at most: the
selector never decides whether there is a command. -/
theorem exists_decodeOp_iff (w : Word) : (∃ i, decodeOp w = .ok i) ↔
    ∃ i, w &&& 0xFFFFFCFF = encodeOp i &&& 0xFFFFFCFF := by
  constructor
  · rintro ⟨i, h⟩
    obtain ⟨hrsv, hsrc, hdst, -⟩ := decodeOp_eq_ok_iff.1 h
    exact ⟨i, and_rowMask_eq_iff.2 (by simp [hrsv, hsrc, hdst])⟩
  · rintro ⟨i, h⟩
    obtain ⟨hrsv, hdst, hsrc⟩ := and_rowMask_eq_iff.1 h
    obtain ⟨j, jsrc, jdst, jsel⟩ := i.exists_selBits_eq (opSel w)
    exact ⟨j, decodeOp_eq_ok_iff.2 ⟨by simpa using hrsv, by simpa [jsrc] using hsrc,
      by simpa [jdst] using hdst, fun hj => (jsel hj).symm⟩⟩

/-- The decoded command's word is the word read, but for OP[9:8] where the command has no selector
(R105). -/
theorem encodeOp_of_decodeOp {w : Word} {i : Instr} (h : decodeOp w = .ok i) :
    encodeOp i = if i.src = .rgbf then w else w &&& 0xFFFFFCFF := by
  obtain ⟨hrsv, hsrc, hdst, hsel⟩ := decodeOp_eq_ok_iff.1 h
  split
  next hi => exact op_ext_iff.2 (by simp [hrsv, hsrc, hdst, hsel hi])
  next hi => exact op_ext_iff.2 (by simp [hrsv, hsrc, hdst, Instr.selBits_of_src_ne_rgbf hi])

/-- Settles O48: both directions go through the four fields of the OP word, of which the decoder reads
the selector last and only for the commands that have one. -/
theorem decodeAndEncodeAgree : Obligations.DecodeAndEncodeAgree := by
  refine ⟨decodeBytes_encode_append, fun _ _ => decodeOn_encodeOp, fun w => ?_,
    fun _ _ => encodeOp_of_decodeOp, ?values⟩
  · rw [exists_decodeOp_iff, mem_opValues_iff]
  case values => decide

/-- Settles O49: the codes of each predicate, and the count over the sixteen codes. -/
theorem formatPredicatesPartition : Obligations.FormatPredicatesPartition := fun c =>
  ⟨count_formatPredicates c, isPlanar420_iff c, isInterleaved420_iff c, isYuv444_iff c, is422_iff c,
    isRgbf_iff c, isTiled16x16_iff c, Format.ofCode_isSome_iff c,
    fun _ h => (Format.ofCode_eq_some_iff.1 h).symm⟩

end Sys2Proof
end

section
/-! PROOF. R131, R136, R139 and R140 (40_control.md): what a register write stores and leaves, START on a
busy engine, and what stops a running command. -/

namespace Sys2Proof.Machine

/-! ## A running command, step by step (R136) -/

/-- A host statement reaches no command that runs: a write is to a register, a START an overrun. -/
theorem HostEffect.engine_eq_of_busy {cfg : Params} {off : Nat} {v : Word} {p q : Pfc}
    (h : HostEffect cfg off v p q) (hb : p.engine ≠ none) : q.engine = p.engine := by
  rcases h with ⟨-, ⟨r, -, -, rfl⟩ | ⟨-, -, ⟨-, rfl⟩ | ⟨hidle, -⟩⟩⟩
  · exact p.writeReg_engine cfg r v
  · exact p.overrun_engine
  · exact absurd hidle hb

/-- A host statement does not move the reset input. -/
theorem HostEffect.inReset_eq {cfg : Params} {off : Nat} {v : Word} {p q : Pfc}
    (h : HostEffect cfg off v p q) : q.inReset = p.inReset := by
  rcases h with ⟨-, ⟨r, -, -, rfl⟩ | ⟨-, -, ⟨-, rfl⟩ | ⟨-, ⟨e, rfl⟩ | ⟨lc, tr, m, rfl⟩⟩⟩⟩ <;> simp

/-- Settles O20: the host's part of the step leaves the command running and the reset input low, so of what
may follow only the engine's end and the assertion of reset touch the engine. -/
theorem onlyEndOrResetStopsCommand : Obligations.OnlyEndOrResetStopsCommand := by
  intro s t k p q run hstep hp hrun hreset hq
  obtain ⟨m, hhost, hafter⟩ := step_pfcs hstep hp hq
  have hm : m.engine = some run ∧ m.inReset = false := by
    rcases hhost with rfl | ⟨-, off, v, -, heffect⟩
    · exact ⟨hrun, hreset⟩
    · exact ⟨(heffect.engine_eq_of_busy (by simp [hrun])).trans hrun,
        heffect.inReset_eq.trans hreset⟩
  rcases hafter with rfl | ⟨hturn, -, rfl⟩ | ⟨hturn, rfl⟩ | ⟨-, hheld, -⟩
  · exact .inl hm.1
  · exact .inr ⟨m.complete_engine, List.mem_append_left [Turn.resetOn k] hturn⟩
  · exact .inr ⟨rfl, by rw [turnTaken, hturn]; simp⟩
  · simp [hm.2] at hheld

/-! ## Register writes, by the register's name -/

/-- A write to a register other than CTRL stores in it and does nothing else. -/
theorem regWrite_regOffset {r : Reg} (h : r ≠ .ctrl) (s : State) (v : Word) :
    regWrite s (regOffset r) v = .next (s.setPfc (s.pfc.writeReg s.cfg r v)) := by
  simp [regWrite, h]

/-- A write of 1 to CTRL.START is a START. -/
theorem regWrite_ctrl_start {v : Word} (hv : v.getLsbD 0 = true) (s : State) :
    regWrite s (regOffset .ctrl) v = startWrite s := by
  simp [regWrite, hv]

theorem startWrite_busy {s : State} (h : s.pfc.engine ≠ none) :
    startWrite s = .next (s.setPfc s.pfc.overrun) := by
  simp [startWrite, Pfc.busy, Option.isSome_iff_ne_none.2 h]

/-- Settles O11: the write is a START, and START on a busy engine is the overrun. -/
theorem startWhileBusyIsOverrun : Obligations.StartWhileBusyIsOverrun := by
  intro s v hbusy hv
  exact (regWrite_ctrl_start hv s).trans (startWrite_busy hbusy)

/-! ## The descriptor registers (R140) -/

theorem Three.get_set {α : Type} (t : Three α) (i j : Ix) (x : α) :
    (t.set i x).get j = if j = i then x else t.get j := by
  split
  next h => rw [h, Three.get_set_same]
  next h => exact Three.get_set_other t x h

/-- An ADDR_HI register has at most 32 writable bits, so its mask is the low ADDR_W − 32 bits of a word. -/
theorem hiMask_toNat {cfg : Params} (h : cfg.legal = true) :
    (hiMask cfg).toNat = 2 ^ (cfg.addrW - 32) - 1 := by
  have hw : cfg.addrW ≤ 64 := by
    simp only [Params.legal, Bool.and_eq_true, decide_eq_true_eq] at h
    exact h.1.2
  have hpow : 2 ^ (cfg.addrW - 32) ≤ 2 ^ 32 := Nat.pow_le_pow_right (by decide) (by omega)
  rw [hiMask, BitVec.toNat_ofNat, Nat.mod_eq_of_lt (by omega)]

theorem and_hiMask_toNat {cfg : Params} (h : cfg.legal = true) (v : Word) :
    (v &&& hiMask cfg).toNat = v.toNat % 2 ^ (cfg.addrW - 32) := by
  rw [BitVec.toNat_and, hiMask_toNat h, Nat.and_two_pow_sub_one_eq_mod]

/-- A descriptor register reads back the value its WARL rule stores (10_state.md R30 to R36). -/
theorem Pfc.readReg_writeReg_same {cfg : Params} (hcfg : cfg.legal = true) {r : Reg}
    (hr : r.isDescriptor = true) (p : Pfc) (v : Word) :
    ((p.writeReg cfg r v).readReg cfg r).toNat = storedValue cfg r v := by
  cases r with
  | id | caps | tierAllow | ctrl | status | irqStatus | irqEnable => cases hr
  | op => rfl
  | width | height =>
    simp only [Pfc.readReg, Pfc.writeReg, storedValue]
    exact (BitVec.toNat_setWidth_of_le (by decide)).trans (BitVec.extractLsb'_toNat ..)
  | srcAddrLo n | srcStride n | dstAddrLo n | dstStride n =>
    simp [Pfc.readReg, Pfc.writeReg, storedValue]
  | srcAddrHi n | dstAddrHi n =>
    simp only [Pfc.readReg, Pfc.writeReg, storedValue, Three.get_set_same]
    exact and_hiMask_toNat hcfg v

/-- Every register but the written one reads as before. On the side that is written this is another field of
the same plane, or another plane. -/
theorem Pfc.readReg_writeReg_ne {r r' : Reg} (h : r' ≠ r) (cfg : Params) (p : Pfc) (v : Word) :
    (p.writeReg cfg r v).readReg cfg r' = p.readReg cfg r' := by
  cases r with
  | id | caps | ctrl | status => rfl
  | tierAllow | irqStatus | irqEnable | op | width | height =>
    cases r' with
    | tierAllow | irqStatus | irqEnable | op | width | height =>
      simp_all [Pfc.readReg, Pfc.writeReg]
    | _ => rfl
  | srcAddrLo n | srcAddrHi n | srcStride n =>
    cases r' with
    | srcAddrLo m | srcAddrHi m | srcStride m =>
      simp only [Pfc.readReg, Pfc.writeReg, Three.get_set]
      split
      next hplane => simp_all
      next => rfl
    | _ => rfl
  | dstAddrLo n | dstAddrHi n | dstStride n =>
    cases r' with
    | dstAddrLo m | dstAddrHi m | dstStride m =>
      simp only [Pfc.readReg, Pfc.writeReg, Three.get_set]
      split
      next hplane => simp_all
      next => rfl
    | _ => rfl

theorem Reg.ne_ctrl_of_isDescriptor {r : Reg} (h : r.isDescriptor = true) : r ≠ .ctrl := by
  rintro rfl
  cases h

/-- Settles O7: a plain register write, read back at the register and at every other one. -/
theorem descriptorWrite : Obligations.DescriptorWrite := by
  intro s r v hr hcfg
  refine ⟨_, regWrite_regOffset (Reg.ne_ctrl_of_isDescriptor hr) s v, rfl, ?_, fun r' h => ?_, ?_⟩
  · rw [Pfc.readAt_regOffset]
    exact Pfc.readReg_writeReg_same hcfg hr s.pfc v
  · exact Pfc.readReg_writeReg_ne h s.cfg s.pfc v
  · simp

/-! ## TIER_ALLOW (R131) -/

theorem presentTiers_getLsbD (cfg : Params) : (presentTiers cfg).getLsbD 0 = cfg.hasV128
    ∧ (presentTiers cfg).getLsbD 1 = cfg.hasV256 := by
  rw [presentTiers, BitVec.getLsbD_append, BitVec.getLsbD_append]
  exact ⟨BitVec.getLsbD_ofBool .., BitVec.getLsbD_ofBool ..⟩

/-- A vector tier is selected only with its allow bit set (47_dispatch.md R240). -/
theorem allow_of_selectTier_eq_v128 {cfg : Params} {src dst : Format} {lc : Latched}
    (h : selectTier cfg src dst lc = .v128) : lc.allow.getLsbD 0 = true := by
  unfold selectTier at h
  split_ifs at h with h256 h128
  simp only [Bool.and_eq_true] at h128
  exact h128.1.2

theorem allow_of_selectTier_eq_v256 {cfg : Params} {src dst : Format} {lc : Latched}
    (h : selectTier cfg src dst lc = .v256) : lc.allow.getLsbD 1 = true := by
  unfold selectTier at h
  split_ifs at h with h256
  simp only [Bool.and_eq_true] at h256
  exact h256.1.2

theorem twoBits_toNat (b : BitVec 2) : b.toNat = (b.getLsbD 0).toNat + 2 * (b.getLsbD 1).toNat := by
  revert b
  decide

theorem Pfc.writeReg_tierAllow_bits (cfg : Params) (p : Pfc) (v : Word) :
    (p.writeReg cfg .tierAllow v).tierAllow.getLsbD 0 = (v.getLsbD 0 && cfg.hasV128)
      ∧ (p.writeReg cfg .tierAllow v).tierAllow.getLsbD 1 = (v.getLsbD 1 && cfg.hasV256) := by
  obtain ⟨h128, h256⟩ := presentTiers_getLsbD cfg
  simp only [Pfc.writeReg, BitVec.getLsbD_and, BitVec.getLsbD_extractLsb', h128, h256]
  exact ⟨rfl, rfl⟩

/-- Settles O5: the two stored bits give the value read, and are the allow bits a later command latches. -/
theorem tierAllowWrite : Obligations.TierAllowWrite := by
  intro s v
  obtain ⟨h128, h256⟩ := s.pfc.writeReg_tierAllow_bits s.cfg v
  refine ⟨_, regWrite_regOffset (r := .tierAllow) (by decide) s v, rfl, ?_, fun src dst => ⟨?_, ?_⟩⟩
  · rw [← h128, ← h256, ← twoBits_toNat]
    exact BitVec.toNat_setWidth_of_le (by decide)
  · intro hv hsel
    have hset := h128.symm.trans (allow_of_selectTier_eq_v128 hsel)
    rw [hv] at hset
    cases hset
  · intro hv hsel
    have hset := h256.symm.trans (allow_of_selectTier_eq_v256 hsel)
    rw [hv] at hset
    cases hset

end Sys2Proof.Machine
end

section
/-! PROOF. R163 (42_kernel_common.md): the rounded averages. -/

namespace Sys2Proof.Machine

/-- A shifted sum that fits a byte is its floor division, and nothing of it is cut off. -/
theorem ofNat_shiftRight_toNat {n k : Nat} (h : n < 2 ^ 8 * 2 ^ k) :
    (BitVec.ofNat 8 (n >>> k)).toNat = n / 2 ^ k := by
  rw [BitVec.toNat_ofNat, Nat.shiftRight_eq_div_pow,
    Nat.mod_eq_of_lt (Nat.div_lt_of_lt_mul (Nat.mul_comm .. ▸ h))]

@[simp] theorem avg2_toNat (a b : Byte) : (avg2 a b).toNat = (a.toNat + b.toNat + 1) / 2 :=
  ofNat_shiftRight_toNat (k := 1) (by omega)

@[simp] theorem avg4_toNat (a b c d : Byte) :
    (avg4 a b c d).toNat = (a.toNat + b.toNat + c.toNat + d.toNat + 2) / 4 :=
  ofNat_shiftRight_toNat (k := 2) (by omega)

/-- Settles O33: the largest sums, 511 and 1022, are below 256 · 2 and 256 · 4, so both shifts fit a
byte. -/
theorem averagesRoundUp : Obligations.AveragesRoundUp :=
  ⟨avg2_toNat, avg4_toNat⟩

end Sys2Proof.Machine
end

section
/-! PROOF. R180 (43_interleave_420.md): what a run to the end leaves, for every command, for every
interleaved 4:2:0 destination, and for CVT_P420_SPUV and CVT_P420_SPVU. -/

namespace Sys2Proof.Machine

/-! ## Any command -/

/-- A running command completes, and each used destination byte holds its kernel's value. No value is drawn,
since every destination overshoot window is empty. -/
theorem State.runs.exec_completes {s : State} {i : Instr} {run : Running} (h : s.runs i run) :
    ∃ t, exec i s = .next t ∧ completes i run s t
      ∧ ∀ g ∈ run.lc.dstPlanes i.dst, ∀ r < g.rows, ∀ k < g.used,
        Cells.read t.mem (run.lc.dstAddr g.ix r k)
          = kernelFor i s.cfg run.lc run.image g.ix r k := by
  obtain ⟨hengine, hacc, hmapped⟩ := h
  obtain ⟨t, ht⟩ := finishCommand_mapped (out := kernelFor i) hmapped
  obtain ⟨hwritten, hkept⟩ := finishCommand_memory hacc ht
  refine ⟨t, (exec_busy hengine).trans ht, ⟨?state, fun a ha => hkept a ?unwritten⟩, hwritten⟩
  case state =>
    obtain ⟨-, rfl⟩ := finishCommand_next ht
    simp only [dstWindows_eq_nil hacc, drawOver_nil]
    rfl
  case unwritten => exact fun g hg r hr k hk hak => ha ⟨g, hg, r, hr, k, hk, hak⟩

/-! ## An interleaved 4:2:0 destination (R93, R95) -/

theorem chromaByte_two_mul (vu : Bool) (u v : Byte) (k : Nat) :
    chromaByte vu u v (2 * k) = if vu then v else u := by
  cases vu <;> simp [chromaByte]

theorem chromaByte_two_mul_add_one (vu : Bool) (u v : Byte) (k : Nat) :
    chromaByte vu u v (2 * k + 1) = if vu then u else v := by
  cases vu <;> simp [chromaByte]

/-- SPUV and SPVU have the same two planes. -/
theorem Latched.dstPlanes_interleaved (lc : Latched) {dst : Format} (h : dst = .spuv ∨ dst = .spvu) :
    lc.dstPlanes dst = [⟨.p0, lc.h, lc.w⟩, ⟨.p1, lc.h / 2, lc.w⟩] := by
  rcases h with rfl | rfl <;> rfl

/-- A running command whose plane 1 interleaves the samples `u` and `v` completes with its luma in plane 0
and a chroma pair at every block. -/
theorem State.runs.exec_interleaved {s : State} {i : Instr} {run : Running} (h : s.runs i run)
    (hdst : i.dst = .spuv ∨ i.dst = .spvu) {vu : Bool} {u v : Nat → Nat → Byte}
    (hchroma : ∀ j k, kernelFor i s.cfg run.lc run.image .p1 j k
      = chromaByte vu (u j (k / 2)) (v j (k / 2)) k) :
    ∃ t, exec i s = .next t ∧ completes i run s t
      ∧ (∀ y < run.lc.h, ∀ x < run.lc.w, Cells.read t.mem (run.lc.dstAddr .p0 y x)
          = kernelFor i s.cfg run.lc run.image .p0 y x)
      ∧ ∀ j < run.lc.h / 2, ∀ k < run.lc.w / 2, chromaPair run t vu j k (u j k) (v j k) := by
  obtain ⟨t, ht, hdone, hwritten⟩ := h.exec_completes
  simp only [run.lc.dstPlanes_interleaved hdst, List.forall_mem_cons] at hwritten
  obtain ⟨hluma, hplane1, -⟩ := hwritten
  refine ⟨t, ht, hdone, hluma, fun j hj k hk => ⟨?first, ?second⟩⟩
  case first =>
    rw [hplane1 j hj (2 * k) (by omega), hchroma, chromaByte_two_mul, Nat.mul_div_cancel_left k two_pos]
  case second =>
    have hblock : (2 * k + 1) / 2 = k := by omega
    rw [hplane1 j hj (2 * k + 1) (by omega), hchroma, chromaByte_two_mul_add_one, hblock]

/-! ## CVT_P420_SPUV and CVT_P420_SPVU (R180) -/

/-- Settles O25: the kernel copies plane 0, and its plane 1 interleaves the two source chroma planes in the
command's order. -/
theorem interleave420Completes : Obligations.Interleave420Completes := by
  rintro i vu (⟨rfl, rfl⟩ | ⟨rfl, rfl⟩) s run hruns
  · exact hruns.exec_interleaved (.inl rfl) fun _ _ => rfl
  · exact hruns.exec_interleaved (.inr rfl) fun _ _ => rfl

end Sys2Proof.Machine
end

section
/-! PROOF. R190 (44_deinterleave_444.md): what a run to the end leaves, for every planar 4:4:4 destination
that is flipped vertically, and for CVT_PK444_P444. -/

namespace Sys2Proof.Machine

/-! ## A planar 4:4:4 destination, flipped vertically (R93, R165) -/

theorem flipRow_lt {h y : Nat} (hy : y < h) : flipRow h y < h := by
  unfold flipRow
  omega

theorem flipRow_flipRow {h y : Nat} (hy : y < h) : flipRow h (flipRow h y) = y := by
  unfold flipRow
  omega

/-- P444 uses every plane, each of H rows of W bytes. -/
theorem Latched.mem_dstPlanes_p444 (lc : Latched) (n : Ix) : ⟨n, lc.h, lc.w⟩ ∈ lc.dstPlanes .p444 := by
  cases n <;> simp [Latched.dstPlanes, formatPlanes]

/-- A running command that flips the planar samples `c` completes with the samples of source row `y` in
destination row H - 1 - y of each plane. -/
theorem State.runs.exec_planarFlipped {s : State} {i : Instr} {run : Running} (h : s.runs i run)
    (hdst : i.dst = .p444) {c : Ix → Nat → Nat → Byte}
    (hflip : ∀ n r x, kernelFor i s.cfg run.lc run.image n r x = c n (flipRow run.lc.h r) x) :
    ∃ t, exec i s = .next t ∧ completes i run s t
      ∧ ∀ y < run.lc.h, ∀ x < run.lc.w, ∀ n,
        Cells.read t.mem (run.lc.dstAddr n (run.lc.h - 1 - y) x) = c n y x := by
  obtain ⟨t, ht, hdone, hwritten⟩ := h.exec_completes
  refine ⟨t, ht, hdone, fun y hy x hx n => ?_⟩
  have hplane : ⟨n, run.lc.h, run.lc.w⟩ ∈ run.lc.dstPlanes i.dst := hdst ▸ run.lc.mem_dstPlanes_p444 n
  calc Cells.read t.mem (run.lc.dstAddr n (flipRow run.lc.h y) x)
      = kernelFor i s.cfg run.lc run.image n (flipRow run.lc.h y) x :=
        hwritten _ hplane _ (flipRow_lt hy) x hx
    _ = c n y x := by rw [hflip, flipRow_flipRow hy]

/-! ## CVT_PK444_P444 (R190) -/

/-- A byte `d` further in a row is `d` further in memory. -/
theorem Latched.srcAddr_add (lc : Latched) (n : Ix) (r k d : Nat) :
    lc.srcAddr n r (k + d) = lc.srcAddr n r k + d :=
  (Nat.add_assoc ..).symm

/-- Settles O26: the kernel flips the components of the packed pixels, and each destination plane holds the
component at its PK444_OFF. -/
theorem deinterleave444Completes : Obligations.Deinterleave444Completes := by
  intro s run hruns
  obtain ⟨t, ht, hdone, hplanes⟩ := hruns.exec_planarFlipped rfl
    (c := fun n y x => Cells.read run.image (run.lc.srcAddr .p0 y (4 * x) + pk444Offset s.cfg.pk444 n))
    fun n r x => by rw [← Latched.srcAddr_add]; rfl
  exact ⟨t, ht, hdone, fun y hy x hx =>
    ⟨hplanes y hy x hx .p0, hplanes y hy x hx .p1, hplanes y hy x hx .p2⟩⟩

end Sys2Proof.Machine
end

section
/-! PROOF. R200 (45_packed422_to_420.md): what a run to the end of the four CVT_PK422*_SP* leaves. -/

namespace Sys2Proof.Machine

/-! ## The bytes of a pixel pair (R97) -/

/-- The positions the kernel reads are those of the pixel pair: U Y0 V Y1, or Y0 U Y1 V. -/
theorem pixelPair_offsets (first : Bool) :
    (offU first, offY first 0, offV first, offY first 1)
      = if first then (0, 1, 2, 3) else (1, 0, 3, 2) := by
  cases first <;> rfl

/-- The chroma kernel averages the byte at `off` of pixel pair `k` over rows 2j and 2j + 1. -/
theorem pk422Chroma_eq_avg2 (lc : Latched) (img : Memory) (off k j : Nat) :
    pk422Chroma lc img off k j
      = avg2 (Cells.read img (lc.srcAddr .p0 (2 * j) (4 * k) + off))
          (Cells.read img (lc.srcAddr .p0 (2 * j + 1) (4 * k) + off)) := by
  rw [← lc.srcAddr_add, ← lc.srcAddr_add, pk422Chroma]

/-- Pixel `2k + odd` takes the luma at `odd` of pixel pair `k`. -/
theorem pk422To420_luma {odd : Nat} (hodd : odd < 2) (first vu : Bool) (cfg : Params) (lc : Latched)
    (img : Memory) (y k : Nat) :
    pk422To420 first vu cfg lc img .p0 y (2 * k + odd)
      = Cells.read img (lc.srcAddr .p0 y (4 * k) + offY first odd) := by
  have hpair : (2 * k + odd) / 2 = k := by omega
  have hparity : (2 * k + odd) % 2 = odd := by omega
  rw [← lc.srcAddr_add]
  simp only [pk422To420, hpair, hparity]

/-! ## The four commands (R202 to R205) -/

/-- The kernel and the destination of each of the four commands. -/
theorem kernelFor_and_dst_of_pk422 {i : Instr} {first vu : Bool}
    (h : (i = .cvtPk422cSpuv ∧ first = true ∧ vu = false) ∨
      (i = .cvtPk422cSpvu ∧ first = true ∧ vu = true) ∨
      (i = .cvtPk422lSpuv ∧ first = false ∧ vu = false) ∨
      (i = .cvtPk422lSpvu ∧ first = false ∧ vu = true)) :
    kernelFor i = pk422To420 first vu ∧ (i.dst = .spuv ∨ i.dst = .spvu) := by
  rcases h with ⟨rfl, rfl, rfl⟩ | ⟨rfl, rfl, rfl⟩ | ⟨rfl, rfl, rfl⟩ | ⟨rfl, rfl, rfl⟩
  · exact ⟨rfl, .inl rfl⟩
  · exact ⟨rfl, .inr rfl⟩
  · exact ⟨rfl, .inl rfl⟩
  · exact ⟨rfl, .inr rfl⟩

/-- Settles O27: an interleaved destination whose luma is copied from the pixel pairs and whose chroma
samples are averaged over row pairs, at the same byte positions for all four commands. -/
theorem packed422Completes : Obligations.Packed422Completes := by
  intro i first vu hi oU oY0 oV oY1 hoffsets s run hruns
  rw [← pixelPair_offsets] at hoffsets
  cases hoffsets
  obtain ⟨hkernel, hdst⟩ := kernelFor_and_dst_of_pk422 hi
  obtain ⟨t, ht, hdone, hluma, hchroma⟩ := hruns.exec_interleaved hdst (vu := vu)
    (u := fun j k => pk422Chroma run.lc run.image (offU first) k j)
    (v := fun j k => pk422Chroma run.lc run.image (offV first) k j) fun _ _ => by rw [hkernel]; rfl
  refine ⟨t, ht, hdone, fun y hy k hk => ⟨?even, ?odd⟩, fun j hj k hk => ?pair⟩
  case even =>
    rw [hluma y hy (2 * k) (by omega), hkernel]
    exact pk422To420_luma (odd := 0) two_pos ..
  case odd =>
    rw [hluma y hy (2 * k + 1) (by omega), hkernel]
    exact pk422To420_luma (odd := 1) one_lt_two ..
  case pair =>
    simpa only [pk422Chroma_eq_avg2] using hchroma j hj k hk

end Sys2Proof.Machine
end

section
/-! PROOF. R215, R216, R219 and R220 (46_rgb_to_yuv.md): a sample as a function of its dot product. -/

namespace Sys2Proof.Machine

/-! ## The clamp (R219, R220) -/

/-- The clamp loses nothing to the byte's width: `Int.toNat` is its lower end, 255 its upper. -/
theorem clampSample_int_toNat (n z : Int) :
    ((clampSample (.int n) z).toNat : Int) = max 0 (min (n + z) 255) := by
  have hfits : (min (n + z) 255).toNat < 2 ^ 8 := by omega
  rw [clampSample, BitVec.toNat_ofNat, Nat.mod_eq_of_lt hfits, Int.toNat_eq_max, max_comm]

/-! ## The two cases of a sample (R215) -/

theorem sampleOf_of_isNaN32 {d : Word} (h : isNaN32 d = true) (cfg : Params) (sel : Sel)
    (c : Component) : sampleOf cfg sel c d = cfg.nanSample :=
  if_pos h

theorem sampleOf_of_not_isNaN32 {d : Word} (h : isNaN32 d = false) (cfg : Params) (sel : Sel)
    (c : Component) : sampleOf cfg sel c d = clampSample (f2i cfg d) (zeroPoint cfg sel c) :=
  if_neg (ne_true_of_eq_false h)

/-! ## Every selector's matrix rows and zero-points (R101, R216) -/

/-- Each selector and component with the matrix row and the zero-point that `sample` uses for them. -/
def rowsAndZeroPoints (cfg : Params) : List (Sel × Component × Row4 × Int) :=
  [Sel.full601, .full709, .studio601, .studio709].flatMap fun sel =>
    [Component.y, .u, .v].map fun c =>
      (sel, c, matrixRow (coefficients cfg.cm sel) c, zeroPoint cfg sel c)

theorem eq_of_mem_rowsAndZeroPoints {cfg : Params} {sel : Sel} {c : Component} {row : Row4} {z : Int}
    (h : (sel, c, row, z) ∈ rowsAndZeroPoints cfg) :
    row = matrixRow (coefficients cfg.cm sel) c ∧ z = zeroPoint cfg sel c := by
  simp only [rowsAndZeroPoints, List.mem_flatMap, List.mem_map, Prod.mk.injEq] at h
  obtain ⟨_, -, _, -, rfl, rfl, rfl, rfl⟩ := h
  exact ⟨rfl, rfl⟩

/-- Settles O35: the twelve rows and zero-points written out are those `sample` uses, and a rounded dot
product is clamped after its zero-point is added. -/
theorem sampleIsOffsetAndClamped : Obligations.SampleIsOffsetAndClamped := by
  intro cfg
  refine ⟨fun hcm p m => ?cmDot, fun hf2i d => ?f2i, fun sel c row z hmem => ?sample⟩
  case cmDot => rw [cmDot, hcm, cmDotDefault]
  case f2i => rw [f2i, hf2i]
  case sample =>
    obtain ⟨rfl, rfl⟩ := eq_of_mem_rowsAndZeroPoints hmem
    refine ⟨fun _ => rfl, fun d => ⟨fun h => sampleOf_of_isNaN32 h .., fun h n hn => ?int,
      fun h hr => ?posInf, fun h hr => ?negInf⟩⟩
    case int => rw [sampleOf_of_not_isNaN32 h, hn, clampSample_int_toNat]
    case posInf => rw [sampleOf_of_not_isNaN32 h, hr, clampSample]
    case negInf => rw [sampleOf_of_not_isNaN32 h, hr, clampSample]

end Sys2Proof.Machine
end

section
/-! PROOF. R223 and R224 (46_rgb_to_yuv.md): what a run to the end of CVT_RGBF_SPUV and CVT_RGBF_SPVU
leaves. -/

namespace Sys2Proof.Machine

theorem flipRow_add_one (h r : Nat) : flipRow h (r + 1) = h - 2 - r := by
  unfold flipRow
  omega

/-- The chroma of block (i, j) averages the clamped samples of columns 2i, 2i + 1 in source rows
H - 1 - 2j and H - 2 - 2j. -/
theorem boxChroma_eq_avg4 (cfg : Params) (lc : Latched) (img : Memory) (sel : Sel) (c : Component)
    (i j : Nat) :
    boxChroma cfg lc img sel c i j
      = avg4 (sample cfg (pix lc img (2 * i) (lc.h - 1 - 2 * j)) sel c)
          (sample cfg (pix lc img (2 * i + 1) (lc.h - 1 - 2 * j)) sel c)
          (sample cfg (pix lc img (2 * i) (lc.h - 2 - 2 * j)) sel c)
          (sample cfg (pix lc img (2 * i + 1) (lc.h - 2 - 2 * j)) sel c) := by
  rw [← flipRow_add_one]
  rfl

/-- The kernel and the destination of both commands. -/
theorem kernelFor_and_dst_of_rgbfTo420 {sel : Sel} {i : Instr} {vu : Bool}
    (h : (i = .cvtRgbfSpuv sel ∧ vu = false) ∨ (i = .cvtRgbfSpvu sel ∧ vu = true)) :
    kernelFor i = rgbfTo420 sel vu ∧ (i.dst = .spuv ∨ i.dst = .spvu) := by
  rcases h with ⟨rfl, rfl⟩ | ⟨rfl, rfl⟩
  · exact ⟨rfl, .inl rfl⟩
  · exact ⟨rfl, .inr rfl⟩

/-- Settles O29: an interleaved destination whose luma is flipped and whose chroma samples are the box
averages of the flipped rows. -/
theorem rgbfTo420Completes : Obligations.RgbfTo420Completes := by
  intro sel i vu hi s run hruns
  obtain ⟨hkernel, hdst⟩ := kernelFor_and_dst_of_rgbfTo420 hi
  obtain ⟨t, ht, hdone, hluma, hchroma⟩ := hruns.exec_interleaved hdst (vu := vu)
    (u := fun j k => boxChroma s.cfg run.lc run.image sel .u k j)
    (v := fun j k => boxChroma s.cfg run.lc run.image sel .v k j) fun _ _ => by rw [hkernel]; rfl
  refine ⟨t, ht, hdone, fun y hy x hx => ?luma, fun j hj k hk ya yb hya hyb => ?pair⟩
  case luma =>
    calc Cells.read t.mem (run.lc.dstAddr .p0 (flipRow run.lc.h y) x)
        = pixSample s.cfg run.lc run.image sel .y x (flipRow run.lc.h (flipRow run.lc.h y)) := by
          rw [hluma _ (flipRow_lt hy) x hx, hkernel]; rfl
      _ = sample s.cfg (pix run.lc run.image x y) sel .y := by rw [flipRow_flipRow hy]; rfl
  case pair =>
    subst hya hyb
    simpa only [boxChroma_eq_avg4] using hchroma j hj k hk

end Sys2Proof.Machine
end

section
/-! PROOF. R248 (47_dispatch.md), R162 (42_kernel_common.md): a kernel's output depends on used source bytes
alone, so no tier, base or stride shows in it. -/

namespace Sys2Proof.Machine

/-! ## Used bytes that agree -/

/-- Byte `k` of row `r` of source plane `n`, in a command's source image (20_memory.md R77). -/
def Running.source (run : Running) (n : Ix) (r k : Nat) : Byte :=
  Cells.read run.image (run.lc.srcAddr n r k)

/-- `f₁` and `f₂` give the same value to every used byte of plane `g`. -/
def sameBytes (g : PlaneGeom) (f₁ f₂ : Ix → Nat → Nat → Byte) : Prop :=
  ∀ r < g.rows, ∀ k < g.used, f₁ g.ix r k = f₂ g.ix r k

/-- Every command with an interleaved destination is rejected at an odd width (40_control.md R145). -/
theorem acceptable_even_width {cfg : Params} {src dst : Format} {lc : Latched} {t : Tier}
    (h : acceptable cfg src dst lc t) (hdst : dst = .spuv ∨ dst = .spvu) : lc.w % 2 = 0 := by
  obtain ⟨-, hdims, -⟩ := acceptable_checks h
  have hsub : needsEvenWidth src dst = true := by
    rcases hdst with rfl | rfl <;> simp [needsEvenWidth, isInterleaved420, Format.code]
  simp only [dimsOk, hsub, Bool.true_and, Bool.and_eq_true, Bool.not_eq_true',
    bne_eq_false_iff_eq] at hdims
  obtain ⟨⟨-, hwidth⟩, -⟩ := hdims
  exact hwidth

/-- Interleaved outputs agree where their luma and the chroma samples they interleave agree: at an even
width each used byte of plane 1 belongs to a whole chroma pair. -/
theorem sameBytes_interleaved {lc : Latched} {dst : Format} (hdst : dst = .spuv ∨ dst = .spvu)
    (heven : lc.w % 2 = 0) {out₁ out₂ : Ix → Nat → Nat → Byte} {vu : Bool}
    {u₁ v₁ u₂ v₂ : Nat → Nat → Byte}
    (hout₁ : ∀ j k, out₁ .p1 j k = chromaByte vu (u₁ j (k / 2)) (v₁ j (k / 2)) k)
    (hout₂ : ∀ j k, out₂ .p1 j k = chromaByte vu (u₂ j (k / 2)) (v₂ j (k / 2)) k)
    (hluma : sameBytes ⟨.p0, lc.h, lc.w⟩ out₁ out₂)
    (hchroma : ∀ j < lc.h / 2, ∀ i < lc.w / 2, u₁ j i = u₂ j i ∧ v₁ j i = v₂ j i) :
    ∀ g ∈ lc.dstPlanes dst, sameBytes g out₁ out₂ := by
  simp only [lc.dstPlanes_interleaved hdst, List.forall_mem_cons]
  refine ⟨hluma, fun j hj k hk => ?_, List.forall_mem_nil _⟩
  obtain ⟨hu, hv⟩ := hchroma j hj (k / 2) (by simp only at hk; omega)
  rw [hout₁, hout₂, hu, hv]

/-- Planar 4:4:4 outputs agree where every component of every pixel agrees. -/
theorem sameBytes_planar {lc : Latched} {out₁ out₂ : Ix → Nat → Nat → Byte}
    (h : ∀ n, sameBytes ⟨n, lc.h, lc.w⟩ out₁ out₂) :
    ∀ g ∈ lc.dstPlanes .p444, sameBytes g out₁ out₂ := by
  simp only [Latched.dstPlanes, formatPlanes, List.forall_mem_cons]
  exact ⟨h .p0, h .p1, h .p2, List.forall_mem_nil _⟩

/-! ## Each kernel reads used source bytes only (R160)

The two commands have the same height and the same used source bytes; nothing else of their latched operands
and images is compared. -/

section
variable {run₁ run₂ : Running}

/-- R180: every output byte is a source byte at the same place of its plane. -/
theorem interleave420_sameBytes (vu : Bool) (cfg : Params) {dst : Format}
    (hdst : dst = .spuv ∨ dst = .spvu) (heven : run₁.lc.w % 2 = 0)
    (hsrc : ∀ g ∈ run₁.lc.srcPlanes .p420, sameBytes g run₁.source run₂.source) :
    ∀ g ∈ run₁.lc.dstPlanes dst, sameBytes g (interleave420 vu cfg run₁.lc run₁.image)
      (interleave420 vu cfg run₂.lc run₂.image) := by
  simp only [Latched.srcPlanes, formatPlanes, List.forall_mem_cons] at hsrc
  obtain ⟨hluma, hu, hv, -⟩ := hsrc
  exact sameBytes_interleaved hdst heven (fun _ _ => rfl) (fun _ _ => rfl) hluma
    fun j hj i hi => ⟨hu j hj i hi, hv j hj i hi⟩

theorem pk444Offset_lt (o : PixelOffsets) (n : Ix) : pk444Offset o n < 4 := by
  cases n <;> exact Fin.isLt _

/-- R190: a component lies within the four bytes of its packed pixel. -/
theorem deinterleave444_sameBytes (cfg : Params) (hh : run₁.lc.h = run₂.lc.h)
    (hsrc : sameBytes ⟨.p0, run₁.lc.h, 4 * run₁.lc.w⟩ run₁.source run₂.source) :
    ∀ g ∈ run₁.lc.dstPlanes .p444, sameBytes g (deinterleave444 cfg run₁.lc run₁.image)
      (deinterleave444 cfg run₂.lc run₂.image) := by
  refine sameBytes_planar fun n r hr k hk => ?_
  have hoffset := pk444Offset_lt cfg.pk444 n
  rw [deinterleave444, deinterleave444, ← hh]
  exact hsrc _ (flipRow_lt hr) _ (by simp only at hk ⊢; omega)

theorem offU_lt (first : Bool) : offU first < 4 := by cases first <;> decide

theorem offV_lt (first : Bool) : offV first < 4 := by cases first <;> decide

theorem offY_lt (first : Bool) {odd : Nat} (h : odd < 2) : offY first odd < 4 := by
  unfold offY
  split <;> omega

/-- R200: the luma and the two row-averaged chroma samples lie within the four bytes of a pixel pair. -/
theorem pk422To420_sameBytes (first vu : Bool) (cfg : Params) {dst : Format}
    (hdst : dst = .spuv ∨ dst = .spvu) (heven : run₁.lc.w % 2 = 0)
    (hsrc : sameBytes ⟨.p0, run₁.lc.h, 2 * run₁.lc.w⟩ run₁.source run₂.source) :
    ∀ g ∈ run₁.lc.dstPlanes dst, sameBytes g (pk422To420 first vu cfg run₁.lc run₁.image)
      (pk422To420 first vu cfg run₂.lc run₂.image) := by
  have hpair : ∀ y < run₁.lc.h, ∀ i < run₁.lc.w / 2, ∀ off < 4,
      run₁.source .p0 y (4 * i + off) = run₂.source .p0 y (4 * i + off) :=
    fun y hy i hi off hoff => hsrc y hy _ (by simp only; omega)
  have hchroma : ∀ j < run₁.lc.h / 2, ∀ i < run₁.lc.w / 2, ∀ off < 4,
      pk422Chroma run₁.lc run₁.image off i j = pk422Chroma run₂.lc run₂.image off i j :=
    fun j hj i hi off hoff => congrArg₂ avg2 (hpair (2 * j) (by omega) i hi off hoff)
      (hpair (2 * j + 1) (by omega) i hi off hoff)
  refine sameBytes_interleaved hdst heven (fun _ _ => rfl) (fun _ _ => rfl)
    (fun r hr k hk => hpair r hr (k / 2) ?half _ (offY_lt first (Nat.mod_lt k two_pos)))
    fun j hj i hi => ⟨hchroma j hj i hi _ (offU_lt first), hchroma j hj i hi _ (offV_lt first)⟩
  case half => simp only at hk; omega

/-- A channel is the four bytes of its word (20_memory.md R60). -/
theorem readF32_congr {rows used r k : Nat} (hsrc : sameBytes ⟨.p0, rows, used⟩ run₁.source run₂.source)
    (hr : r < rows) (hk : k + 3 < used) :
    readF32 run₁.image (run₁.lc.srcAddr .p0 r k) = readF32 run₂.image (run₂.lc.srcAddr .p0 r k) := by
  have hbyte : ∀ d < 4, run₁.source .p0 r (k + d) = run₂.source .p0 r (k + d) :=
    fun d hd => hsrc r hr _ (by simp only; omega)
  simp only [Running.source, Latched.srcAddr_add] at hbyte
  rw [readF32, readF32, hbyte 1 (by decide), hbyte 2 (by decide), hbyte 3 (by decide)]
  exact congrArg (wordOfBytes · _ _ _) (hbyte 0 (by decide))

/-- R215: a sample reads the sixteen bytes of its pixel. -/
theorem pixSample_congr (hsrc : sameBytes ⟨.p0, run₁.lc.h, 16 * run₁.lc.w⟩ run₁.source run₂.source)
    (cfg : Params) (sel : Sel) (c : Component) {x y : Nat} (hx : x < run₁.lc.w) (hy : y < run₁.lc.h) :
    pixSample cfg run₁.lc run₁.image sel c x y = pixSample cfg run₂.lc run₂.image sel c x y := by
  have hpix : pix run₁.lc run₁.image x y = pix run₂.lc run₂.image x y := by
    rw [pix, pix, readF32_congr hsrc hy (k := 16 * x) (by omega),
      readF32_congr hsrc hy (k := 16 * x + 4) (by omega),
      readF32_congr hsrc hy (k := 16 * x + 8) (by omega),
      readF32_congr hsrc hy (k := 16 * x + 12) (by omega)]
  rw [pixSample, pixSample, hpix]

/-- R223: the four pixels of a box lie within the image. -/
theorem boxChroma_congr (hh : run₁.lc.h = run₂.lc.h)
    (hsrc : sameBytes ⟨.p0, run₁.lc.h, 16 * run₁.lc.w⟩ run₁.source run₂.source)
    (cfg : Params) (sel : Sel) (c : Component) {i j : Nat} (hi : i < run₁.lc.w / 2)
    (hj : j < run₁.lc.h / 2) :
    boxChroma cfg run₁.lc run₁.image sel c i j = boxChroma cfg run₂.lc run₂.image sel c i j := by
  have hleft : 2 * i < run₁.lc.w := by omega
  have hright : 2 * i + 1 < run₁.lc.w := by omega
  have ha : flipRow run₁.lc.h (2 * j) < run₁.lc.h := flipRow_lt (by omega)
  have hb : flipRow run₁.lc.h (2 * j + 1) < run₁.lc.h := flipRow_lt (by omega)
  simp only [boxChroma, ← hh, pixSample_congr hsrc cfg sel c hleft ha,
    pixSample_congr hsrc cfg sel c hright ha, pixSample_congr hsrc cfg sel c hleft hb,
    pixSample_congr hsrc cfg sel c hright hb]

/-- R222: every output byte is the sample of one pixel. -/
theorem rgbfToP444_sameBytes (sel : Sel) (cfg : Params) (hh : run₁.lc.h = run₂.lc.h)
    (hsrc : sameBytes ⟨.p0, run₁.lc.h, 16 * run₁.lc.w⟩ run₁.source run₂.source) :
    ∀ g ∈ run₁.lc.dstPlanes .p444, sameBytes g (rgbfToP444 sel cfg run₁.lc run₁.image)
      (rgbfToP444 sel cfg run₂.lc run₂.image) := by
  refine sameBytes_planar fun n r hr k hk => ?_
  rw [rgbfToP444, rgbfToP444, ← hh]
  exact pixSample_congr hsrc cfg sel _ hk (flipRow_lt hr)

/-- R224: every output byte is a luma sample or the chroma of a box. -/
theorem rgbfTo420_sameBytes (sel : Sel) (vu : Bool) (cfg : Params) {dst : Format}
    (hdst : dst = .spuv ∨ dst = .spvu) (heven : run₁.lc.w % 2 = 0) (hh : run₁.lc.h = run₂.lc.h)
    (hsrc : sameBytes ⟨.p0, run₁.lc.h, 16 * run₁.lc.w⟩ run₁.source run₂.source) :
    ∀ g ∈ run₁.lc.dstPlanes dst, sameBytes g (rgbfTo420 sel vu cfg run₁.lc run₁.image)
      (rgbfTo420 sel vu cfg run₂.lc run₂.image) := by
  refine sameBytes_interleaved hdst heven (fun _ _ => rfl) (fun _ _ => rfl) (fun r hr k hk => ?luma)
    fun j hj i hi => ⟨boxChroma_congr hh hsrc cfg sel .u hi hj, boxChroma_congr hh hsrc cfg sel .v hi hj⟩
  case luma =>
    simp only [rgbfTo420, ← hh]
    exact pixSample_congr hsrc cfg sel .y hk (flipRow_lt hr)

/-- R248: of an accepted command, the height and the used source bytes decide every used destination byte. -/
theorem kernelFor_sameBytes {i : Instr} {cfg : Params} {t : Tier}
    (hacc : acceptable cfg i.src i.dst run₁.lc t) (hh : run₁.lc.h = run₂.lc.h)
    (hsrc : ∀ g ∈ run₁.lc.srcPlanes i.src, sameBytes g run₁.source run₂.source) :
    ∀ g ∈ run₁.lc.dstPlanes i.dst, sameBytes g (kernelFor i cfg run₁.lc run₁.image)
      (kernelFor i cfg run₂.lc run₂.image) := by
  have heven := acceptable_even_width hacc
  have honly : ∀ {g}, run₁.lc.srcPlanes i.src = [g] → sameBytes g run₁.source run₂.source :=
    fun hg => hsrc _ (hg ▸ List.mem_singleton_self _)
  cases i with
  | cvtP420Spuv => exact interleave420_sameBytes _ cfg (.inl rfl) (heven (.inl rfl)) hsrc
  | cvtP420Spvu => exact interleave420_sameBytes _ cfg (.inr rfl) (heven (.inr rfl)) hsrc
  | cvtPk444P444 => exact deinterleave444_sameBytes cfg hh (honly rfl)
  | cvtPk422cSpuv => exact pk422To420_sameBytes _ _ cfg (.inl rfl) (heven (.inl rfl)) (honly rfl)
  | cvtPk422cSpvu => exact pk422To420_sameBytes _ _ cfg (.inr rfl) (heven (.inr rfl)) (honly rfl)
  | cvtPk422lSpuv => exact pk422To420_sameBytes _ _ cfg (.inl rfl) (heven (.inl rfl)) (honly rfl)
  | cvtPk422lSpvu => exact pk422To420_sameBytes _ _ cfg (.inr rfl) (heven (.inr rfl)) (honly rfl)
  | cvtRgbfP444 sel => exact rgbfToP444_sameBytes sel cfg hh (honly rfl)
  | cvtRgbfSpuv sel => exact rgbfTo420_sameBytes sel _ cfg (.inl rfl) (heven (.inl rfl)) hh (honly rfl)
  | cvtRgbfSpvu sel => exact rgbfTo420_sameBytes sel _ cfg (.inr rfl) (heven (.inr rfl)) hh (honly rfl)

end

/-- Settles O24: each run completes with its kernel's values, and the kernel's values on the two runs agree,
since it reads used source bytes only. -/
theorem tiersGiveIdenticalOutput : Obligations.TiersGiveIdenticalOutput := by
  intro i s₁ s₂ run₁ run₂ hcfg hruns₁ hruns₂ hwidth hheight hsrc
  have hh : run₁.lc.h = run₂.lc.h := congrArg BitVec.toNat hheight
  have hplanes : run₁.lc.dstPlanes i.dst = run₂.lc.dstPlanes i.dst := by
    simp only [Latched.dstPlanes, Latched.w, Latched.h, hwidth, hheight]
  obtain ⟨t₁, ht₁, hdone₁, hwritten₁⟩ := hruns₁.exec_completes
  obtain ⟨t₂, ht₂, hdone₂, hwritten₂⟩ := hruns₂.exec_completes
  obtain ⟨-, hacc, -⟩ := hruns₁
  refine ⟨t₁, t₂, ht₁, ht₂, hdone₁, hdone₂, fun g hg r hr k hk => ?_⟩
  calc Cells.read t₁.mem (run₁.lc.dstAddr g.ix r k)
      = kernelFor i s₁.cfg run₁.lc run₁.image g.ix r k := hwritten₁ g hg r hr k hk
    _ = kernelFor i s₂.cfg run₂.lc run₂.image g.ix r k := by
      rw [← hcfg]; exact kernelFor_sameBytes hacc hh hsrc g hg r hr k hk
    _ = Cells.read t₂.mem (run₂.lc.dstAddr g.ix r k) :=
      (hwritten₂ g (hplanes ▸ hg) r hr k hk).symm

end Sys2Proof.Machine
end

section
/-! PROOF. R275 and R276 (60_exceptions.md): the decoder's and the operand checks' errors, each under its
guard, and that START on an idle engine posts the first. -/

namespace Sys2Proof

/-! ## The OP word's fields as numbers (R90, R91) -/

theorem opRsv_eq_zero_iff (w : Word) : opRsv w = 0 ↔ w.toNat / 2 ^ 10 = 0 := by
  have hlt : w.toNat / 2 ^ 10 < 2 ^ 22 := Nat.div_lt_of_lt_mul w.isLt
  rw [BitVec.toNat_eq, opRsv, BitVec.extractLsb'_toNat, Nat.shiftRight_eq_div_pow,
    Nat.mod_eq_of_lt hlt]
  rfl

theorem opSrcf_toNat (w : Word) : (opSrcf w).toNat = w.toNat % 16 := by
  simp [opSrcf, BitVec.extractLsb'_toNat]

theorem opDstf_toNat (w : Word) : (opDstf w).toNat = w.toNat / 16 % 16 := by
  simp [opDstf, BitVec.extractLsb'_toNat, Nat.shiftRight_eq_div_pow]

/-! ## What the decoder rejects (R104) -/

theorem Format.ofCode_eq_none_iff (c : BitVec 4) : Format.ofCode c = none ↔ 9 ≤ c.toNat := by
  rw [← Option.isNone_iff_eq_none, ← Option.not_isSome, Bool.not_eq_true', ← Bool.not_eq_true,
    Format.ofCode_isSome_iff, Nat.not_lt]

theorem decodeOp_reservedBits {w : Word} (h : opRsv w ≠ 0) : decodeOp w = .error .op := if_pos h

theorem decodeOp_reservedCode {w : Word} (hrsv : opRsv w = 0)
    (h : 9 ≤ (opSrcf w).toNat ∨ 9 ≤ (opDstf w).toNat) : decodeOp w = .error .fmt := by
  rw [← Format.ofCode_eq_none_iff, ← Format.ofCode_eq_none_iff] at h
  rcases h with h | h <;> simp [decodeOp, hrsv, h]

theorem decodeOp_noCommand {w : Word} (hrsv : opRsv w = 0) (hsrc : (opSrcf w).toNat < 9)
    (hdst : (opDstf w).toNat < 9) (hno : ∀ i, decodeOp w ≠ .ok i) :
    decodeOp w = .error .unsup := by
  obtain ⟨src, hsrc⟩ := Option.isSome_iff_exists.1 ((Format.ofCode_isSome_iff _).2 hsrc)
  obtain ⟨dst, hdst⟩ := Option.isSome_iff_exists.1 ((Format.ofCode_isSome_iff _).2 hdst)
  cases hk : kernelOf src dst (Sel.ofBits (opSel w)) with
  | none => simp [decodeOp, hrsv, hsrc, hdst, hk]
  | some i => exact absurd (by simp [decodeOp, hrsv, hsrc, hdst, hk]) (hno i)

/-- OP[7:0] of a word that decodes is one of R103's ten values. -/
theorem opCodes_of_decodeOp {w : Word} {i : Instr} (h : decodeOp w = .ok i) :
    w.toNat % 256 ∈ [0x10, 0x20, 0x34, 0x15, 0x25, 0x16, 0x26, 0x37, 0x17, 0x27] := by
  obtain ⟨-, hsrc, hdst, -⟩ := decodeOp_eq_ok_iff.1 h
  have hcodes : w.toNat % 256 = 16 * i.dst.code.toNat + i.src.code.toNat := by
    rw [← hsrc, ← hdst, opSrcf_toNat, opDstf_toNat]
    omega
  rw [hcodes]
  cases i with
  | cvtRgbfP444 sel | cvtRgbfSpuv sel | cvtRgbfSpvu sel => cases sel <;> decide
  | _ => decide

/-- The commands of an implementation without CAPS.HAS_SPVU_DST have another destination (R98). -/
theorem Instr.wellFormed_eq_false_iff (cfg : Params) (i : Instr) :
    i.wellFormed cfg = false ↔ i.dst = .spvu ∧ cfg.hasSpvuDst = false := by
  obtain ⟨-, -, -, -, hspvu⟩ := opFields i
  simp [Instr.wellFormed, hspvu]

theorem decodeOn_of_decodeOp_error {cfg : Params} {w : Word} {e : ErrCode}
    (h : decodeOp w = .error e) : decodeOn cfg w = .error e := by
  simp [decodeOn, h]

/-- A word that decodes on an implementation names a command it has. -/
theorem decodeOn_ok {cfg : Params} {w : Word} {i : Instr} (h : decodeOn cfg w = .ok i) :
    decodeOp w = .ok i ∧ i.wellFormed cfg = true := by
  unfold decodeOn at h
  split at h
  next j hop =>
    split at h
    next hwf => cases h; exact ⟨hop, hwf⟩
    next => cases h
  next => cases h

/-- ERR_UNSUP: the pair has no kernel, or its destination is SPVU where CAPS.HAS_SPVU_DST is 0. -/
theorem decodeOn_unsupported {cfg : Params} {w : Word} (hrsv : opRsv w = 0)
    (hsrc : (opSrcf w).toNat < 9) (hdst : (opDstf w).toNat < 9)
    (h : w.toNat % 256 ∉ [0x10, 0x20, 0x34, 0x15, 0x25, 0x16, 0x26, 0x37, 0x17, 0x27] ∨
      (opDstf w = Format.spvu.code ∧ cfg.hasSpvuDst = false)) :
    decodeOn cfg w = .error .unsup := by
  by_cases hok : ∃ i, decodeOp w = .ok i
  · obtain ⟨i, hi⟩ := hok
    obtain ⟨hcode, hspvu⟩ := h.resolve_left (not_not_intro (opCodes_of_decodeOp hi))
    obtain ⟨-, -, hidst, -⟩ := decodeOp_eq_ok_iff.1 hi
    have hi_spvu : i.dst = .spvu :=
      Option.some.inj (by rw [← Format.ofCode_code, ← hidst, hcode, Format.ofCode_code])
    simp [decodeOn, hi, (i.wellFormed_eq_false_iff cfg).2 ⟨hi_spvu, hspvu⟩]
  · exact decodeOn_of_decodeOp_error (decodeOp_noCommand hrsv hsrc hdst (not_exists.1 hok))

end Sys2Proof

namespace Sys2Proof.Machine

/-! ## START on an idle engine -/

/-- The checks of a START whose command the implementation has, in their order. -/
theorem startError_of_wellFormed {cfg : Params} {i : Instr} (h : i.wellFormed cfg = true)
    (lc : Latched) : startError cfg i.src i.dst lc =
      if dimsOk i.src i.dst lc = false then some .dim
      else if stridesOk i.src i.dst lc = false then some .stride
      else if rangeOk cfg.addrW i.src i.dst lc = false then some .range
      else none := by
  have hspvu : ¬ (i.dst = .spvu ∧ cfg.hasSpvuDst = false) := by
    simp [← Instr.wellFormed_eq_false_iff, h]
  rw [startError, if_neg hspvu]

/-- START posts a rejection as R276 says, whatever the other bits of the write to CTRL. -/
theorem rejectsWith_of_startWrite {s : State} {e : ErrCode}
    (h : startWrite s = .next (s.setPfc (s.pfc.reject e))) : rejectsWith s e :=
  ⟨h, fun _ hv => regWrite_ctrl_start hv s⟩

/-- A command whose checks fail is rejected with their error. -/
theorem rejectsWith_of_startError {s : State} {i : Instr} {e : ErrCode} (hidle : s.pfc.engine = none)
    (hop : decodeOp s.pfc.op = .ok i)
    (he : startError s.cfg i.src i.dst (s.pfc.latch s.cfg) = some e) : rejectsWith s e := by
  apply rejectsWith_of_startWrite
  simp [startWrite, Pfc.busy, hidle, hop, exec_idle hidle, startCommand, he]

/-- An OP word that does not decode on the implementation is rejected with the decoder's error. -/
theorem rejectsWith_of_decodeOn_error {s : State} {e : ErrCode} (hidle : s.pfc.engine = none)
    (he : decodeOn s.cfg s.pfc.op = .error e) : rejectsWith s e := by
  cases hop : decodeOp s.pfc.op with
  | error e' =>
    obtain rfl : e' = e := by simpa [decodeOn, hop] using he
    apply rejectsWith_of_startWrite
    simp [startWrite, Pfc.busy, hidle, hop]
  | ok i =>
    cases hwf : i.wellFormed s.cfg with
    | true => simp [decodeOn, hop, hwf] at he
    | false =>
      obtain rfl : .unsup = e := by simpa [decodeOn, hop, hwf] using he
      refine rejectsWith_of_startError hidle hop ?_
      rw [startError, if_pos ((i.wellFormed_eq_false_iff s.cfg).1 hwf)]

/-- Settles O12: the first three codes are the decoder's errors, the last three the operand checks' of a
command that decodes. -/
theorem startErrorsInOrder : Obligations.StartErrorsInOrder := by
  intro s hidle
  rw [ne_eq, ← opRsv_eq_zero_iff, ← opSrcf_toNat, ← opDstf_toNat]
  refine ⟨fun hrsv => ?op, fun hrsv hcode => ?fmt, fun hrsv hsrc hdst hno => ?unsup,
    fun i hi => ?operands⟩
  case op =>
    exact rejectsWith_of_decodeOn_error hidle
      (decodeOn_of_decodeOp_error (decodeOp_reservedBits hrsv))
  case fmt =>
    exact rejectsWith_of_decodeOn_error hidle
      (decodeOn_of_decodeOp_error (decodeOp_reservedCode hrsv hcode))
  case unsup =>
    exact rejectsWith_of_decodeOn_error hidle (decodeOn_unsupported hrsv hsrc hdst
      (hno.imp_right (And.imp_left BitVec.eq_of_toNat_eq)))
  case operands =>
    obtain ⟨hop, hwf⟩ := decodeOn_ok hi
    have hchecks := startError_of_wellFormed hwf (s.pfc.latch s.cfg)
    refine ⟨fun hdim => ?dim, fun hdim hstride => ?stride, fun hdim hstride hrange => ?range⟩
    case dim => exact rejectsWith_of_startError hidle hop (by simp [hchecks, hdim])
    case stride => exact rejectsWith_of_startError hidle hop (by simp [hchecks, hdim, hstride])
    case range =>
      exact rejectsWith_of_startError hidle hop (by simp [hchecks, hdim, hstride, hrange])

end Sys2Proof.Machine
end

section
/-! PROOF. R270 and R271 (60_exceptions.md): the interrupt output, and the events that set its bits. -/

namespace Sys2Proof.Machine

/-- The line is the OR over the three sources of the bit and its enable (R270). -/
theorem Pfc.irq_eq_true_iff (p : Pfc) : p.irq = true ↔
    ∃ k < 3, p.irqStatus.getLsbD k = true ∧ p.irqEnable.getLsbD k = true := by
  calc p.irq = true ↔ p.irqStatus &&& p.irqEnable ≠ 0#3 := bne_iff_ne
    _ ↔ ∃ k < 3, (p.irqStatus &&& p.irqEnable).getLsbD k = true := by
      rw [ne_eq, BitVec.eq_of_getLsbD_eq_iff]; simp
    _ ↔ _ := by simp only [BitVec.getLsbD_and, Bool.and_eq_true]

/-- Settles O44: the line by its bits, and each event sets its own bit without reading IRQ_ENABLE. -/
theorem interruptLine : Obligations.InterruptLine :=
  ⟨Pfc.irq_eq_true_iff, fun p e => by simp [irqDone, irqErr, irqOvr]⟩

end Sys2Proof.Machine
end

section
/-! PROOF. R290 to R292 (70_reset_and_hazards.md): what reset leaves in every register, and what its
assertion does to a running command and its destination. -/

namespace Sys2Proof.Machine

/-! ## The two moves of a reset input -/

theorem resetOnTurn_of_selectAt {s u : State} {n : Nat} (h : s.selectAt n = some u) :
    resetOnTurn n s = .next { u with
      pfc := { Pfc.reset u.cfg u.pfc.regBase with inReset := true }
      mem := (drawOver u.mem u.draws (addressesOf u.pfc.dstRanges)).1
      draws := (drawOver u.mem u.draws (addressesOf u.pfc.dstRanges)).2 } := by
  simp only [resetOnTurn, h]

theorem Pfc.dstRanges_of_idle {p : Pfc} (h : p.engine = none) : p.dstRanges = [] := by
  simp only [Pfc.dstRanges, h]

/-- Without a running command there is no destination to draw over. -/
theorem resetOnTurn_of_idle {s u : State} {n : Nat} (h : s.selectAt n = some u)
    (hidle : u.pfc.engine = none) : resetOnTurn n s =
      .next (u.setPfc { Pfc.reset u.cfg u.pfc.regBase with inReset := true }) := by
  rw [resetOnTurn_of_selectAt h, Pfc.dstRanges_of_idle hidle]
  rfl

theorem resetOffTurn_of_inReset {s u : State} {n : Nat} (h : s.selectAt n = some u)
    (hheld : u.pfc.inReset = true) :
    resetOffTurn n s = .next (u.setPfc (Pfc.reset u.cfg u.pfc.regBase)) := by
  simp only [resetOffTurn, h, hheld, if_true]

/-- Settles O2: the PFC is left with its reset values, so nothing is reported, and the draws go to the
addresses of the stopped command's destination footprints. -/
theorem resetWhileBusyStopsCommand : Obligations.ResetWhileBusyStopsCommand := by
  intro s u n run hu _
  have hsel := Readdressed.of_selectAt hu
  refine ⟨_, resetOnTurn_of_selectAt hu, rfl, rfl, rfl, fun k hk => ?irqStatus, .inr rfl, rfl, rfl,
    hsel.host, hsel.cfg, hsel.unseen, fun a => ?memory⟩
  case irqStatus => simp at hk
  case memory =>
    rw [← hsel.mem, ← mem_addressesOf]
    exact read_drawOver _ u.mem u.draws a

/-! ## Every register after reset (R292) -/

theorem capsWord_toNat (cfg : Params) : (capsWord cfg).toNat
    = cfg.hasV128.toNat + 2 * cfg.hasV256.toNat + 4 * cfg.hasSpvuDst.toNat := by
  have bits : ∀ v128 v256 spvu : Bool, ((0 : BitVec 29) ++ BitVec.ofBool spvu ++ BitVec.ofBool v256
      ++ BitVec.ofBool v128).toNat = v128.toNat + 2 * v256.toNat + 4 * spvu.toNat := by decide
  exact bits _ _ _

theorem presentTiers_toNat (cfg : Params) :
    (presentTiers cfg).toNat = cfg.hasV128.toNat + 2 * cfg.hasV256.toNat := by
  obtain ⟨h128, h256⟩ := presentTiers_getLsbD cfg
  rw [twoBits_toNat, h128, h256]

@[simp] theorem Pfc.reset_statusWord (cfg : Params) (base : Nat) :
    (Pfc.reset cfg base).statusWord = 0 := by
  simp [Pfc.statusWord, Pfc.busy, errCode, tierCode]

@[simp] theorem Pfc.reset_irq (cfg : Params) (base : Nat) : (Pfc.reset cfg base).irq = false := by
  simp [Pfc.irq]

theorem Pfc.reset_readReg_eq_zero (cfg : Params) (base : Nat) {r : Reg} (hid : r ≠ .id)
    (hcaps : r ≠ .caps) (hallow : r ≠ .tierAllow) : (Pfc.reset cfg base).readReg cfg r = 0 := by
  cases r with
  | id => exact absurd rfl hid
  | caps => exact absurd rfl hcaps
  | tierAllow => exact absurd rfl hallow
  | status => exact Pfc.reset_statusWord cfg base
  | srcAddrLo n | srcAddrHi n | srcStride n | dstAddrLo n | dstAddrHi n | dstStride n =>
    cases n <;> rfl
  | _ => rfl

@[simp] theorem State.reset_pfcs : State.reset.pfcs =
    (Config.firstRegBase :: Config.otherRegBases).map (Pfc.reset Config.params) := rfl

/-- Settles O1: the registers of a PFC after reset one by one, and each way to come to such a PFC. -/
theorem resetRegisterValues : Obligations.ResetRegisterValues := by
  refine ⟨fun cfg base => ⟨rfl, capsWord_toNat cfg, ?tierAllow,
    fun r => Pfc.reset_readReg_eq_zero cfg base, rfl, Pfc.reset_irq cfg base⟩, fun p hp => ?resetState,
    fun s u n => resetOffTurn_of_inReset, fun s u n hu hidle => ?assertion⟩
  case tierAllow =>
    rw [← presentTiers_toNat]
    exact BitVec.toNat_setWidth_of_le (by decide)
  case resetState =>
    rw [State.reset_pfcs, List.mem_map] at hp
    obtain ⟨base, -, rfl⟩ := hp
    rfl
  case assertion =>
    exact ⟨_, resetOnTurn_of_idle hu hidle, rfl, rfl, rfl, rfl⟩

end Sys2Proof.Machine
end

section
/-! PROOF. R161 (42_kernel_common.md), R137 (40_control.md): which bytes a run to the end reaches, and how it
ends; and R77, R79, R80 (20_memory.md): running commands stay coherent with memory and apart. -/

namespace Sys2Proof.Machine

/-! ## A run to the end, whatever the state of its engine (R161, R137) -/

/-- A byte of a row that lies before the plane's rounded used bytes is a byte of the destination footprint. -/
theorem Latched.dstFootprints_has {lc : Latched} {dst : Format} {t : Tier} {g : PlaneGeom}
    (hg : g ∈ lc.dstPlanes dst) {r k : Nat} (hr : r < g.rows) (hk : k < roundup g.used (laneWidth t)) :
    anyHas (lc.dstFootprints dst t).flatten (lc.dstAddr g.ix r k) = true :=
  footprints_has hg hr hk

/-- An overshoot window lies in its plane's footprint. -/
theorem Latched.dstWindows_subset {lc : Latched} {dst : Format} {t : Tier} {a : Nat}
    (ha : a ∈ lc.dstWindows dst t) : anyHas (lc.dstFootprints dst t).flatten a = true := by
  simp only [Latched.dstWindows, List.mem_flatMap, List.mem_map, List.mem_range] at ha
  obtain ⟨g, hg, r, hr, k, hk, rfl⟩ := ha
  exact Latched.dstFootprints_has hg hr (by omega)

/-- A run to the end leaves every byte outside its destination footprint. -/
theorem exec_busy_read_outside {i : Instr} {run : Running} {s t : State}
    (hrun : s.pfc.engine = some run) (h : exec i s = .next t) {a : Nat}
    (ha : anyHas (run.lc.dstFootprints i.dst s.pfc.tier).flatten a = false) :
    Cells.read t.mem a = Cells.read s.mem a := by
  rw [exec_busy hrun] at h
  obtain ⟨-, rfl⟩ := finishCommand_next h
  have hwindow : a ∉ run.lc.dstWindows i.dst s.pfc.tier := fun hw => by
    simp [Latched.dstWindows_subset hw] at ha
  refine (read_drawOver_other _ _ _ _ hwindow).trans (Cells.read_writeAll_other _ _ _ fun c hc e => ?_)
  obtain ⟨g, hg, r, hr, k, hk, rfl⟩ := (Latched.mem_dstWrites ..).1 hc
  subst e
  simp [Latched.dstFootprints_has hg hr (lt_of_lt_of_le hk (le_roundup _ _ (laneWidth_pos _)))] at ha

/-- Settles O30: the writes and the draws of a run to the end go to its destination footprint, whether or not
START would accept its command. -/
theorem commandWritesOnlyItsFootprint : Obligations.CommandWritesOnlyItsFootprint := by
  intro i s t run hrun h
  refine ⟨?frame, fun a => ⟨exec_busy_read_outside hrun h, exec_busy_unsees hrun h a⟩⟩
  case frame =>
    have hnext := exec_busy_next hrun h
    rw [hnext]
    rfl

theorem finishCommand_unmapped {src dst : Format} {out : KernelOut} {run : Running} {s : State}
    (h : run.lc.mapped s.memMap src dst s.pfc.tier = false) :
    finishCommand src dst out run s = .fault (.bus s.pfc.failBus) := by
  simp [finishCommand, h]

theorem busErrorTurn_busy {s : State} {run : Running} (h : s.pfc.engine = some run) :
    busErrorTurn s.here s = .fault (.bus s.pfc.failBus) := by
  simp [busErrorTurn, Pfc.busy, h]

/-- Settles O32: a run to the end looks at its mapped footprint and at nothing else, and a failed access ends
it in the same fault. -/
theorem busErrorFaults : Obligations.BusErrorFaults := by
  intro i s run hrun
  rw [exec_busy hrun]
  exact ⟨finishCommand_mapped, finishCommand_unmapped, busErrorTurn_busy hrun⟩

/-! ## Coherent running commands -/

/-- `q` runs what `p` runs, on the same tier, with the same error and reset input. -/
def Pfc.sameRun (p q : Pfc) : Prop :=
  q.engine = p.engine ∧ q.tier = p.tier ∧ q.err = p.err ∧ q.inReset = p.inReset

theorem Pfc.writeReg_sameRun (cfg : Params) (p : Pfc) (r : Reg) (v : Word) :
    p.sameRun (p.writeReg cfg r v) := by simp [Pfc.sameRun]

theorem Pfc.overrun_sameRun (p : Pfc) : p.sameRun p.overrun := ⟨rfl, rfl, rfl, rfl⟩

theorem Pfc.sameRun.ranges {p q : Pfc} (h : p.sameRun q) :
    q.srcRanges = p.srcRanges ∧ q.dstRanges = p.dstRanges := by
  obtain ⟨hengine, htier, -, -⟩ := h
  simp only [Pfc.srcRanges, Pfc.dstRanges, hengine, htier, and_self]

theorem Pfc.sameRun.coherent {p q : Pfc} (h : p.sameRun q) {cfg : Params} {mem : Memory}
    (hp : p.coherent cfg mem) : q.coherent cfg mem := by
  obtain ⟨hsrc, -⟩ := h.ranges
  obtain ⟨hengine, htier, herr, hreset⟩ := h
  simpa only [Pfc.coherent, hengine, htier, herr, hreset, hsrc] using hp

theorem Pfc.sameRun.racing {p q : Pfc} (h : p.sameRun q) (x : Pfc) : racing q x = racing p x := by
  obtain ⟨hsrc, hdst⟩ := h.ranges
  simp only [Machine.racing, hsrc, hdst]

theorem Pfc.coherent_of_idle {p : Pfc} (h : p.engine = none) (cfg : Params) (mem : Memory) :
    p.coherent cfg mem := by
  intro run hrun
  simp [h] at hrun

theorem Pfc.srcRanges_of_idle {p : Pfc} (h : p.engine = none) : p.srcRanges = [] := by
  simp only [Pfc.srcRanges, h]

theorem racing_of_idle {p : Pfc} (h : p.engine = none) (q : Pfc) : racing p q = false := by
  simp [racing, Pfc.srcRanges_of_idle h, Pfc.dstRanges_of_idle h, anyOverlap]

/-- Commands that do not race: no destination byte of the one is a source byte of the other. -/
theorem not_srcRanges_of_not_racing {p q : Pfc} (h : racing p q = false) {a : Nat}
    (ha : anyHas q.srcRanges a = true) : anyHas p.dstRanges a = false := by
  simp only [racing, anyOverlap_append_right, Bool.or_eq_false_iff] at h
  obtain ⟨⟨hsrc, -⟩, -⟩ := h
  exact not_anyHas_of_not_overlap ((anyOverlap_comm ..).trans hsrc) ha

/-- The destination footprint of a running command whose latched OP decodes. -/
theorem Pfc.dstRanges_of_decodeOp {p : Pfc} {run : Running} {i : Instr} (hrun : p.engine = some run)
    (hi : decodeOp run.lc.op = .ok i) :
    p.dstRanges = (run.lc.dstFootprints i.dst p.tier).flatten := by
  obtain ⟨-, -, hdst, -⟩ := decodeOp_eq_ok_iff.1 hi
  simp only [Pfc.dstRanges, hrun, hdst, Format.ofCode_code]

/-- A command that decodes and whose checks pass is one the implementation has. -/
theorem decodeOn_of_startError_none {cfg : Params} {w : Word} {i : Instr} {lc : Latched}
    (hi : decodeOp w = .ok i) (h : startError cfg i.src i.dst lc = none) : decodeOn cfg w = .ok i := by
  have hwf : i.wellFormed cfg = true := by
    by_contra hno
    rw [Bool.not_eq_true, Instr.wellFormed_eq_false_iff] at hno
    simp [startError, hno] at h
  simp [decodeOn, hi, hwf]

/-- A PFC that accepts a START out of reset is coherent: its source image is memory itself. -/
theorem Pfc.accept_coherent {cfg : Params} {p : Pfc} {mem : Memory} {i : Instr} {tr : Tier}
    (hreset : p.inReset = false) (hi : decodeOp p.op = .ok i)
    (hacc : acceptable cfg i.src i.dst (p.latch cfg) tr) :
    (p.accept (p.latch cfg) tr mem).coherent cfg mem := by
  intro run hrun
  cases hrun
  exact ⟨hreset, rfl, ⟨i, decodeOn_of_startError_none hi hacc.1, hacc⟩, fun _ _ => rfl⟩

/-- The addressed PFC stands apart from the others: the invariant, of the one and of the others. -/
theorem State.coherent_iff (s : State) : s.coherent ↔
    (s.pfc.coherent s.cfg s.mem ∧ ∀ q ∈ s.others, q.coherent s.cfg s.mem)
      ∧ (∀ q ∈ s.others, racing s.pfc q = false)
      ∧ s.others.Pairwise fun p q => racing p q = false := by
  rw [State.coherent, State.pfcs, List.pairwise_middle fun h => by rwa [racing_comm],
    List.pairwise_cons]
  simp only [State.others, List.mem_append, List.mem_cons]
  refine and_congr_left fun _ => ⟨fun h => ⟨h _ (.inr (.inl rfl)), fun q hq => h q ?_⟩, ?_⟩
  · exact hq.imp_right .inr
  · rintro ⟨hp, hq⟩ q (hb | rfl | ha)
    · exact hq q (.inl hb)
    · exact hp
    · exact hq q (.inr ha)

/-- The invariant reads the parameters, the PFCs and memory only. -/
theorem State.coherent.congr {s t : State} (h : s.coherent) (hcfg : t.cfg = s.cfg)
    (hpfcs : t.pfcs = s.pfcs) (hmem : t.mem = s.mem) : t.coherent := by
  simpa only [State.coherent, hcfg, hpfcs, hmem] using h

theorem State.coherent.of_quiet {s t : State} (h : s.coherent) (hq : Quiet s t) : t.coherent := by
  obtain ⟨hcfg, hpfcs, hmem, -⟩ := hq
  exact h.congr hcfg hpfcs hmem

theorem State.coherent.of_readdressed {s t : State} (h : s.coherent) (hr : Readdressed s t) :
    t.coherent := h.congr hr.cfg hr.pfcs hr.mem

/-- The addressed PFC may be replaced by one that is coherent and races with no other, and memory may change
where no other PFC has a source byte. -/
theorem State.coherent.replace {s t : State} (h : s.coherent) (hothers : t.others = s.others)
    (hcfg : t.cfg = s.cfg) (hpfc : t.pfc.coherent s.cfg t.mem)
    (hrace : ∀ q ∈ s.others, racing t.pfc q = false)
    (hmem : ∀ q ∈ s.others, ∀ a, anyHas q.srcRanges a = true →
      Cells.read t.mem a = Cells.read s.mem a) : t.coherent := by
  obtain ⟨⟨-, hcoh⟩, -, hpair⟩ := s.coherent_iff.1 h
  rw [State.coherent_iff, hothers, hcfg]
  refine ⟨⟨hpfc, fun q hq run hrun => ?_⟩, hrace, hpair⟩
  obtain ⟨hreset, herr, hacc, hsource⟩ := hcoh q hq run hrun
  exact ⟨hreset, herr, hacc, fun a ha => (hmem q hq a ha).trans (hsource a ha)⟩

/-- The addressed PFC may go idle. -/
theorem State.coherent.replace_idle {s t : State} (h : s.coherent) (hothers : t.others = s.others)
    (hcfg : t.cfg = s.cfg) (hidle : t.pfc.engine = none)
    (hmem : ∀ q ∈ s.others, ∀ a, anyHas q.srcRanges a = true →
      Cells.read t.mem a = Cells.read s.mem a) : t.coherent :=
  h.replace hothers hcfg (Pfc.coherent_of_idle hidle _ _) (fun q _ => racing_of_idle hidle q) hmem

/-- The addressed PFC may change in what no running command depends on. -/
theorem State.coherent.setPfc_sameRun {s : State} (h : s.coherent) {p : Pfc} (hp : s.pfc.sameRun p) :
    (s.setPfc p).coherent := by
  obtain ⟨⟨hpfc, -⟩, hrace, -⟩ := s.coherent_iff.1 h
  exact h.replace rfl rfl (hp.coherent hpfc) (fun q hq => (hp.racing q).trans (hrace q hq))
    fun _ _ _ _ => rfl

/-! ## Every agent's move keeps them -/

theorem State.coherent.startWrite {s t : State} (h : s.coherent) (hreset : s.pfc.inReset = false)
    (ht : startWrite s = .next t) : t.coherent := by
  have reject : ∀ e, s.pfc.engine = none → (s.setPfc (s.pfc.reject e)).coherent := fun e hidle =>
    h.replace_idle (t := s.setPfc (s.pfc.reject e)) rfl rfl hidle fun _ _ _ _ => rfl
  rcases startWrite_next ht with ⟨-, rfl⟩ | ⟨hidle, e, -, rfl⟩ | ⟨hidle, i, hi, hstart⟩
  · exact h.setPfc_sameRun (Pfc.overrun_sameRun _)
  · exact reject e hidle
  · rcases startCommand_next hstart with ⟨e, -, rfl⟩ | ⟨tr, hacc, hrace, rfl⟩
    · exact reject e hidle
    · exact h.replace rfl rfl (Pfc.accept_coherent hreset hi hacc) hrace fun _ _ _ _ => rfl

/-- A byte in no footprint of a running command is no source byte of any PFC. -/
theorem State.not_srcRanges_of_not_inFootprint {s : State} {a : Nat} (h : s.inFootprint a = false)
    {p : Pfc} (hp : p ∈ s.pfcs) : anyHas p.srcRanges a = false := by
  have := List.any_eq_false.1 h p hp
  simp only [Bool.or_eq_true, not_or, Bool.not_eq_true] at this
  exact this.1

theorem State.coherent.hostTurn {s t : State} (h : s.coherent) (ht : hostTurn s = .next t) :
    t.coherent := by
  rcases hostTurn_next ht with hq | ⟨n, u, r, v, -, hu, -, -, rfl⟩ | ⟨n, u, v, -, -, hu, hreset, hw⟩ |
    ⟨bytes, hout, rfl⟩
  · exact h.of_quiet hq
  · exact ((h.of_readdressed (.of_select hu)).of_quiet (.nextStmt u)).setPfc_sameRun
      (Pfc.writeReg_sameRun ..)
  · exact ((h.of_readdressed (.of_select hu)).of_quiet (.nextStmt u)).startWrite hreset hw
  · obtain ⟨hcoh, hrace⟩ := h
    refine ⟨fun p hp run hrun => ?_, hrace⟩
    obtain ⟨hreset, herr, hacc, hsource⟩ := hcoh p hp run hrun
    refine ⟨hreset, herr, hacc, fun a ha => Eq.trans ?_ (hsource a ha)⟩
    refine Cells.read_writeAll_other _ _ _ fun c hc e => ?_
    have hno := State.not_srcRanges_of_not_inFootprint (hout c hc) hp
    rw [e, ha] at hno
    cases hno

theorem State.coherent.engineTurn {n : Nat} {s t : State} (h : s.coherent)
    (ht : engineTurn n s = .next t) : t.coherent := by
  rcases engineTurn_next ht with hq | ⟨u, run, i, hu, hrun, hi, hx⟩
  · exact h.of_quiet hq
  · have hu' := h.of_readdressed (.of_selectAt hu)
    obtain ⟨-, hrace, -⟩ := u.coherent_iff.1 hu'
    have ht' := exec_busy_next hrun hx
    refine hu'.replace_idle (by rw [ht']; rfl) (by rw [ht']) (by rw [ht']; rfl) fun q hq a ha =>
      exec_busy_read_outside hrun hx ?_
    rw [← Pfc.dstRanges_of_decodeOp hrun hi]
    exact not_srcRanges_of_not_racing (hrace q hq) ha

theorem State.coherent.resetOnTurn {n : Nat} {s t : State} (h : s.coherent)
    (ht : resetOnTurn n s = .next t) : t.coherent := by
  rcases resetOnTurn_next ht with ⟨rfl, -⟩ | ⟨u, hu, rfl⟩
  · exact h
  · have hu' := h.of_readdressed (.of_selectAt hu)
    obtain ⟨-, hrace, -⟩ := u.coherent_iff.1 hu'
    refine hu'.replace_idle rfl rfl rfl fun q hq a ha => read_drawOver_other _ _ _ _ ?_
    rw [mem_addressesOf, Bool.not_eq_true]
    exact not_srcRanges_of_not_racing (hrace q hq) ha

theorem State.coherent.resetOffTurn {n : Nat} {s t : State} (h : s.coherent)
    (ht : resetOffTurn n s = .next t) : t.coherent := by
  rcases resetOffTurn_next ht with hq | ⟨u, hu, -, rfl⟩
  · exact h.of_quiet hq
  · exact (h.of_readdressed (.of_selectAt hu)).replace_idle rfl rfl rfl fun _ _ _ _ => rfl

/-- Settles O57: a START adds only a command that races with none, a host store reaches no source byte, and
what a command that ends or is reset writes is no source byte of another. -/
theorem stepKeepsRunningCommandsCoherent : Obligations.StepKeepsRunningCommandsCoherent :=
  fun _ _ hs hstep => step_induction (P := State.coherent) (fun _ _ h => h.congr rfl rfl rfl)
    (fun _ _ => State.coherent.hostTurn) (fun _ _ _ => State.coherent.engineTurn)
    (fun _ _ _ h ht => h.of_quiet (busErrorTurn_next ht)) (fun _ _ _ => State.coherent.resetOnTurn)
    (fun _ _ _ => State.coherent.resetOffTurn) hs hstep

end Sys2Proof.Machine
end

section
/-! PROOF. R91 (30_encoding.md), R133 (40_control.md), R268, R276 and R277 (60_exceptions.md): what START latches,
how it ends on an idle engine, and a host write in the cycle of a command's end. -/

namespace Sys2Proof.Machine

/-! ## The latched operands (R91) -/

theorem append_toNat {m n : Nat} (hi : BitVec m) (lo : BitVec n) :
    (hi ++ lo).toNat = hi.toNat * 2 ^ n + lo.toNat := by
  rw [BitVec.toNat_append, ← Nat.shiftLeft_add_eq_or_of_lt lo.isLt, Nat.shiftLeft_eq]

/-- A base fits its 64 latched bits, since ADDR_W is at most 64. -/
theorem PlaneRegs.base_toNat {cfg : Params} (h : cfg.legal = true) (p : PlaneRegs) :
    (p.base cfg).toNat = (p.addrHi.toNat * 2 ^ 32 + p.addrLo.toNat) % 2 ^ cfg.addrW := by
  have hw : cfg.addrW ≤ 64 := by
    simp only [Params.legal, Bool.and_eq_true, decide_eq_true_eq] at h
    exact h.1.2
  have hlt : (p.addrHi ++ p.addrLo).toNat % 2 ^ cfg.addrW < 2 ^ 64 :=
    lt_of_lt_of_le (Nat.mod_lt _ (Nat.two_pow_pos _)) (Nat.pow_le_pow_right two_pos hw)
  rw [PlaneRegs.base, BitVec.toNat_ofNat, Nat.mod_eq_of_lt hlt, append_toNat]

@[simp] theorem latchPlanes_get (cfg : Params) (t : Three PlaneRegs) (n : Ix) :
    (latchPlanes cfg t).get n = (t.get n).latch cfg := by cases n <;> rfl

/-- Settles O16: of the latched operands only the bases are computed. -/
theorem latchedOperands : Obligations.LatchedOperands := by
  intro cfg p hcfg
  refine ⟨rfl, rfl, rfl, rfl, fun n => ?_⟩
  simp only [Pfc.latch, latchPlanes_get]
  exact ⟨PlaneRegs.base_toNat hcfg _, PlaneRegs.base_toNat hcfg _, rfl, rfl⟩

/-! ## START on an idle engine (R133, R268) -/

/-- START of a word that decodes is the START of its command. -/
theorem startWrite_idle {s : State} {i : Instr} (hidle : s.pfc.engine = none)
    (hi : decodeOp s.pfc.op = .ok i) : startWrite s = startCommand i.src i.dst s := by
  simp [startWrite, Pfc.busy, hidle, hi, exec_idle]

theorem startCommand_of_mayStart {s : State} {i : Instr} (h : s.mayStart i) :
    startCommand i.src i.dst s = .next (s.setPfc (s.pfc.accept (s.pfc.latch s.cfg)
      (selectTier s.cfg i.src i.dst (s.pfc.latch s.cfg)) s.mem)) := by
  obtain ⟨-, hchecks, hoverlap, hblock, hrace⟩ := h
  have hrace' : (s.others.any fun q => racing (s.pfc.accept (s.pfc.latch s.cfg)
      (selectTier s.cfg i.src i.dst (s.pfc.latch s.cfg)) s.mem) q) = false :=
    List.any_eq_false.2 fun q hq => by simp [hrace q hq]
  simp [startCommand, hchecks, hoverlap, hblock, hrace']

/-- Settles O17: with every check passed and no duty broken, START is the acceptance. -/
theorem startAcceptsCommand : Obligations.StartAcceptsCommand := by
  intro s i hi hmay
  obtain ⟨hop, -⟩ := decodeOn_ok hi
  have hidle : s.pfc.engine = none := hmay.1
  have hstart := startCommand_of_mayStart hmay
  have hwrite := (startWrite_idle hidle hop).trans hstart
  exact ⟨_, hwrite, (exec_idle hidle).trans hstart,
    fun v hv => (regWrite_ctrl_start hv s).trans hwrite, rfl, rfl⟩

theorem State.reachesBlock_iff (s : State) (rs : List Range) :
    s.reachesBlock rs = true ↔ ∃ q ∈ s.pfcs, anyOverlap rs [q.block] = true := by
  simp only [State.reachesBlock, anyOverlap, List.any_map, List.any_cons, List.any_nil, Bool.or_false,
    List.any_eq_true, Function.comp]
  exact ⟨fun ⟨r, hr, q, hq, h⟩ => ⟨q, hq, r, hr, h⟩, fun ⟨q, hq, r, hr, h⟩ => ⟨r, hr, q, hq, h⟩⟩

/-- Settles O18: past its checks START meets the three duties in the model's order. -/
theorem undefinedStartsFault : Obligations.UndefinedStartsFault := by
  intro s i hidle hi hchecks tr htr
  obtain ⟨hop, -⟩ := decodeOn_ok hi
  rw [startWrite_idle hidle hop]
  refine ⟨fun v hv => ?start, fun hoverlap => ?overlap, fun hoverlap hblock hrace => ?race,
    fun hoverlap hblock => ?block⟩
  case start => exact (regWrite_ctrl_start hv s).trans (startWrite_idle hidle hop)
  case overlap => simp [startCommand, hchecks, ← htr, hoverlap]
  case race =>
    have hblock' : s.reachesBlock (((s.pfc.latch s.cfg).srcFootprints i.src tr).flatten
        ++ ((s.pfc.latch s.cfg).dstFootprints i.dst tr).flatten) = false := by
      rw [← Bool.not_eq_true, State.reachesBlock_iff]
      rintro ⟨q, hq, h⟩
      simp [hblock q hq] at h
    simp only [startCommand, hchecks, ← htr, hoverlap, hblock', List.any_eq_true.2 hrace,
      Bool.false_eq_true, if_false, if_true]
  case block =>
    simp [startCommand, hchecks, ← htr, hoverlap, (s.reachesBlock_iff _).2 hblock]

/-- A rejection always has a code. -/
theorem startError_ne_none {cfg : Params} {src dst : Format} {lc : Latched} {e : ErrCode}
    (h : startError cfg src dst lc = some e) : e ≠ .none := by
  unfold startError at h
  split_ifs at h <;> cases h <;> decide

/-- Settles O31: a START that answers a next state is a rejection or an acceptance. -/
theorem startTouchesOnlyStatus : Obligations.StartTouchesOnlyStatus := by
  intro i s t hidle h
  rw [exec_idle hidle] at h
  rcases startCommand_next h with ⟨e, he, rfl⟩ | ⟨tr, -, -, rfl⟩
  · exact ⟨rfl, .inl ⟨hidle, rfl, startError_ne_none he, rfl⟩⟩
  · exact ⟨rfl, .inr ⟨by simp, rfl, rfl⟩⟩

/-- Settles O3: the reset OP names P420 to P420, which has no kernel, and a command of no width fails its
first operand check. -/
theorem noCommandRunsOnResetValues : Obligations.NoCommandRunsOnResetValues := by
  refine ⟨?reset, fun s i hidle hi hw _ => ?zero⟩
  case reset =>
    have hop : decodeOp 0 = .error .unsup := by decide
    exact rejectsWith_of_decodeOn_error rfl (decodeOn_of_decodeOp_error hop)
  case zero =>
    obtain ⟨hop, hwf⟩ := decodeOn_ok hi
    have hdims : dimsOk i.src i.dst (s.pfc.latch s.cfg) = false := by
      simp [dimsOk, Pfc.latch, Latched.w, hw]
    refine rejectsWith_of_startError hidle hop ?_
    rw [startError_of_wellFormed hwf, if_pos hdims]

/-! ## A host write in the cycle of a command's end (R277, R28) -/

/-- A register write to a PFC out of reset is `regWrite`, with the host at its next statement. -/
theorem hostTurn_wr32 {s u : State} {n off : Nat} {v : Word} (hat : hostIsAt s (.wr32 n off v))
    (hoff : regOffsetOk off = true) (hu : s.select n = some u) (hreset : u.pfc.inReset = false) :
    hostTurn s = regWrite u.nextStmt off v := by
  rw [hostTurn_eq_runStmt hat]
  simp [runStmt, hoff, onPfc, hu, hreset]

/-- The move of a busy PFC's engine is `exec` of the command its latched OP decodes to. -/
theorem engineTurn_busy {s u : State} {n : Nat} {run : Running} {i : Instr}
    (hu : s.selectAt n = some u) (hrun : u.pfc.engine = some run) (hi : decodeOp run.lc.op = .ok i) :
    engineTurn n s = exec i u := by
  simp [engineTurn, hu, hrun, hi]

/-- A command that runs ends in completion, whatever else of its PFC was written. -/
theorem State.runs.exec_pfc {s : State} {i : Instr} {run : Running} (h : s.runs i run) :
    ∃ t, exec i s = .next t ∧ t.pfc = s.pfc.complete := by
  obtain ⟨hrun, -⟩ := id h
  obtain ⟨t, ht, -⟩ := h.exec_completes
  exact ⟨t, ht, by rw [exec_busy_next hrun ht]⟩

theorem State.runs.setPfc_sameRun {s : State} {i : Instr} {run : Running} (h : s.runs i run) {p : Pfc}
    (hp : s.pfc.sameRun p) : (s.setPfc p).runs i run := by
  obtain ⟨hengine, htier, -⟩ := hp
  obtain ⟨hrun, hacc, hmapped⟩ := h
  refine ⟨hengine.trans hrun, ?_, ?_⟩
  · simpa only [State.setPfc_pfc, State.setPfc_cfg, htier] using hacc
  · simpa only [State.setPfc_pfc, State.setPfc_memMap, htier] using hmapped

/-- The write that leaves the addressed PFC as `p`, then the end: the PFC is left as `p` completed. -/
theorem State.runs.together_write {s : State} {i : Instr} {run : Running} (h : s.runs i run)
    (hi : decodeOp run.lc.op = .ok i) (hreset : s.pfc.inReset = false) {off : Nat} {v : Word}
    (hat : hostIsAt s (.wr32 s.pfc.regBase off v)) (hoff : regOffsetOk off = true) {p : Pfc}
    (hp : s.pfc.sameRun p) (hwrite : regWrite s.nextStmt off v = .next (s.nextStmt.setPfc p)) :
    ∃ t, takeTurn (.together s.here) s = .next t ∧ t.pfc = p.complete := by
  have hruns : (s.nextStmt.setPfc p).runs i run := h.setPfc_sameRun hp
  obtain ⟨t, ht, hpfc⟩ := hruns.exec_pfc
  have hhost := (hostTurn_wr32 hat hoff s.select_here hreset).trans hwrite
  have hengine := engineTurn_busy (s.nextStmt.setPfc p).selectAt_here hruns.1 hi
  refine ⟨t, ?_, hpfc⟩
  simp only [takeTurn, hhost]
  exact hengine.trans ht

/-- Settles O6: each write changes its register bit by bit, and a completion after the clear sets DONE. -/
theorem interruptRegisterWrites : Obligations.InterruptRegisterWrites := by
  refine ⟨fun s v => ⟨_, regWrite_regOffset (r := .irqStatus) (by decide) s v, rfl, fun k hk => ?clear⟩,
    fun s v => ⟨_, regWrite_regOffset (r := .irqEnable) (by decide) s v, rfl, fun k hk => ?enable⟩,
    fun s i run v hruns hi hreset hat => ?wins⟩
  case clear => simp [Pfc.writeReg, hk]
  case enable => simp [Pfc.writeReg, hk]
  case wins =>
    obtain ⟨t, ht, hpfc⟩ := hruns.together_write hi hreset hat (by decide)
      (Pfc.writeReg_sameRun s.cfg s.pfc .irqStatus v)
      (regWrite_regOffset (r := .irqStatus) (by decide) s.nextStmt v)
    exact ⟨t, ht, by simp [hpfc, irqDone]⟩

/-- Settles O46: the START is judged while the engine is busy, so it is an overrun, and the end follows. -/
theorem startInTheCycleOfTheEnd : Obligations.StartInTheCycleOfTheEnd := by
  intro s i run v hruns hi hreset hv hat
  have hbusy : s.nextStmt.pfc.engine ≠ none := by simp [hruns.1]
  obtain ⟨t, ht, hpfc⟩ := hruns.together_write hi hreset hat (by decide) s.pfc.overrun_sameRun
    ((regWrite_ctrl_start hv s.nextStmt).trans (startWrite_busy hbusy))
  refine ⟨t, ht, hpfc.trans ?_⟩
  have hbits : s.pfc.irqStatus ||| irqOvr ||| irqDone = s.pfc.irqStatus ||| 0b101 :=
    BitVec.or_assoc ..
  rw [← hbits]
  rfl

/-! ## What a host takes for success (R297) -/

theorem Pfc.succeeded_iff (p : Pfc) : p.succeeded = true ↔
    p.err = .none ∧ p.irqStatus.getLsbD 2 = false ∧ p.irqStatus.getLsbD 0 = true := by
  have ovr : ∀ x : BitVec 3, x &&& irqOvr = 0 ↔ x.getLsbD 2 = false := by decide
  have done : ∀ x : BitVec 3, x &&& irqDone ≠ 0 ↔ x.getLsbD 0 = true := by decide
  simp only [Pfc.succeeded, Bool.and_eq_true, beq_iff_eq, bne_iff_ne, ovr, done, and_assoc]

theorem Pfc.not_succeeded {p : Pfc}
    (h : p.irqStatus.getLsbD 2 = true ∨ p.irqStatus.getLsbD 0 = false) : p.succeeded = false := by
  rw [← Bool.not_eq_true, Pfc.succeeded_iff]
  rintro ⟨-, hovr, hdone⟩
  rcases h with h | h
  · exact absurd (h.symm.trans hovr) (by decide)
  · exact absurd (h.symm.trans hdone) (by decide)

/-- Settles O43: completion sets DONE and leaves OVR and ERR; no START sets DONE, and one on a busy engine
sets OVR. -/
theorem successIsTold : Obligations.SuccessIsTold := by
  refine ⟨fun s i run hruns herr hovr => ?completes, fun s t hidle hdone h => ?idle,
    fun s t hbusy h => ?busy⟩
  case completes =>
    obtain ⟨t, ht, hpfc⟩ := hruns.exec_pfc
    exact ⟨t, ht, by rw [Pfc.succeeded_iff]; simpa [hpfc, herr, irqDone] using hovr⟩
  case idle =>
    refine Pfc.not_succeeded (.inr ?_)
    rcases startWrite_next h with ⟨hb, -⟩ | ⟨-, e, -, rfl⟩ | ⟨-, i, -, hstart⟩
    · simp [Pfc.busy, hidle] at hb
    · simpa [irqErr] using hdone
    · rcases startCommand_next hstart with ⟨e, -, rfl⟩ | ⟨tr, -, -, rfl⟩
      · simpa [irqErr] using hdone
      · exact hdone
  case busy =>
    rw [startWrite_busy hbusy] at h
    cases h
    exact Pfc.not_succeeded (.inl (by simp [irqOvr]))

end Sys2Proof.Machine
end

section
/-! PROOF. R106 (30_encoding.md), R130 (40_control.md), R60, R76, R78 (20_memory.md), R290 and R296
(70_reset_and_hazards.md): the host's statements, and the move a step makes. -/

namespace Sys2Proof.Machine

/-! ## Register accesses (R130, R290) -/

theorem regOffsetOk_of_aligned {off : Nat} (h4 : off % 4 = 0) (hlt : off < 4096) :
    regOffsetOk off = true := by
  simp [regOffsetOk, blockSize, h4, hlt]

/-- Settles O8: a read changes the host, and what the host has seen where it shows an end. -/
theorem registerReadHasNoSideEffect : Obligations.RegisterReadHasNoSideEffect := by
  intro s u n off name hat h4 hlt hu hreset
  have hsel := Readdressed.of_select hu
  obtain ⟨hcfg, hpfcs, hmem, hmap, hturns, hprog, -⟩ : Quiet s ((u.nextStmt.bind name
      (u.pfc.readAt u.cfg off)).see off) :=
    ((Quiet.of_select hu).trans (Quiet.nextStmt u)).trans ((Quiet.bind ..).trans (Quiet.see ..))
  refine ⟨_, hostTurn_rd32 hat (regOffsetOk_of_aligned h4 hlt) hu hreset, ?value, fun m hm => ?names, ?pc,
    hprog, hpfcs, hmem, hcfg, hmap, ?draws, hturns, fun c hc => ?subset, fun hstatus hirq => ?other⟩
  case value => simp [hsel.cfg]
  case names => simp [hsel.host, Cells.read_write_other _ _ hm]
  case pc => simp [hsel.host]
  case draws => simp [hsel.draws]
  case subset =>
    rw [← hsel.unseen]
    rw [State.see_unseen] at hc
    split at hc
    · exact List.mem_of_mem_filter hc
    · exact hc
  case other =>
    rw [← hsel.unseen, State.see_unseen, if_neg (by simp [Pfc.showsEnd_iff, hstatus, hirq])]
    rfl

/-- A register access of a PFC whose reset is asserted is not answered. -/
theorem hostTurn_inReset {s u : State} {n off : Nat} (hoff : regOffsetOk off = true)
    (hu : s.select n = some u) (hreset : u.pfc.inReset = true)
    (hat : (∃ v, hostIsAt s (.wr32 n off v)) ∨ ∃ name, hostIsAt s (.rd32 n off name)) :
    hostTurn s = .next u := by
  rcases hat with ⟨v, hat⟩ | ⟨name, hat⟩ <;> rw [hostTurn_eq_runStmt hat] <;>
    simp [runStmt, hoff, onPfc, hu, hreset]

/-- Settles O10: the host waits at the access, and the assertion leaves the reset values, drawing over nothing
where no command runs. -/
theorem registerAccessWaitsInReset : Obligations.RegisterAccessWaitsInReset := by
  refine ⟨fun s u n off h4 hlt hu hreset hat => ?access, fun s u n hu => ?assertion⟩
  case access =>
    have hsel := Readdressed.of_select hu
    exact ⟨hostTurn_inReset (regOffsetOk_of_aligned h4 hlt) hu hreset hat, hsel.host, hsel.pfcs, hsel.mem⟩
  case assertion =>
    refine ⟨_, resetOnTurn_of_selectAt hu, rfl, Pfc.reset_irq u.cfg u.pfc.regBase, fun hidle => ?_⟩
    rw [Pfc.dstRanges_of_idle hidle]
    rfl

/-! ## The host's own control flow (R106) -/

/-- The first label of its number is the one a branch goes to. -/
theorem labelAt_eq_some {prog : List Stmt} {l k : Nat} (hk : prog[k]? = some (.label l))
    (hfirst : ∀ j < k, prog[j]? ≠ some (.label l)) : labelAt prog l = some k := by
  obtain ⟨hlt, hk⟩ := List.getElem?_eq_some_iff.1 hk
  refine List.findIdx?_eq_some_iff_getElem.2 ⟨hlt, by simp [hk], fun j hj => ?_⟩
  have hne := hfirst j hj
  rw [List.getElem?_eq_getElem (hj.trans hlt)] at hne
  simpa using hne

/-- Settles O42: each statement's effect, and a program that is over. -/
theorem hostControlFlow : Obligations.HostControlFlow := by
  refine ⟨fun s u n hat hu => ⟨fun h => ?goes, fun h => ?waits⟩, fun s l hat => ?label,
    fun s name l mask hat => ⟨fun h => ?falls, fun h k hk hfirst => ?branches⟩, fun s h => ?finished⟩
  case goes => simp [hostTurn_eq_runStmt hat, runStmt, hu, h]
  case waits => simp [hostTurn_eq_runStmt hat, runStmt, hu, h]
  case label => rw [hostTurn_eq_runStmt hat, runStmt]
  case falls => rw [hostTurn_eq_runStmt hat, runStmt, if_pos h]
  case branches => rw [hostTurn_eq_runStmt hat, runStmt, if_neg h, labelAt_eq_some hk hfirst]
  case finished => simp [hostTurn, List.getElem?_eq_none h]

/-! ## Host stores (R60, R78) -/

theorem State.inFootprint_iff (s : State) (a : Nat) : s.inFootprint a = true ↔
    ∃ p ∈ s.pfcs, anyHas p.srcRanges a = true ∨ anyHas p.dstRanges a = true := by
  simp only [State.inFootprint, List.any_eq_true, Bool.or_eq_true]

theorem State.inFootprint_eq_false {s : State} {a : Nat}
    (h : ∀ p ∈ s.pfcs, anyHas p.srcRanges a = false ∧ anyHas p.dstRanges a = false) :
    s.inFootprint a = false := by
  rw [← Bool.not_eq_true, State.inFootprint_iff]
  rintro ⟨p, hp, hin⟩
  simp [h p hp] at hin

theorem hostStore_race {s : State} {bytes : List (Nat × Byte)} {c : Nat × Byte} (hc : c ∈ bytes)
    (h : s.inFootprint c.1 = true) : hostStore s bytes = .fault .race :=
  if_pos (List.any_eq_true.2 ⟨c, hc, h⟩)

/-- A store to bytes that break no duty writes them. -/
theorem hostStore_writes {s : State} {bytes : List (Nat × Byte)}
    (h : ∀ c ∈ bytes, s.inFootprint c.1 = false ∧ c.1 < 2 ^ s.cfg.addrW ∧ s.inBlock c.1 = false
      ∧ writableAt s.memMap c.1 = true) :
    hostStore s bytes = .next { s with mem := Cells.writeAll s.mem bytes } := by
  have none_of : ∀ {f : Nat × Byte → Bool}, (∀ c ∈ bytes, f c = false) → bytes.any f = false :=
    fun hf => List.any_eq_false.2 fun c hc => by simp [hf c hc]
  rw [hostStore, none_of fun c hc => (h c hc).1,
    none_of fun c hc => decide_eq_false (Nat.not_le.2 (h c hc).2.1),
    none_of fun c hc => (h c hc).2.2.1, none_of fun c hc => by simp [(h c hc).2.2.2]]
  rfl

theorem hostTurn_memW8 {s : State} {a : Nat} {b : Byte} (hat : hostIsAt s (.memW8 a b)) :
    hostTurn s = hostStore s.nextStmt [(a, b)] := hostTurn_eq_runStmt hat

theorem hostTurn_memW32 {s : State} {a : Nat} {v : Word} (hat : hostIsAt s (.memW32 a v)) :
    hostTurn s = hostStore s.nextStmt (wordBytes a v) := hostTurn_eq_runStmt hat

/-- The bytes of a 32-bit store. -/
theorem mem_wordBytes {a : Nat} {v : Word} {c : Nat × Byte} :
    c ∈ wordBytes a v ↔ ∃ k < 4, c = (a + k, byteOfWord v k) := by
  simp only [wordBytes, List.mem_cons, List.not_mem_nil, or_false]
  constructor
  · rintro (h | h | h | h)
    · exact ⟨0, by decide, h⟩
    · exact ⟨1, by decide, h⟩
    · exact ⟨2, by decide, h⟩
    · exact ⟨3, by decide, h⟩
  · rintro ⟨k, hk, rfl⟩
    interval_cases k <;> simp

/-- Settles O38: a byte of a running footprint is judged before anything else; a byte that breaks no duty is
written alone. -/
theorem hostStoreOutsideFootprints : Obligations.HostStoreOutsideFootprints := by
  refine ⟨fun s a b hat => ⟨fun hin => ?race, fun hout hexists hblock hmap => ?store⟩,
    fun s a v hat hin => ?raceWord⟩
  case race =>
    rw [hostTurn_memW8 hat]
    exact hostStore_race (List.mem_singleton_self _) ((s.inFootprint_iff a).2 hin)
  case store =>
    refine ⟨_, (hostTurn_memW8 hat).trans (hostStore_writes fun c hc => ?_),
      Cells.read_write_same s.mem a b, fun a' ha => Cells.read_write_other s.mem b ha, rfl⟩
    obtain rfl := List.mem_singleton.1 hc
    exact ⟨State.inFootprint_eq_false hout, hexists, hblock, hmap⟩
  case raceWord =>
    obtain ⟨k, hk, hin⟩ := hin
    rw [hostTurn_memW32 hat]
    exact hostStore_race (mem_wordBytes.2 ⟨k, hk, rfl⟩) ((s.inFootprint_iff (a + k)).2 hin)

theorem wordOfBytes_toNat (b0 b1 b2 b3 : Byte) : (wordOfBytes b0 b1 b2 b3).toNat
    = b0.toNat + 2 ^ 8 * b1.toNat + 2 ^ 16 * b2.toNat + 2 ^ 24 * b3.toNat := by
  simp only [wordOfBytes, append_toNat]
  omega

theorem pix_eq_readF32 (lc : Latched) (m : Memory) (x y : Nat) :
    pix lc m x y = ⟨readF32 m (lc.srcAddr .p0 y (16 * x)), readF32 m (lc.srcAddr .p0 y (16 * x) + 4),
      readF32 m (lc.srcAddr .p0 y (16 * x) + 8), readF32 m (lc.srcAddr .p0 y (16 * x) + 12)⟩ := by
  simp only [pix, Latched.srcAddr_add]

/-- A stored word's bytes are read back at its four addresses. -/
theorem read_writeAll_wordBytes (m : Memory) (a : Nat) (v : Word) {k : Nat} (hk : k < 4) :
    Cells.read (Cells.writeAll m (wordBytes a v)) (a + k) = byteOfWord v k := by
  refine Cells.read_writeAll_named _ _ _ _ (mem_wordBytes.2 ⟨k, hk, rfl⟩) fun c hc e => ?_
  obtain ⟨j, hj, rfl⟩ := mem_wordBytes.1 hc
  obtain rfl : j = k := Nat.add_left_cancel e
  rfl

/-- Settles O41: the word is its bytes by weight, and a stored word is read back byte by byte. -/
theorem wordsAreLittleEndian : Obligations.WordsAreLittleEndian := by
  refine ⟨fun m a => wordOfBytes_toNat .., fun lc m x y f hf => hf ▸ pix_eq_readF32 lc m x y,
    fun s a v hat hduties hout => ⟨_, (hostTurn_memW32 hat).trans (hostStore_writes fun c hc => ?duties),
      ?word, fun a' ha => ?others, rfl⟩⟩
  case duties =>
    obtain ⟨k, hk, rfl⟩ := mem_wordBytes.1 hc
    exact ⟨State.inFootprint_eq_false (hout k hk), hduties k hk⟩
  case word =>
    have hread := fun k (hk : k < 4) => read_writeAll_wordBytes s.nextStmt.mem a v hk
    rw [readF32, hread 1 (by decide), hread 2 (by decide), hread 3 (by decide)]
    exact (congrArg (wordOfBytes · _ _ _) (hread 0 (by decide))).trans (wordOfBytes_byteOfWord v)
  case others =>
    refine Cells.read_writeAll_other _ _ _ fun c hc e => ?_
    obtain ⟨k, hk, rfl⟩ := mem_wordBytes.1 hc
    simp only at e
    omega

/-! ## Host loads (R78, R296) -/

theorem State.inDstFootprint_iff (s : State) (a : Nat) : s.inDstFootprint a = true ↔
    ∃ p ∈ s.pfcs, anyHas p.dstRanges a = true := by
  simp only [State.inDstFootprint, List.any_eq_true]

theorem State.inDstFootprint_eq_false {s : State} {a : Nat}
    (h : ∀ p ∈ s.pfcs, anyHas p.dstRanges a = false) : s.inDstFootprint a = false := by
  rw [← Bool.not_eq_true, State.inDstFootprint_iff]
  rintro ⟨p, hp, hin⟩
  simp [h p hp] at hin

theorem hostTurn_memR8 {s : State} {a name : Nat} (hat : hostIsAt s (.memR8 a name)) :
    hostTurn s = hostLoad s.nextStmt a name := hostTurn_eq_runStmt hat

theorem hostLoad_draw {s : State} {a : Nat} (h : s.inDstFootprint a = true ∨ s.unsees a = true)
    (name : Nat) : hostLoad s a name =
      .next { s.bind name ((Config.drawByte s.draws).zeroExtend 32) with draws := s.draws + 1 } :=
  if_pos (Bool.or_eq_true_iff.2 h)

theorem hostLoad_memory {s : State} {a : Nat} (hdst : s.inDstFootprint a = false)
    (hseen : s.unsees a = false) (hexists : a < 2 ^ s.cfg.addrW) (hblock : s.inBlock a = false)
    (hmap : readableAt s.memMap a = true) (name : Nat) :
    hostLoad s a name = .next (s.bind name ((Cells.read s.mem a).zeroExtend 32)) := by
  simp [hostLoad, hdst, hseen, hexists, hblock, hmap]

/-- The value a byte is bound as. -/
theorem read_bind_byte (s : State) (name : Nat) (b : Byte) :
    (Cells.read (s.bind name (b.zeroExtend 32)).host.vars name).toNat = b.toNat := by
  rw [State.bind_host, Cells.read_write_same]
  exact BitVec.toNat_setWidth_of_le (by decide)

/-- Settles O39: the byte is a draw, or it breaks no duty and is the memory value. -/
theorem hostLoadOfDestination : Obligations.HostLoadOfDestination := by
  intro s a name hat hduties
  rw [hostTurn_memR8 hat, ← or_assoc, ← s.inDstFootprint_iff a] at *
  have hother := fun (v : Word) m (hm : m ≠ name) => Cells.read_write_other s.host.vars v hm
  by_cases hdraw : s.inDstFootprint a = true ∨ s.unsees a = true
  · refine ⟨_, hostLoad_draw (s := s.nextStmt) hdraw name, rfl, rfl, rfl, rfl, hother _,
      fun _ => ⟨read_bind_byte _ _ _, rfl⟩, fun hdst hseen => ?_⟩
    simp [State.inDstFootprint_eq_false hdst, hseen] at hdraw
  · obtain ⟨hexists, hblock, hmap⟩ := hduties.resolve_left hdraw
    obtain ⟨hdst, hseen⟩ := not_or.1 hdraw
    exact ⟨_, hostLoad_memory (s := s.nextStmt) (Bool.eq_false_of_not_eq_true hdst)
      (Bool.eq_false_of_not_eq_true hseen) hexists hblock hmap name, rfl, rfl, rfl, rfl, hother _,
      fun h => absurd h hdraw, fun _ _ => ⟨read_bind_byte _ _ _, rfl⟩⟩

/-! ## The move of a step -/

/-- A step makes the move of the turn it takes, off the list. -/
theorem step_eq (s : State) : step s = takeTurn (turnTaken s) { s with turns := s.turns.tail } := by
  unfold step turnTaken
  split
  · rename_i h; rw [h]; rfl
  · rename_i h
    have hs : { s with turns := s.turns.tail } = s := by rw [h, List.tail_nil, ← h]
    rw [hs, h]
    rfl

/-- Settles O50: the turn is the list's first or the default, its move is `takeTurn`, and START and an
engine's move are `exec` of the decoded command. -/
theorem stepRunsDecodedCommand : Obligations.StepRunsDecodedCommand := by
  refine ⟨fun s u n rest run i ht hu hrun hi => ?engine,
    fun s u n rest v i ht hat hv hu hreset hidle hi => ?start, fun s nbits w i hi => ?fetch,
    fun s u n off v h4 hlt hat hreset => ⟨fun hu => ?write, fun ht hu => ?writeStep⟩,
    fun s s' n hs => ?moves, fun s => ⟨fun t rest ht => ?listed, fun ht => ?unlisted⟩⟩
  case engine =>
    rw [step, ht]
    exact engineTurn_busy hu hrun hi
  case start =>
    rw [step, ht]
    refine (hostTurn_wr32 (s := { s with turns := rest }) hat (by decide) hu hreset).trans ?_
    refine (regWrite_ctrl_start hv u.nextStmt).trans ?_
    exact (startWrite_idle (s := u.nextStmt) hidle hi).trans (exec_idle (s := u.nextStmt) hidle).symm
  case fetch =>
    have hop : decodeOp (BitVec.ofNat 32 (w % 2 ^ nbits)) = .ok i := by
      simp only [decodeTableWord, decodeBytes, wordOfBytes_byteOfWord] at hi
      cases hd : decodeOp (BitVec.ofNat 32 (w % 2 ^ nbits)) with
      | error e => simp [hd] at hi
      | ok j => simpa [hd] using hi
    exact engineTurn_busy (State.selectAt_here { s.withFetchWord nbits w with turns := s.turns }) rfl hop
  case write => exact hostTurn_wr32 hat (regOffsetOk_of_aligned h4 hlt) hu hreset
  case writeStep =>
    rw [step_eq, ht]
    exact hostTurn_wr32 (s := { s with turns := s.turns.tail }) hat (regOffsetOk_of_aligned h4 hlt) hu hreset
  case moves =>
    subst hs
    rw [step_eq]
    refine ⟨fun ht => ?_, fun ht => ?_, fun ht => ?_, fun ht => ?_, fun ht => ?_, fun ht => ?together⟩ <;>
      rw [ht]
    · rfl
    · rfl
    · rfl
    · rfl
    · rfl
    case together =>
      exact ⟨fun t h => by simp [takeTurn, h], fun f h => by simp [takeTurn, h],
        fun r h => by simp [takeTurn, h]⟩
  case listed => rw [turnTaken, ht]; rfl
  case unlisted =>
    refine ⟨fun n h => ?_, fun h => ?_⟩ <;> simp [turnTaken, ht, State.defaultTurn, h]

/-! ## What the host has seen (R296, R76) -/

theorem engineTurn_unsees {n : Nat} {s t : State} (h : engineTurn n s = .next t) {a : Nat}
    (ha : s.unsees a = true) : t.unsees a = true := by
  unfold engineTurn at h
  split at h
  · cases h; exact ha
  next u hu =>
    have hua : u.unsees a = true := by
      rwa [State.unsees, (Readdressed.of_selectAt hu).unseen]
    split at h
    · cases h; exact hua
    next run hrun =>
      split at h
      · exact (exec_busy_unsees hrun h a).2 (.inr hua)
      · cases h

theorem busErrorTurn_unseen {n : Nat} {s t : State} (h : busErrorTurn n s = .next t) :
    t.unseen = s.unseen := by
  unfold busErrorTurn at h
  split at h
  · cases h; rfl
  next u hu =>
    split at h <;> cases h
    exact (Readdressed.of_selectAt hu).unseen

theorem resetOnTurn_unseen {n : Nat} {s t : State} (h : resetOnTurn n s = .next t) :
    t.unseen = s.unseen := by
  rcases resetOnTurn_next h with ⟨rfl, -⟩ | ⟨u, hu, rfl⟩
  · rfl
  · exact (Readdressed.of_selectAt hu).unseen

theorem resetOffTurn_unseen {n : Nat} {s t : State} (h : resetOffTurn n s = .next t) :
    t.unseen = s.unseen := by
  unfold resetOffTurn at h
  split at h
  · cases h; rfl
  next u hu =>
    cases h
    refine Eq.trans ?_ (Readdressed.of_selectAt hu).unseen
    split <;> rfl

/-- A host move after which a byte is no longer unseen was a read that shows an end. -/
theorem hostTurn_sees {s t : State} (h : hostTurn s = .next t) {a : Nat} (ha : s.unsees a = true)
    (hseen : t.unsees a = false) : ∃ p ∈ s.pfcs, ∃ name,
      (hostIsAt s (.rd32 p.regBase 0x010 name) ∧ p.engine = none)
      ∨ (hostIsAt s (.rd32 p.regBase 0x014 name) ∧ p.irqStatus.getLsbD 0 = true) := by
  rcases hostTurn_unseen h with hsame | ⟨n, off, name, u, hat, hu, -, hshows, -⟩
  · rw [State.unsees, hsame] at hseen
    exact absurd (ha.symm.trans hseen) (by decide)
  · obtain ⟨-, -, rfl, hpos⟩ := State.select_spec hu
    refine ⟨u.pfc, List.mem_of_getElem? hpos, name, ?_⟩
    rcases (Pfc.showsEnd_iff _ _).1 hshows with ⟨rfl, hidle⟩ | ⟨rfl, hdone⟩
    · exact .inl ⟨hat, hidle⟩
    · exact .inr ⟨hat, hdone⟩

/-- Of the moves only the host's makes an unseen byte seen. -/
theorem takeTurn_sees {tn : Turn} {s t : State} {a : Nat} (h : takeTurn tn s = .next t)
    (ha : s.unsees a = true) (hseen : t.unsees a = false) :
    (tn = .host ∨ ∃ n, tn = .together n)
    ∧ ∃ p ∈ s.pfcs, ∃ name,
      (hostIsAt s (.rd32 p.regBase 0x010 name) ∧ p.engine = none)
      ∨ (hostIsAt s (.rd32 p.regBase 0x014 name) ∧ p.irqStatus.getLsbD 0 = true) := by
  have stays : t.unsees a = true → False := fun hstill => by simp [hseen] at hstill
  have same : t.unseen = s.unseen → False := fun e => stays (by rwa [State.unsees, e])
  cases tn with
  | host => exact ⟨.inl rfl, hostTurn_sees h ha hseen⟩
  | engine n => exact (stays (engineTurn_unsees h ha)).elim
  | together n =>
    rw [takeTurn] at h
    split at h
    next u hu =>
      refine ⟨.inr ⟨n, rfl⟩, hostTurn_sees hu ha (Bool.eq_false_of_not_eq_true fun hstill => ?_)⟩
      exact stays (engineTurn_unsees h hstill)
    · cases h
    · cases h
  | busError n => exact (same (busErrorTurn_unseen h)).elim
  | resetOn n => exact (same (resetOnTurn_unseen h)).elim
  | resetOff n => exact (same (resetOffTurn_unseen h)).elim

/-- A read that shows the end of the PFC it addresses leaves its bytes seen, and no others. -/
theorem hostTurn_rd32_showsEnd {s u : State} {n off name : Nat} (hat : hostIsAt s (.rd32 n off name))
    (hu : s.select n = some u) (hreset : u.pfc.inReset = false) (hshows : u.pfc.showsEnd off = true) :
    ∃ t, hostTurn s = .next t
      ∧ t = { u with
          host := { u.nextStmt.host with vars := Cells.write u.host.vars name (u.pfc.readAt u.cfg off) }
          unseen := s.unseen.filter fun c => c.regBase != n } := by
  have hoff : regOffsetOk off = true := by
    rcases (Pfc.showsEnd_iff _ _).1 hshows with ⟨rfl, -⟩ | ⟨rfl, -⟩ <;> decide
  obtain ⟨-, -, rfl, -⟩ := State.select_spec hu
  refine ⟨_, hostTurn_rd32 hat hoff hu hreset, ?_⟩
  rw [State.see, State.bind_pfc, State.nextStmt_pfc, if_pos hshows, ← (Readdressed.of_select hu).unseen]
  rfl

/-- A command's destination byte, once its PFC's completions are seen, is no longer unseen. -/
theorem not_unseen_of_filtered {l : List Unseen} {base a : Nat} {rs : List Range}
    (ha : anyHas rs a = true) :
    ((unseenAfter l base rs).filter fun c => c.regBase != base).any (fun c => c.addr == a) = false := by
  refine List.any_eq_false.2 fun c hc => ?_
  obtain ⟨hc, hbase⟩ := List.mem_filter.1 hc
  simp only [bne_iff_ne] at hbase
  simp only [beq_iff_eq]
  rintro rfl
  rcases (mem_unseenAfter ..).1 hc with ⟨-, hb⟩ | ⟨hout, -⟩
  · exact hbase hb
  · exact absurd (ha.symm.trans hout) (by decide)

/-- Settles O40: the end lists the destination bytes as unseen, a read of STATUS or IRQ_STATUS takes its PFC's
off the list, and nothing else does. -/
theorem completionIsSeenByReading : Obligations.CompletionIsSeenByReading := by
  refine ⟨fun s i run a m hruns ha => ?_, fun s u n off name hat hu hreset hshows => ?reads,
    fun s t a h => takeTurn_sees (s := { s with turns := s.turns.tail }) (step_eq s ▸ h)⟩
  case reads =>
    obtain ⟨t, ht, rfl⟩ := hostTurn_rd32_showsEnd hat hu hreset ((Pfc.showsEnd_iff ..).2 hshows)
    exact ⟨_, ht, fun c => by simp [List.mem_filter]⟩
  obtain ⟨t, ht, -⟩ := hruns.exec_completes
  have hnext := exec_busy_next hruns.1 ht
  refine ⟨fun hat => ?atOnce, fun off name hoff hreset hat hat' hothers hexists hblock hmap => ?afterRead⟩
  case atOnce =>
    have hunseen : t.unsees a = true := (exec_busy_unsees hruns.1 ht a).2 (.inl ha)
    have hat' : hostIsAt t (.memR8 a m) := by rw [hnext]; exact hat
    exact ⟨t, _, ht, (hostTurn_memR8 hat').trans (hostLoad_draw (s := t.nextStmt) (.inr hunseen) m),
      read_bind_byte _ _ _⟩
  case afterRead =>
    have hshows : t.pfc.showsEnd off = true := by
      rw [hnext, Pfc.showsEnd_iff]
      exact hoff.imp (fun h => ⟨h, rfl⟩) fun h => ⟨h, by simp [irqDone]⟩
    have hbase : t.pfc.regBase = s.pfc.regBase := by rw [hnext]; rfl
    have hread : hostIsAt t (.rd32 t.pfc.regBase off name) := by rw [hbase, hnext]; exact hat
    have hreset' : t.pfc.inReset = false := by rw [hnext]; exact hreset
    obtain ⟨u, hu, hu'⟩ := hostTurn_rd32_showsEnd hread t.select_here hreset' hshows
    have hload : hostIsAt u (.memR8 a m) := by rw [hu', hnext]; exact hat'
    have hdst : u.inDstFootprint a = false := by
      refine State.inDstFootprint_eq_false fun p hp => ?_
      have hp' : p ∈ s.others ∨ p = s.pfc.complete := by
        rw [hu', hnext] at hp
        simpa [State.pfcs, State.others, or_assoc, or_comm, or_left_comm] using hp
      rcases hp' with hp' | rfl
      · exact hothers p hp'
      · rw [Pfc.dstRanges_of_idle rfl]; rfl
    have hseen : u.unsees a = false := by
      rw [hu', State.unsees, hbase, hnext]
      exact not_unseen_of_filtered ha
    have hblock' : u.inBlock a = false := by
      rw [← hblock, hu', hnext]
      simp [State.inBlock, State.pfcs, Pfc.block]
    have hexists' : a < 2 ^ u.cfg.addrW := by rw [hu', hnext]; exact hexists
    have hmap' : readableAt u.memMap a = true := by rw [hu', hnext]; exact hmap
    refine ⟨t, u, _, ht, hu, (hostTurn_memR8 hload).trans
      (hostLoad_memory (s := u.nextStmt) hdst hseen hexists' hblock' hmap' m), ?_⟩
    rw [read_bind_byte, State.nextStmt_mem, hu']

end Sys2Proof.Machine
end

section
/-! PROOF. R24, R25, R28, R33, R42 (10_state.md), R281 (60_exceptions.md), R302 (70_reset_and_hazards.md): what
every step keeps, on the platform and on each PFC. -/

namespace Sys2Proof.Machine

/-! ## A sticky interrupt bit (R28) -/

theorem Pfc.clearIrq_getLsbD (p : Pfc) (v : Word) (b : Nat) :
    (p.clearIrq v).irqStatus.getLsbD b = (p.irqStatus.getLsbD b && !v.getLsbD b) := by
  by_cases hb : b < 3
  · simp [hb]
  · rw [BitVec.getLsbD_of_ge _ _ (by omega), BitVec.getLsbD_of_ge _ _ (by omega), Bool.false_and]

/-- A host statement that clears an IRQ_STATUS bit is a write of 1 to it. -/
theorem HostEffect.clears {cfg : Params} {off : Nat} {v : Word} {p q : Pfc} {b : Nat}
    (h : HostEffect cfg off v p q) (hp : p.irqStatus.getLsbD b = true)
    (hq : q.irqStatus.getLsbD b = false) : off = 0x014 ∧ v.getLsbD b = true := by
  have kept : ¬ q.irqStatus.getLsbD b = true := by simp [hq]
  rcases h with ⟨-, ⟨r, rfl, -, rfl⟩ | ⟨-, -, ⟨-, rfl⟩ | ⟨-, ⟨e, rfl⟩ | ⟨lc, tr, m, rfl⟩⟩⟩⟩
  · cases r with
    | irqStatus =>
      rw [Pfc.writeReg, Pfc.clearIrq_getLsbD, hp, Bool.true_and, Bool.not_eq_false'] at hq
      exact ⟨rfl, hq⟩
    | _ => exact absurd hp kept
  · exact absurd (by simp [BitVec.getLsbD_or, hp]) kept
  · exact absurd (by simp [BitVec.getLsbD_or, hp]) kept
  · exact absurd hp kept

/-- Settles O45: of the host's part of the step only the write of 1 clears the bit, and after it only a
reset. -/
theorem interruptBitsAreSticky : Obligations.InterruptBitsAreSticky := by
  intro s t k b p q hstep hp hq hset hclear
  obtain ⟨m, hhost, hafter⟩ := step_pfcs hstep hp hq
  cases hm : m.irqStatus.getLsbD b with
  | false =>
    rcases hhost with rfl | ⟨hturn, off, v, hat, heffect⟩
    · exact absurd (hset.symm.trans hm) (by decide)
    · obtain ⟨rfl, hv⟩ := heffect.clears hset hm
      exact .inl ⟨hturn, v, hat, hv⟩
  | true =>
    rcases hafter with rfl | ⟨-, -, rfl⟩ | ⟨hturn, -⟩ | ⟨hturn, -⟩
    · exact absurd (hm.symm.trans hclear) (by decide)
    · simp [BitVec.getLsbD_or, hm] at hclear
    · exact .inr (.inl hturn)
    · exact .inr (.inr hturn)

/-! ## The constants of the platform (R24, R42) -/

/-- `t` has the parameters, the memory map and the register blocks of `s`. -/
def sameConstants (s t : State) : Prop :=
  t.cfg = s.cfg ∧ t.memMap = s.memMap ∧ t.pfcs.map Pfc.regBase = s.pfcs.map Pfc.regBase

theorem sameConstants.trans {s t u : State} (h : sameConstants s t) (h' : sameConstants t u) :
    sameConstants s u := by
  obtain ⟨hcfg, hmap, hbase⟩ := h
  obtain ⟨hcfg', hmap', hbase'⟩ := h'
  exact ⟨hcfg'.trans hcfg, hmap'.trans hmap, hbase'.trans hbase⟩

theorem Quiet.sameConstants {s t : State} (h : Quiet s t) : sameConstants s t := by
  obtain ⟨hcfg, hpfcs, -, hmap, -⟩ := h
  exact ⟨hcfg, hmap, by rw [hpfcs]⟩

/-- A move that replaces the addressed PFC by one with its REG_BASE keeps the constants. -/
theorem Readdressed.sameConstants {s u t : State} (h : Readdressed s u) (hcfg : t.cfg = u.cfg)
    (hmap : t.memMap = u.memMap) (hb : t.before = u.before) (ha : t.after = u.after)
    (hbase : t.pfc.regBase = u.pfc.regBase) : sameConstants s t := by
  refine ⟨hcfg.trans h.cfg, hmap.trans h.memMap, ?_⟩
  rw [← h.pfcs, State.pfcs, State.pfcs, hb, ha]
  simp [hbase]

/-- A START that answers a next state changes the addressed PFC only, and not its REG_BASE. -/
theorem startWrite_setPfc {s t : State} (h : startWrite s = .next t) :
    t = s.setPfc t.pfc ∧ t.pfc.regBase = s.pfc.regBase := by
  rcases startWrite_next h with ⟨-, rfl⟩ | ⟨-, e, -, rfl⟩ | ⟨-, i, -, hstart⟩
  · exact ⟨rfl, rfl⟩
  · exact ⟨rfl, rfl⟩
  · rcases startCommand_next hstart with ⟨e, -, rfl⟩ | ⟨tr, -, -, rfl⟩ <;> exact ⟨rfl, rfl⟩

theorem hostTurn_sameConstants {s t : State} (h : hostTurn s = .next t) : sameConstants s t := by
  rcases hostTurn_next h with hq | ⟨n, u, r, v, -, hu, -, -, rfl⟩ | ⟨n, u, v, -, -, hu, -, hw⟩ |
    ⟨bytes, -, rfl⟩
  · exact hq.sameConstants
  · exact (Readdressed.of_select hu).sameConstants rfl rfl rfl rfl (Pfc.writeReg_regBase ..)
  · obtain ⟨ht, hbase⟩ := startWrite_setPfc hw
    exact (Readdressed.of_select hu).sameConstants (by rw [ht]; rfl) (by rw [ht]; rfl) (by rw [ht]; rfl)
      (by rw [ht]; rfl) hbase
  · exact ⟨rfl, rfl, rfl⟩

theorem engineTurn_sameConstants {n : Nat} {s t : State} (h : engineTurn n s = .next t) :
    sameConstants s t := by
  rcases engineTurn_next h with hq | ⟨u, run, i, hu, hrun, -, hx⟩
  · exact hq.sameConstants
  · have ht := exec_busy_next hrun hx
    exact (Readdressed.of_selectAt hu).sameConstants (by rw [ht]) (by rw [ht]) (by rw [ht]) (by rw [ht])
      (by rw [ht]; rfl)

theorem resetOnTurn_sameConstants {n : Nat} {s t : State} (h : resetOnTurn n s = .next t) :
    sameConstants s t := by
  rcases resetOnTurn_next h with ⟨rfl, -⟩ | ⟨u, hu, rfl⟩
  · exact ⟨rfl, rfl, rfl⟩
  · exact (Readdressed.of_selectAt hu).sameConstants rfl rfl rfl rfl rfl

theorem resetOffTurn_sameConstants {n : Nat} {s t : State} (h : resetOffTurn n s = .next t) :
    sameConstants s t := by
  rcases resetOffTurn_next h with hq | ⟨u, hu, -, rfl⟩
  · exact hq.sameConstants
  · exact (Readdressed.of_selectAt hu).sameConstants rfl rfl rfl rfl rfl

theorem step_sameConstants {s t : State} (h : step s = .next t) : sameConstants s t :=
  step_induction (P := sameConstants s) (fun _ _ h => h)
    (fun _ _ h ht => h.trans (hostTurn_sameConstants ht))
    (fun _ _ _ h ht => h.trans (engineTurn_sameConstants ht))
    (fun _ _ _ h ht => h.trans (busErrorTurn_next ht).sameConstants)
    (fun _ _ _ h ht => h.trans (resetOnTurn_sameConstants ht))
    (fun _ _ _ h ht => h.trans (resetOffTurn_sameConstants ht)) ⟨rfl, rfl, rfl⟩ h

/-- Whether blocks are apart shows in the REG_BASEs alone. -/
theorem State.ownBlocks_iff (s : State) : s.ownBlocks ↔
    (s.pfcs.map Pfc.regBase).Pairwise fun a b => blocksApart a b = true := by
  rw [List.pairwise_map]
  exact Iff.rfl

/-- Settles O51: every agent's move keeps the constants, and blocks that are apart are a fact about them. -/
theorem stepKeepsConstants : Obligations.StepKeepsConstants := by
  intro s t hstep
  obtain ⟨hcfg, hmap, hbase⟩ := step_sameConstants hstep
  refine ⟨hcfg, hmap, hbase, fun hown => ?_⟩
  rw [State.ownBlocks_iff, hbase]
  exact s.ownBlocks_iff.1 hown

/-! ## Each PFC by its REG_BASE (R281) -/

theorem State.select_eq_none_iff (s : State) (base : Nat) :
    s.select base = none ↔ ∀ p ∈ s.pfcs, p.regBase ≠ base := by
  rw [← Option.not_isSome_iff_eq_none, State.select_isSome]
  simp

/-- Settles O52: a REG_BASE stands at one position, and a step changes a PFC by what its host statement or its
turn does to it. -/
theorem pfcsShareNoState : Obligations.PfcsShareNoState := by
  refine ⟨fun s k p hown hp => ⟨?selects, fun j q hq => State.position_of_regBase hown hp hq⟩,
    State.select_eq_none_iff, fun s t k p hstep hp hchanged => ?changes⟩
  case selects =>
    obtain ⟨u, hu, hpfc, -⟩ := State.select_of_ownBlocks hown hp
    obtain ⟨hframe, hpfcs, -⟩ := State.select_spec hu
    exact ⟨u, hu, hpfc, hpfcs, hframe⟩
  case changes =>
    obtain ⟨-, -, hbase⟩ := step_sameConstants hstep
    have hlength : t.pfcs.length = s.pfcs.length := by simpa using congrArg List.length hbase
    have hk : k < t.pfcs.length := hlength ▸ (List.getElem?_eq_some_iff.1 hp).1
    obtain ⟨m, hhost, hafter⟩ := step_pfcs hstep hp (List.getElem?_eq_getElem hk)
    rcases hhost with rfl | ⟨hturn, off, v, hat, -⟩
    · left
      rcases hafter with hsame | ⟨hturn, -⟩ | ⟨hturn, -⟩ | ⟨hturn, -⟩
      · exact absurd (by rw [List.getElem?_eq_getElem hk, hsame]) hchanged
      · exact List.mem_append_left [Turn.resetOn k, .resetOff k] hturn
      · rw [turnTaken, hturn]; simp
      · rw [turnTaken, hturn]; simp
    · exact .inr ⟨hturn, off, v, hat⟩

/-! ## The default turn (R302) -/

/-- Settles O53: with no turn listed the first busy engine moves, and a coherent command decodes. -/
theorem acceptedCommandEnds : Obligations.AcceptedCommandEnds := by
  intro s n p run hcoherent hturns hbusy hp hrun hmapped
  obtain ⟨-, -, ⟨i, hi, -⟩, -⟩ := hcoherent.1 p (List.mem_of_getElem? hp) run hrun
  obtain ⟨hop, -⟩ := decodeOn_ok hi
  obtain ⟨u, hu⟩ := State.selectAt_isSome (List.getElem?_eq_some_iff.1 hp).1
  have hsel := Readdressed.of_selectAt hu
  obtain ⟨-, -, hhere, hpos⟩ := State.selectAt_spec hu
  obtain rfl : p = u.pfc := Option.some.inj (hp.symm.trans hpos)
  have hmapped' := hmapped i hop
  rw [← hsel.memMap] at hmapped'
  obtain ⟨t, ht⟩ := finishCommand_mapped (src := i.src) (out := kernelFor i) hmapped'
  have hexec : exec i u = .next t := (exec_busy hrun).trans ht
  have hnext := exec_busy_next hrun hexec
  refine ⟨t, ?step, ?pfc, by rw [hnext]; exact hsel.host⟩
  case step =>
    rw [step, hturns]
    simp only [State.defaultTurn, hbusy]
    exact (engineTurn_busy hu hrun hop).trans hexec
  case pfc =>
    have hhere' : t.here = n := by rw [hnext]; exact hhere
    rw [← hhere', State.getElem?_here, hnext]
    rfl

/-! ## The canonical form of memory and names -/

theorem Quiet.canonical {s t : State} (hq : Quiet s t) (h : s.canonical) : t.canonical := by
  obtain ⟨-, -, hmem, -, -, -, hvars⟩ := hq
  exact ⟨hmem ▸ h.1, hvars h.2⟩

theorem Readdressed.canonical {s t : State} (hr : Readdressed s t) (h : s.canonical) : t.canonical :=
  (Quiet.of_readdressed hr).canonical h

theorem hostTurn_canonical {s t : State} (h : s.canonical) (ht : hostTurn s = .next t) :
    t.canonical := by
  rcases hostTurn_next ht with hq | ⟨n, u, r, v, -, hu, -, -, rfl⟩ | ⟨n, u, v, -, -, hu, -, hw⟩ |
    ⟨bytes, -, rfl⟩
  · exact hq.canonical h
  · exact (Readdressed.of_select hu).canonical h
  · rw [(startWrite_setPfc hw).1]
    exact (Readdressed.of_select hu).canonical h
  · exact ⟨Cells.writeAll_wf bytes h.1, h.2⟩

theorem engineTurn_canonical {n : Nat} {s t : State} (h : s.canonical)
    (ht : engineTurn n s = .next t) : t.canonical := by
  rcases engineTurn_next ht with hq | ⟨u, run, i, hu, hrun, -, hx⟩
  · exact hq.canonical h
  · obtain ⟨hmem, hvars⟩ := (Readdressed.of_selectAt hu).canonical h
    rw [exec_busy hrun] at hx
    obtain ⟨-, rfl⟩ := finishCommand_next hx
    exact ⟨drawOver_wf _ (Cells.writeAll_wf _ hmem) _, hvars⟩

theorem resetOnTurn_canonical {n : Nat} {s t : State} (h : s.canonical)
    (ht : resetOnTurn n s = .next t) : t.canonical := by
  rcases resetOnTurn_next ht with ⟨rfl, -⟩ | ⟨u, hu, rfl⟩
  · exact h
  · obtain ⟨hmem, hvars⟩ := (Readdressed.of_selectAt hu).canonical h
    exact ⟨drawOver_wf _ hmem _, hvars⟩

theorem resetOffTurn_canonical {n : Nat} {s t : State} (h : s.canonical)
    (ht : resetOffTurn n s = .next t) : t.canonical := by
  rcases resetOffTurn_next ht with hq | ⟨u, hu, -, rfl⟩
  · exact hq.canonical h
  · exact (Readdressed.of_selectAt hu).canonical h

/-- Settles O55: memory and the names change by writes and draws only. -/
theorem stepKeepsCanonicalMemory : Obligations.StepKeepsCanonicalMemory :=
  fun _ _ hs hstep => step_induction (P := State.canonical) (fun _ _ h => h)
    (fun _ _ => hostTurn_canonical) (fun _ _ _ => engineTurn_canonical)
    (fun _ _ _ h ht => (busErrorTurn_next ht).canonical h) (fun _ _ _ => resetOnTurn_canonical)
    (fun _ _ _ => resetOffTurn_canonical) hs hstep

/-! ## The hard-wired bits (R25, R27, R33, R35) -/

theorem selectTier_exists (cfg : Params) (src dst : Format) (lc : Latched) :
    tierExists cfg (selectTier cfg src dst lc) := by
  unfold selectTier
  split_ifs with h256 h128
  · simp only [Bool.and_eq_true] at h256
    exact h256.1.1
  · simp only [Bool.and_eq_true] at h128
    exact h128.1.1
  · trivial

theorem and_and_self {w : Nat} (x y : BitVec w) : x &&& y &&& y = x &&& y := by
  rw [BitVec.and_assoc, BitVec.and_self]

/-- Every register write keeps the hard-wired bits: the masked registers are masked at the write. -/
theorem Pfc.hardwired.writeReg {cfg : Params} {p : Pfc} (h : p.hardwired cfg) (r : Reg) (v : Word) :
    (p.writeReg cfg r v).hardwired cfg := by
  obtain ⟨hallow, hsrc, hdst, htier⟩ := h
  cases r with
  | tierAllow => exact ⟨and_and_self _ _, hsrc, hdst, htier⟩
  | srcAddrLo n | srcAddrHi n | srcStride n =>
    refine ⟨hallow, fun m => ?_, hdst, htier⟩
    simp only [Pfc.writeReg, Three.get_set]
    split
    · simp [hsrc, and_and_self]
    · exact hsrc m
  | dstAddrLo n | dstAddrHi n | dstStride n =>
    refine ⟨hallow, hsrc, fun m => ?_, htier⟩
    simp only [Pfc.writeReg, Three.get_set]
    split
    · simp [hdst, and_and_self]
    · exact hdst m
  | _ => exact ⟨hallow, hsrc, hdst, htier⟩

theorem Pfc.hardwired.accept {cfg : Params} {p : Pfc} (h : p.hardwired cfg) {tr : Tier}
    (htr : tierExists cfg tr) (lc : Latched) (image : Memory) :
    (p.accept lc tr image).hardwired cfg := by
  obtain ⟨hallow, hsrc, hdst, -⟩ := h
  exact ⟨hallow, hsrc, hdst, htr⟩

theorem Pfc.reset_hardwired (cfg : Params) (base : Nat) : (Pfc.reset cfg base).hardwired cfg := by
  refine ⟨BitVec.and_self, fun n => ?_, fun n => ?_, trivial⟩ <;> cases n <;> exact BitVec.zero_and

theorem State.hardwired.of_quiet {s t : State} (h : s.hardwired) (hq : Quiet s t) : t.hardwired := by
  obtain ⟨hcfg, hpfcs, -⟩ := hq
  simpa only [State.hardwired, hcfg, hpfcs] using h

theorem State.hardwired.pfc {s : State} (h : s.hardwired) : s.pfc.hardwired s.cfg :=
  h s.pfc (List.mem_append_right _ List.mem_cons_self)

/-- The addressed PFC may be replaced by one that keeps its hard-wired bits. -/
theorem State.hardwired.replace {s t : State} (h : s.hardwired) (hcfg : t.cfg = s.cfg)
    (hb : t.before = s.before) (ha : t.after = s.after) (hpfc : t.pfc.hardwired s.cfg) :
    t.hardwired := by
  intro q hq
  rw [State.pfcs, hb, ha, List.mem_append, List.mem_cons] at hq
  rw [hcfg]
  rcases hq with hq | rfl | hq
  · exact h q (List.mem_append_left _ hq)
  · exact hpfc
  · exact h q (List.mem_append_right _ (List.mem_cons_of_mem _ hq))

theorem State.hardwired.startWrite {s t : State} (h : s.hardwired) (ht : startWrite s = .next t) :
    t.hardwired := by
  rcases startWrite_next ht with ⟨-, rfl⟩ | ⟨-, e, -, rfl⟩ | ⟨-, i, -, hstart⟩
  · exact h.replace rfl rfl rfl h.pfc
  · exact h.replace rfl rfl rfl h.pfc
  · rcases startCommand_next hstart with ⟨e, -, rfl⟩ | ⟨tr, ⟨-, rfl, -⟩, -, rfl⟩
    · exact h.replace rfl rfl rfl h.pfc
    · exact h.replace rfl rfl rfl (h.pfc.accept (selectTier_exists ..) _ _)

theorem State.hardwired.hostTurn {s t : State} (h : s.hardwired) (ht : hostTurn s = .next t) :
    t.hardwired := by
  rcases hostTurn_next ht with hq | ⟨n, u, r, v, -, hu, -, -, rfl⟩ | ⟨n, u, v, -, -, hu, -, hw⟩ |
    ⟨bytes, -, rfl⟩
  · exact h.of_quiet hq
  · have hu' := h.of_quiet (.of_select hu)
    exact hu'.replace rfl rfl rfl (hu'.pfc.writeReg r v)
  · exact (h.of_quiet ((Quiet.of_select hu).trans (.nextStmt u))).startWrite hw
  · exact h

theorem State.hardwired.engineTurn {n : Nat} {s t : State} (h : s.hardwired)
    (ht : engineTurn n s = .next t) : t.hardwired := by
  rcases engineTurn_next ht with hq | ⟨u, run, i, hu, hrun, -, hx⟩
  · exact h.of_quiet hq
  · have hu' := h.of_quiet (.of_selectAt hu)
    rw [exec_busy_next hrun hx]
    exact hu'.replace rfl rfl rfl hu'.pfc

theorem State.hardwired.resetOnTurn {n : Nat} {s t : State} (h : s.hardwired)
    (ht : resetOnTurn n s = .next t) : t.hardwired := by
  rcases resetOnTurn_next ht with ⟨rfl, -⟩ | ⟨u, hu, rfl⟩
  · exact h
  · exact (h.of_quiet (.of_selectAt hu)).replace rfl rfl rfl (Pfc.reset_hardwired u.cfg u.pfc.regBase)

theorem State.hardwired.resetOffTurn {n : Nat} {s t : State} (h : s.hardwired)
    (ht : resetOffTurn n s = .next t) : t.hardwired := by
  rcases resetOffTurn_next ht with hq | ⟨u, hu, -, rfl⟩
  · exact h.of_quiet hq
  · exact (h.of_quiet (.of_selectAt hu)).replace rfl rfl rfl (Pfc.reset_hardwired u.cfg u.pfc.regBase)

/-- Settles O56: the masked registers change by writes and reset only, and STATUS.TIER by an acceptance, to a
tier that SelectTier gives, and by reset. -/
theorem stepKeepsHardwiredBits : Obligations.StepKeepsHardwiredBits :=
  fun _ _ hs hstep => step_induction (P := State.hardwired) (fun _ _ h => h)
    (fun _ _ => State.hardwired.hostTurn) (fun _ _ _ => State.hardwired.engineTurn)
    (fun _ _ _ h ht => h.of_quiet (busErrorTurn_next ht)) (fun _ _ _ => State.hardwired.resetOnTurn)
    (fun _ _ _ => State.hardwired.resetOffTurn) hs hstep

/-! ## The state after reset -/

theorem Params.legalise_legal (p : Params) : p.legalise.legal = true := by
  have hoffsets : (if p.pk444.legal then p.pk444 else ⟨2, 1, 0⟩ : PixelOffsets).legal = true := by
    split
    next h => exact h
    next => decide
  have hlow : 32 ≤ p.legalise.addrW := le_max_left ..
  have hhigh : p.legalise.addrW ≤ 64 := max_le (by decide) (min_le_right ..)
  simp only [Params.legal, Bool.and_eq_true, decide_eq_true_eq]
  exact ⟨⟨hlow, hhigh⟩, hoffsets⟩

/-- Settles O54: every PFC is idle with its reset values, and the kept bases are apart. -/
theorem resetMeetsInvariants : Obligations.ResetMeetsInvariants := by
  have hreset : ∀ p ∈ State.reset.pfcs, ∃ base, Pfc.reset Config.params base = p := fun p hp => by
    rw [State.reset_pfcs, List.mem_map] at hp
    exact hp.imp fun _ h => h.2
  refine ⟨⟨⟨.nil, nofun⟩, .nil, nofun⟩, fun p hp => ?hardwired, ⟨fun p hp => ?coherent, ?apart⟩,
    Params.legalise_legal _, ?blocks⟩
  case hardwired =>
    obtain ⟨base, rfl⟩ := hreset p hp
    exact Pfc.reset_hardwired _ _
  case coherent =>
    obtain ⟨base, rfl⟩ := hreset p hp
    exact Pfc.coherent_of_idle rfl _ _
  case apart =>
    refine List.pairwise_of_forall_mem_list fun p hp q _ => ?_
    obtain ⟨base, rfl⟩ := hreset p hp
    exact racing_of_idle rfl q
  case blocks =>
    obtain ⟨hfirst, hothers⟩ := separateBases_apart [Config.firstRegBase] Config.rawRegBases
    have hbases : State.reset.pfcs.map Pfc.regBase = Config.firstRegBase :: Config.otherRegBases := by
      simp [State.reset_pfcs, Function.comp_def]
    rw [State.ownBlocks_iff, hbases]
    exact .cons (fun b hb => hfirst b hb _ List.mem_cons_self) hothers

end Sys2Proof.Machine
end

section
/-! PROOF. R22 to R36 (10_state.md): the register map, and what its registers read as; and R222
(46_rgb_to_yuv.md): CVT_RGBF_P444. -/

namespace Sys2Proof.Machine

/-! ## The register map (R22) -/

/-- An offset is reserved when no register has it. -/
theorem regAt_eq_none_iff (off : Nat) : regAt off = none ↔ ∀ r ∈ allRegs, regOffset r ≠ off := by
  simp [regAt, List.find?_eq_none]

/-- Settles O4: the map's offsets are listed, and only CTRL does anything but store. -/
theorem reservedAndReadOnlyOffsets : Obligations.ReservedAndReadOnlyOffsets := by
  refine ⟨fun off hlt h4 => ?map, fun cfg p off h => ?reads, fun s off v h => ?writes,
    fun s v => ⟨?id, ?caps, ?status, fun hv => ?ctrl⟩⟩
  case map =>
    rw [regAt_eq_none_iff]
    simp only [allRegs, List.forall_mem_cons, regOffset, ixNat]
    constructor
    · intro h; omega
    · intro h
      refine ⟨?_, ?_, ?_, ?_, ?_, ?_, ?_, ?_, ?_, ?_, ?_, ?_, ?_, ?_, ?_, ?_, ?_, ?_, ?_, ?_, ?_, ?_, ?_, ?_,
        ?_, ?_, ?_, ?_, List.forall_mem_nil _⟩ <;> omega
  case reads => simp [Pfc.readAt, h]
  case writes => simp [regWrite, h]
  case id => exact regWrite_regOffset (r := .id) (by decide) s v
  case caps => exact regWrite_regOffset (r := .caps) (by decide) s v
  case status => exact regWrite_regOffset (r := .status) (by decide) s v
  case ctrl =>
    change regWrite s (regOffset .ctrl) v = _
    simp only [regWrite, regAt_regOffset, if_true, hv, Bool.false_eq_true, if_false]

/-! ## What the registers read as (R23 to R36, R260) -/

theorem threeBits_toNat (b : BitVec 3) : b.toNat
    = (b.getLsbD 0).toNat + 2 * (b.getLsbD 1).toNat + 4 * (b.getLsbD 2).toNat := by
  revert b
  decide

theorem ofBool_toNat (b : Bool) : (BitVec.ofBool b).toNat = b.toNat := by cases b <;> rfl

/-- STATUS by its fields: the reserved bits between them are 0 (R27). -/
theorem Pfc.statusWord_toNat (p : Pfc) : p.statusWord.toNat
    = 16 * (errCode p.err).toNat + 2 * (tierCode p.tier).toNat + p.engine.isSome.toNat := by
  simp only [Pfc.statusWord, append_toNat, ofBool_toNat, BitVec.ofNat_eq_ofNat, BitVec.toNat_ofNat,
    Pfc.busy]
  omega

theorem errCode_toNat {e : ErrCode} {k : Nat}
    (h : (e, k) ∈ [(.none, 0), (.op, 1), (.fmt, 2), (.unsup, 3), (.dim, 4), (.stride, 5), (.range, 6),
      (.bus, 7)]) : (errCode e).toNat = k := by
  cases e <;> simp at h <;> subst h <;> rfl

theorem tierCode_toNat {t : Tier} {k : Nat} (h : (t, k) ∈ [(.scalar, 0), (.v128, 1), (.v256, 2)]) :
    (tierCode t).toNat = k := by
  cases t <;> simp at h <;> subst h <;> rfl

theorem zeroExtend_toNat {w : Nat} (h : w ≤ 32) (x : BitVec w) : (x.zeroExtend 32).toNat = x.toNat :=
  BitVec.toNat_setWidth_of_le h

/-- Settles O58: each offset is its register's, which reads its field. -/
theorem registersReadAtTheirOffsets : Obligations.RegistersReadAtTheirOffsets := by
  intro cfg p
  have reads : ∀ r, p.readAt cfg (regOffset r) = p.readReg cfg r := p.readAt_regOffset cfg
  refine ⟨reads .id, ?caps, ?allow, reads .ctrl, fun err tier herr htier => ?status, ?irqStatus, ?irqEnable,
    reads .op, ?width, ?height, fun n k hn => ?planes⟩
  case caps => exact (congrArg _ (reads .caps)).trans (capsWord_toNat cfg)
  case allow =>
    rw [← twoBits_toNat]
    exact (congrArg _ (reads .tierAllow)).trans (zeroExtend_toNat (by decide) _)
  case status =>
    rw [← errCode_toNat herr, ← tierCode_toNat htier]
    exact (congrArg _ (reads .status)).trans p.statusWord_toNat
  case irqStatus =>
    rw [← threeBits_toNat]
    exact (congrArg _ (reads .irqStatus)).trans (zeroExtend_toNat (by decide) _)
  case irqEnable =>
    rw [← threeBits_toNat]
    exact (congrArg _ (reads .irqEnable)).trans (zeroExtend_toNat (by decide) _)
  case width => exact (congrArg _ (reads .width)).trans (zeroExtend_toNat (by decide) _)
  case height => exact (congrArg _ (reads .height)).trans (zeroExtend_toNat (by decide) _)
  case planes =>
    obtain rfl : k = ixNat n := by cases n <;> simpa [ixNat] using hn
    exact ⟨reads (.srcAddrLo n), reads (.srcAddrHi n), reads (.srcStride n), reads (.dstAddrLo n),
      reads (.dstAddrHi n), reads (.dstStride n)⟩

/-- Settles O47: eight words of four bytes, decoded. -/
theorem writtenWordsDecode : Obligations.WrittenWordsDecode := by
  unfold Obligations.WrittenWordsDecode
  decide

/-! ## CVT_RGBF_P444 (R222) -/

/-- Settles O28: the kernel flips the samples of the pixels, one component a plane. -/
theorem rgbfPlanarCompletes : Obligations.RgbfPlanarCompletes := by
  intro sel s run hruns
  obtain ⟨t, ht, hdone, hplanes⟩ := hruns.exec_planarFlipped rfl
    (c := fun n y x => pixSample s.cfg run.lc run.image sel (componentOf n) x y) fun _ _ _ => rfl
  exact ⟨t, ht, hdone, fun y hy x hx =>
    ⟨hplanes y hy x hx .p0, hplanes y hy x hx .p1, hplanes y hy x hx .p2⟩⟩

end Sys2Proof.Machine
end

section
/-! PROOF. R145, R146 (40_control.md), R67, R69, R70 (20_memory.md), R240 to R247 (47_dispatch.md): the operand
checks, footprints as sets of bytes, and the tier a command runs on. -/

namespace Sys2Proof.Machine

/-! ## The operand checks of the ten commands (R145, R146) -/

/-- Both 4:2:0 tests say the same of a command: its destination is not planar 4:4:4. -/
theorem needsEven_of_instr (i : Instr) : needsEvenWidth i.src i.dst = decide (i.dst ≠ .p444)
    ∧ needsEvenHeight i.src i.dst = decide (i.dst ≠ .p444) := by
  cases i <;> exact ⟨rfl, rfl⟩

/-- Settles O13: the check, with the two subsampling tests as one. -/
theorem dimensionCheck : Obligations.DimensionCheck := by
  intro i lc
  obtain ⟨hwidth, hheight⟩ := needsEven_of_instr i
  simp only [dimsOk, hwidth, hheight, Bool.and_eq_true, Bool.not_eq_true', Bool.or_eq_false_iff,
    Bool.and_eq_false_iff, decide_eq_false_iff_not, beq_eq_false_iff_ne, bne_eq_false_iff_eq]
  constructor
  · rintro ⟨⟨⟨hw, hh⟩, hweven⟩, hheven⟩
    exact ⟨Nat.pos_of_ne_zero hw, Nat.pos_of_ne_zero hh, fun hdst =>
      ⟨hweven.resolve_left (not_not_intro hdst), hheven.resolve_left (not_not_intro hdst)⟩⟩
  · rintro ⟨hw, hh, heven⟩
    refine ⟨⟨⟨Nat.ne_of_gt hw, Nat.ne_of_gt hh⟩, ?_⟩, ?_⟩ <;> by_cases hdst : i.dst = .p444
    · exact .inl (not_not_intro hdst)
    · exact .inr (heven hdst).1
    · exact .inl (not_not_intro hdst)
    · exact .inr (heven hdst).2

theorem srcStrides_iff (i : Instr) (lc : Latched) : stridesCover lc.src (lc.srcPlanes i.src) = true ↔
    (i.src = .p420 → lc.w ≤ lc.src.p0.s ∧ lc.w / 2 ≤ lc.src.p1.s ∧ lc.w / 2 ≤ lc.src.p2.s)
    ∧ (i.src = .pk444 → 4 * lc.w ≤ lc.src.p0.s)
    ∧ (i.src = .pk422c ∨ i.src = .pk422l → 2 * lc.w ≤ lc.src.p0.s)
    ∧ (i.src = .rgbf → 16 * lc.w ≤ lc.src.p0.s) := by
  cases i <;> simp [stridesCover_iff, Latched.srcPlanes, formatPlanes, Instr.src, Three.get]

theorem dstStrides_iff (i : Instr) (lc : Latched) : stridesCover lc.dst (lc.dstPlanes i.dst) = true ↔
    lc.w ≤ lc.dst.p0.s ∧ lc.w ≤ lc.dst.p1.s ∧ (i.dst = .p444 → lc.w ≤ lc.dst.p2.s) := by
  cases i <;> simp [stridesCover_iff, Latched.dstPlanes, formatPlanes, Instr.dst, Three.get]

/-- Settles O14: the planes are the table's rows, and the check is the source's and the destination's. -/
theorem strideCheck : Obligations.StrideCheck := by
  refine ⟨fun w h => ⟨rfl, rfl, rfl, rfl, rfl, rfl, rfl, rfl, rfl⟩, fun i lc => ?_⟩
  rw [stridesOk, Bool.and_eq_true, srcStrides_iff, dstStrides_iff]
  simp only [and_assoc]

/-! ## Footprints as sets of bytes (R65, R69, R70) -/

/-- The bytes of a surface's footprints: those of each row up to the plane's rounded used bytes. -/
theorem footprints_has_iff {ps : Three LatchedPlane} {gs : List PlaneGeom} {lane a : Nat} :
    anyHas (footprints ps gs lane).flatten a = true ↔ ∃ g ∈ gs, ∃ r < g.rows,
      ∃ k < roundup g.used lane, a = (ps.get g.ix).byteAddr r k := by
  constructor
  · intro h
    obtain ⟨q, hq, hqa⟩ := (anyHas_iff _ _).1 h
    obtain ⟨rs, hrs, hq⟩ := List.mem_flatten.1 hq
    obtain ⟨g, hg, rfl⟩ := List.mem_map.1 hrs
    obtain ⟨r, hr, rfl⟩ := List.mem_map.1 hq
    rw [Range.has_iff] at hqa
    simp only [LatchedPlane.byteAddr] at hqa ⊢
    exact ⟨g, hg, r, List.mem_range.1 hr, a - (ps.get g.ix).byteAddr r 0,
      by simp only [LatchedPlane.byteAddr]; omega, by simp only [LatchedPlane.byteAddr]; omega⟩
  · rintro ⟨g, hg, r, hr, k, hk, rfl⟩
    exact footprints_has hg hr hk

/-- Every lane width divides 32, so 32 rounds up furthest. -/
theorem roundup_laneWidth_le (a : Nat) (t : Tier) : roundup a (laneWidth t) ≤ roundup a 32 := by
  have hdvd : laneWidth t ∣ 32 := by cases t <;> decide
  refine roundup_le_of_dvd (laneWidth_pos t) (le_roundup a 32 (by decide)) ?_
  exact Nat.mod_eq_zero_of_dvd (hdvd.trans (Nat.dvd_mul_left ..))

/-- A surface in range has no footprint byte at or past 2^ADDR_W: the last row ends furthest. -/
theorem lt_of_planesInRange {addrW : Nat} {ps : Three LatchedPlane} {gs : List PlaneGeom}
    (h : planesInRange addrW ps gs = true) {t : Tier} {a : Nat}
    (ha : anyHas (footprints ps gs (laneWidth t)).flatten a = true) : a < 2 ^ addrW := by
  obtain ⟨g, hg, r, hr, k, hk, rfl⟩ := footprints_has_iff.1 ha
  have hend := (planesInRange_iff ..).1 h g hg
  have hrow : r * (ps.get g.ix).s ≤ (g.rows - 1) * (ps.get g.ix).s := Nat.mul_le_mul_right _ (by omega)
  have hlane := roundup_laneWidth_le g.used t
  rw [LatchedPlane.byteAddr]
  omega

/-- Settles O15: the check bounds every plane's end, and so every byte of its rows. -/
theorem acceptedFootprintsExist : Obligations.AcceptedFootprintsExist := by
  intro addrW src dst lc
  rw [rangeOk, Bool.and_eq_true]
  refine ⟨and_congr (planesInRange_iff ..) (planesInRange_iff ..), ?_⟩
  rintro ⟨hsrc, hdst⟩ t a ha
  rw [anyHas_append, Bool.or_eq_true] at ha
  exact ha.elim (lt_of_planesInRange hsrc) (lt_of_planesInRange hdst)

theorem Range.overlaps_iff (r q : Range) :
    r.overlaps q = true ↔ ∃ a, r.has a = true ∧ q.has a = true := by
  refine ⟨fun h => ⟨max r.start q.start, ?_⟩, fun ⟨a, hr, hq⟩ => Range.overlaps_of_has hr hq⟩
  simp only [Range.overlaps, decide_eq_true_eq] at h
  rw [Range.has_iff, Range.has_iff]
  omega

/-- Lists of ranges overlap exactly when they share a byte. -/
theorem anyOverlap_iff (rs qs : List Range) :
    anyOverlap rs qs = true ↔ ∃ a, anyHas rs a = true ∧ anyHas qs a = true := by
  simp only [anyOverlap, List.any_eq_true, Range.overlaps_iff, anyHas_iff]
  constructor
  · rintro ⟨r, hr, q, hq, a, hra, hqa⟩; exact ⟨a, ⟨r, hr, hra⟩, q, hq, hqa⟩
  · rintro ⟨a, ⟨r, hr, hra⟩, q, hq, hqa⟩; exact ⟨r, hr, q, hq, a, hra, hqa⟩

/-- Two lists of a list overlap exactly when the lists at two positions share a byte. -/
theorem pairsOverlap_iff (l : List (List Range)) : pairsOverlap l = true ↔
    ∃ a j k, j < k ∧ anyHas (l.getD j []) a = true ∧ anyHas (l.getD k []) a = true := by
  induction l with
  | nil => simp [pairsOverlap, anyHas]
  | cons rs rest ih =>
    rw [pairsOverlap, Bool.or_eq_true, List.any_eq_true, ih]
    constructor
    · rintro (⟨qs, hqs, h⟩ | ⟨a, j, k, hjk, hj, hk⟩)
      · obtain ⟨a, hrs, hqa⟩ := (anyOverlap_iff _ _).1 h
        obtain ⟨k, hk, rfl⟩ := List.getElem_of_mem hqs
        exact ⟨a, 0, k + 1, by omega, hrs, by simpa [hk] using hqa⟩
      · exact ⟨a, j + 1, k + 1, by omega, hj, hk⟩
    · rintro ⟨a, j, k, hjk, hj, hk⟩
      obtain ⟨k, rfl⟩ : ∃ k', k = k' + 1 := ⟨k - 1, by omega⟩
      rw [List.getD_cons_succ] at hk
      cases j with
      | succ j => exact .inr ⟨a, j, k, by omega, hj, hk⟩
      | zero =>
        have hlt : k < rest.length := by
          by_contra hge
          rw [List.getD_eq_default _ _ (Nat.not_lt.1 hge)] at hk
          simp [anyHas] at hk
        rw [List.getD_eq_getElem _ _ hlt] at hk
        exact .inl ⟨rest[k], List.getElem_mem hlt, (anyOverlap_iff _ _).2 ⟨a, hj, hk⟩⟩

/-- Settles O19: both halves of the test are shared bytes. -/
theorem overlapIsSharedByte : Obligations.OverlapIsSharedByte := by
  intro lc src dst t
  rw [Latched.overlapping, Bool.or_eq_true, anyOverlap_iff, pairsOverlap_iff]
  exact exists_or.symm

/-! ## SelectTier (R240 to R247) -/

/-- What the checklist tests (R242). -/
theorem disqualified_iff (src dst : Format) (lc : Latched) (g lanes : Nat) :
    disqualified src dst lc g lanes = true ↔
      (∃ p ∈ lc.srcPlanes src, (lc.src.get p.ix).a % g ≠ 0 ∨ (lc.src.get p.ix).s % g ≠ 0)
      ∨ (∃ p ∈ lc.dstPlanes dst, (lc.dst.get p.ix).a % g ≠ 0 ∨ (lc.dst.get p.ix).s % g ≠ 0)
      ∨ lc.w % lanes ≠ 0
      ∨ (averagesChroma src dst = true ∧ lc.h % 2 ≠ 0) := by
  have misaligned : ∀ ps gs, (!alignedPlanes ps gs g) = true ↔
      ∃ p ∈ gs, (ps.get p.ix).a % g ≠ 0 ∨ (ps.get p.ix).s % g ≠ 0 := fun ps gs => by
    rw [Bool.not_eq_true', ← Bool.not_eq_true, alignedPlanes_iff]
    simp only [not_forall, not_and_or, exists_prop]
  simp only [disqualified, Bool.or_eq_true, Bool.and_eq_true, misaligned, bne_iff_ne, or_assoc]

theorem not_disqualified {src dst : Format} {lc : Latched} {g lanes : Nat}
    (h : disqualified src dst lc g lanes = false) :
    (∀ p ∈ lc.srcPlanes src, (lc.src.get p.ix).a % g = 0 ∧ (lc.src.get p.ix).s % g = 0)
    ∧ (∀ p ∈ lc.dstPlanes dst, (lc.dst.get p.ix).a % g = 0 ∧ (lc.dst.get p.ix).s % g = 0)
    ∧ lc.w % lanes = 0 := by
  rw [← Bool.not_eq_true, disqualified_iff] at h
  simp only [not_or, not_exists, not_and, not_not] at h
  obtain ⟨hsrc, hdst, hw, -⟩ := h
  exact ⟨hsrc, hdst, hw⟩

theorem selectTier_eq_v256_iff (cfg : Params) (src dst : Format) (lc : Latched) :
    selectTier cfg src dst lc = .v256 ↔ cfg.hasV256 = true ∧ lc.allow.getLsbD 1 = true
      ∧ disqualified src dst lc 32 32 = false := by
  have hguard : (cfg.hasV256 && allowV256 lc.allow && !disqualified src dst lc 32 32) = true ↔
      cfg.hasV256 = true ∧ lc.allow.getLsbD 1 = true ∧ disqualified src dst lc 32 32 = false := by
    simp only [allowV256, Bool.and_eq_true, Bool.not_eq_true', and_assoc]
  rw [← hguard]
  unfold selectTier
  split_ifs with h256 h128 <;> simp [h256]

theorem selectTier_eq_v128_iff (cfg : Params) (src dst : Format) (lc : Latched) :
    selectTier cfg src dst lc = .v128 ↔ selectTier cfg src dst lc ≠ .v256
      ∧ cfg.hasV128 = true ∧ lc.allow.getLsbD 0 = true ∧ disqualified src dst lc 16 16 = false := by
  have hguard : (cfg.hasV128 && allowV128 lc.allow && !disqualified src dst lc 16 16) = true ↔
      cfg.hasV128 = true ∧ lc.allow.getLsbD 0 = true ∧ disqualified src dst lc 16 16 = false := by
    simp only [allowV128, Bool.and_eq_true, Bool.not_eq_true', and_assoc]
  rw [← hguard]
  unfold selectTier
  split_ifs with h256 h128
  · simp
  · simp [h128]
  · simp [h128]

/-- There is no fourth tier. -/
theorem selectTier_eq_scalar {cfg : Params} {src dst : Format} {lc : Latched}
    (h256 : selectTier cfg src dst lc ≠ .v256) (h128 : selectTier cfg src dst lc ≠ .v128) :
    selectTier cfg src dst lc = .scalar := by
  cases h : selectTier cfg src dst lc with
  | scalar => rfl
  | v128 => exact absurd h h128
  | v256 => exact absurd h h256

/-- A selected tier's lane width divides the base and the stride of every used plane. -/
theorem selectTier_aligned (cfg : Params) (src dst : Format) (lc : Latched) :
    (∀ p ∈ lc.srcPlanes src, (lc.src.get p.ix).a % laneWidth (selectTier cfg src dst lc) = 0
      ∧ (lc.src.get p.ix).s % laneWidth (selectTier cfg src dst lc) = 0)
    ∧ (∀ p ∈ lc.dstPlanes dst, (lc.dst.get p.ix).a % laneWidth (selectTier cfg src dst lc) = 0
      ∧ (lc.dst.get p.ix).s % laneWidth (selectTier cfg src dst lc) = 0) := by
  cases h : selectTier cfg src dst lc with
  | scalar => exact ⟨fun _ _ => ⟨Nat.mod_one _, Nat.mod_one _⟩, fun _ _ => ⟨Nat.mod_one _, Nat.mod_one _⟩⟩
  | v128 =>
    obtain ⟨-, -, -, hok⟩ := (selectTier_eq_v128_iff ..).1 h
    obtain ⟨hsrc, hdst, -⟩ := not_disqualified hok
    exact ⟨hsrc, hdst⟩
  | v256 =>
    obtain ⟨-, -, hok⟩ := (selectTier_eq_v256_iff ..).1 h
    obtain ⟨hsrc, hdst, -⟩ := not_disqualified hok
    exact ⟨hsrc, hdst⟩

/-- Settles O21: each property is a fact the checklist tests of a selected vector tier. -/
theorem selectTierProperties : Obligations.SelectTierProperties := by
  intro cfg i lc
  have hwidth := selectTier_width cfg i.src i.dst lc
  obtain ⟨hsrc, hdst⟩ := selectTier_aligned cfg i.src i.dst lc
  refine ⟨fun _ h32 hsel => ?width, fun ⟨g, hg, h16⟩ => ?base, fun hplane => ?plane, fun h hsel => ?v256,
    fun h hsel => ?v128⟩
  case width =>
    rw [hsel] at hwidth
    exact h32 hwidth
  case base =>
    have halign := (hdst g hg).1
    refine selectTier_eq_scalar (fun hsel => ?_) fun hsel => ?_ <;> rw [hsel, laneWidth] at halign <;>
      omega
  case plane =>
    have hnot : selectTier cfg i.src i.dst lc ≠ .v256 := fun hsel => by
      rw [hsel] at hsrc hdst
      rcases hplane with ⟨g, hg, h | h⟩ | ⟨g, hg, h | h⟩
      · exact h.2 (hsrc g hg).1
      · exact h.2 (hsrc g hg).2
      · exact h.2 (hdst g hg).1
      · exact h.2 (hdst g hg).2
    by_cases h128 : selectTier cfg i.src i.dst lc = .v128
    · exact .inr h128
    · exact .inl (selectTier_eq_scalar hnot h128)
  case v256 =>
    obtain ⟨hcaps, hallow, -⟩ := (selectTier_eq_v256_iff ..).1 hsel
    rcases h with h | h
    · simp [hcaps] at h
    · exact absurd (hallow.symm.trans h) (by decide)
  case v128 =>
    obtain ⟨-, hcaps, hallow, -⟩ := (selectTier_eq_v128_iff ..).1 hsel
    rcases h with h | h
    · simp [hcaps] at h
    · exact absurd (hallow.symm.trans h) (by decide)

theorem averagesChroma_iff (i : Instr) :
    averagesChroma i.src i.dst = true ↔ i.src ≠ .p420 ∧ i.dst ≠ .p444 := by
  cases i <;> simp [averagesChroma, Instr.src, Instr.dst, is422, isRgbf, isInterleaved420, Format.code]

/-- Settles O22: each vector tier by its own guard, V256 first, and the checklist of a command. -/
theorem allowBitsAreIndependent : Obligations.AllowBitsAreIndependent := by
  refine ⟨fun cfg src dst lc => ?tiers, fun i lc g lanes => ?checklist⟩
  case checklist => simp only [disqualified_iff, averagesChroma_iff, and_assoc]
  case tiers =>
    have h256 := selectTier_eq_v256_iff cfg src dst lc
    have h128 := selectTier_eq_v128_iff cfg src dst lc
    have not256 : (lc.allow.getLsbD 1 = false ∨ disqualified src dst lc 32 32 = true) →
        selectTier cfg src dst lc ≠ .v256 := fun h hsel => by
      obtain ⟨-, hallow, hok⟩ := h256.1 hsel
      exact h.elim (fun h => absurd (hallow.symm.trans h) (by decide)) fun h => by simp [hok] at h
    have not128 : (lc.allow.getLsbD 0 = false ∨ disqualified src dst lc 16 16 = true) →
        selectTier cfg src dst lc ≠ .v128 := fun h hsel => by
      obtain ⟨-, -, hallow, hok⟩ := h128.1 hsel
      exact h.elim (fun h => absurd (hallow.symm.trans h) (by decide)) fun h => by simp [hok] at h
    refine ⟨h256, h128, fun caps256 caps128 hallow => ⟨fun hok => ?_, fun hno hok => ?_, fun hno hno' => ?_⟩,
      fun caps256 hallow => ⟨fun hok => ?_, fun hno => ?_⟩,
      fun caps128 hallow => ⟨fun hok => ?_, fun hno => ?_⟩, fun hallow => ?_, fun hsel => ?_, fun hsel => ?_⟩
    · exact h256.2 ⟨caps256, by rw [hallow]; rfl, hok⟩
    · exact h128.2 ⟨not256 (.inr hno), caps128, by rw [hallow]; rfl, hok⟩
    · exact selectTier_eq_scalar (not256 (.inr hno)) (not128 (.inr hno'))
    · exact h256.2 ⟨caps256, by rw [hallow]; rfl, hok⟩
    · exact selectTier_eq_scalar (not256 (.inr hno)) (not128 (.inl (by rw [hallow]; rfl)))
    · exact h128.2 ⟨not256 (.inl (by rw [hallow]; rfl)), caps128, by rw [hallow]; rfl, hok⟩
    · exact selectTier_eq_scalar (not256 (.inl (by rw [hallow]; rfl))) (not128 (.inr hno))
    · exact selectTier_eq_scalar (not256 (.inl (by rw [hallow]; rfl))) (not128 (.inl (by rw [hallow]; rfl)))
    · exact ⟨(h256.1 hsel).1, (h256.1 hsel).2.1⟩
    · exact ⟨(h128.1 hsel).2.1, (h128.1 hsel).2.2.1⟩

/-! ## Overshoot (R66, R67) -/

/-- A row's bytes that fit in the stride end within the plane. -/
theorem LatchedPlane.byteAddr_le {p : LatchedPlane} {rows r k : Nat} (hr : r < rows) (hk : k ≤ p.s) :
    p.byteAddr r k ≤ p.a + rows * p.s := by
  have hrows : (r + 1) * p.s ≤ rows * p.s := Nat.mul_le_mul_right _ hr
  rw [Nat.add_mul, Nat.one_mul] at hrows
  rw [LatchedPlane.byteAddr]
  omega

/-- A used source plane has a whole number of W bytes a row, or is a chroma plane of a P420 source. -/
theorem srcPlanes_used (i : Instr) {lc : Latched} {g : PlaneGeom} (hg : g ∈ lc.srcPlanes i.src) :
    lc.w ∣ g.used ∨ (i.src = .p420 ∧ g.ix ≠ .p0 ∧ g.used = lc.w / 2) := by
  cases i <;>
    simp only [Latched.srcPlanes, Instr.src, formatPlanes, List.mem_cons, List.not_mem_nil,
      or_false] at hg <;>
    rcases hg with rfl | rfl | rfl <;>
    simp [Instr.src]

/-- The overshoot of a row of W/2 bytes at a width the tier allows: none, or half a lane (R67). -/
theorem roundup_half {w : Nat} {t : Tier} (hw : w % laneWidth t = 0)
    (h : roundup (w / 2) (laneWidth t) ≠ w / 2) :
    (t = .v128 ∧ roundup (w / 2) 16 = w / 2 + 8 ∧ w % 32 = 16) ∨
      (t = .v256 ∧ roundup (w / 2) 32 = w / 2 + 16 ∧ w % 64 = 32) := by
  cases t with
  | scalar => exact absurd (roundup_of_dvd one_pos (Nat.mod_one _)) h
  | v128 =>
    have hodd : w / 2 % 16 ≠ 0 := fun h0 => h (roundup_of_dvd (by decide) h0)
    simp only [laneWidth] at hw
    exact .inl ⟨rfl, by unfold roundup; omega, by omega⟩
  | v256 =>
    have hodd : w / 2 % 32 ≠ 0 := fun h0 => h (roundup_of_dvd (by decide) h0)
    simp only [laneWidth] at hw
    exact .inr ⟨rfl, by unfold roundup; omega, by omega⟩

/-- Settles O23: of the tier an acceptable command runs on, the lane width divides W and every used stride, so
rows are rounded up within their stride, and only a row of W/2 bytes is rounded at all. -/
theorem overshootStaysInsideRows : Obligations.OvershootStaysInsideRows := by
  intro cfg i lc t hacc
  obtain ⟨-, -, hstrides, -⟩ := acceptable_checks hacc
  rw [stridesOk, Bool.and_eq_true] at hstrides
  have hwidth := selectTier_width cfg i.src i.dst lc
  obtain ⟨hsrc, hdst⟩ := selectTier_aligned cfg i.src i.dst lc
  rw [← hacc.2.1] at hwidth hsrc hdst
  have hlane := laneWidth_pos t
  have srcFits : ∀ g ∈ lc.srcPlanes i.src, roundup g.used (laneWidth t) ≤ (lc.src.get g.ix).s :=
    fun g hg => roundup_le_of_dvd hlane (used_le_stride hstrides.1 hg) (hsrc g hg).2
  have dstExact : ∀ g ∈ lc.dstPlanes i.dst, roundup g.used (laneWidth t) = g.used := fun g hg => by
    rw [dstPlanes_used i hg, roundup_of_dvd hlane hwidth]
  have dstFits : ∀ g ∈ lc.dstPlanes i.dst, g.used ≤ (lc.dst.get g.ix).s :=
    fun g hg => used_le_stride hstrides.2 hg
  refine ⟨srcFits, fun g hg => ⟨dstExact g hg, dstFits g hg⟩, dstWindows_eq_nil hacc,
    fun g hg r hr => LatchedPlane.byteAddr_le hr (srcFits g hg),
    fun g hg r hr => LatchedPlane.byteAddr_le hr ((dstExact g hg).trans_le (dstFits g hg)), fun g hg hwindow => ?window⟩
  case window =>
    rcases srcPlanes_used i hg with hwhole | ⟨hp420, hchroma, hhalf⟩
    · exact absurd (roundup_of_dvd hlane
        (Nat.mod_eq_zero_of_dvd ((Nat.dvd_of_mod_eq_zero hwidth).trans hwhole))) hwindow
    · rw [hhalf] at hwindow ⊢
      exact ⟨hp420, hchroma, roundup_half hwidth hwindow⟩

end Sys2Proof.Machine
end

section
/-! PROOF. R218, R219 and R226 (46_rgb_to_yuv.md): binary32 rounding against every binary32 value, the multiply,
the add and the default F2I. -/

namespace Sys2Proof.Machine

/-! ## Signed magnitudes -/

@[simp] theorem signed_zero (neg : Bool) : signed neg 0 = 0 := by cases neg <;> rfl

theorem signed_mul (neg : Bool) (m c : Nat) : signed neg (m * c) = signed neg m * c := by
  cases neg <;> simp [signed]

theorem natAbs_signed (neg : Bool) (m : Nat) : (signed neg m).natAbs = m := by
  cases neg <;> simp [signed]

theorem signed_natAbs (v : Int) : signed (decide (v < 0)) v.natAbs = v := by
  by_cases h : v < 0
  · rw [decide_eq_true h, signed, if_pos rfl, Int.ofNat_eq_natCast]; omega
  · rw [decide_eq_false h, signed, if_neg (by decide), Int.ofNat_eq_natCast]; omega

theorem natAbs_signed_sub_same_sign (neg : Bool) (m n : Nat) :
    (signed neg m - signed neg n).natAbs = ((m : Int) - n).natAbs := by
  cases neg with
  | true => simp only [signed, Int.ofNat_eq_natCast, if_true]; omega
  | false => simp [signed]

theorem natAbs_signed_sub_opposite_sign {neg neg' : Bool} (h : neg' ≠ neg) (m n : Nat) :
    (signed neg m - signed neg' n).natAbs = m + n := by
  obtain rfl : neg' = !neg := Bool.eq_not.2 h
  cases neg <;> simp [signed] <;> omega

/-! ## The nearest encoding -/

/-- Among strictly rising magnitudes the one between whose neighbours' midpoints `V` lies is nearest to `V`,
and where another is as near, `V` is one of the midpoints. -/
theorem nearest_of_midpoints {E : Nat → Nat} (hE : StrictMono E) {V B : Nat}
    (hup : 2 * V ≤ E B + E (B + 1)) (hdown : 0 < B → E (B - 1) + E B ≤ 2 * V)
    (htie : 2 * V = E B + E (B + 1) ∨ (0 < B ∧ E (B - 1) + E B = 2 * V) → B % 2 = 0) (b : Nat) :
    ((V : Int) - E B).natAbs ≤ ((V : Int) - E b).natAbs
    ∧ (((V : Int) - E B).natAbs = ((V : Int) - E b).natAbs → b ≠ B → B % 2 = 0) := by
  rcases Nat.lt_trichotomy b B with hlt | rfl | hgt
  · have hb : E b ≤ E (B - 1) := hE.monotone (by omega)
    have hB := hE hlt
    have hmid := hdown (by omega)
    exact ⟨by omega, fun h _ => htie (.inr ⟨by omega, by omega⟩)⟩
  · exact ⟨le_rfl, fun _ h => absurd rfl h⟩
  · have hb : E (B + 1) ≤ E b := hE.monotone hgt
    have hB := hE hgt
    exact ⟨by omega, fun h _ => htie (.inl (by omega))⟩

/-- Where `V` is itself one of the magnitudes it is that of the encoding between whose midpoints it lies. -/
theorem eq_of_midpoints {E : Nat → Nat} (hE : StrictMono E) {B b : Nat}
    (hup : 2 * E b ≤ E B + E (B + 1)) (hdown : 0 < B → E (B - 1) + E B ≤ 2 * E b) : B = b := by
  rcases Nat.lt_trichotomy b B with hlt | rfl | hgt
  · have hb : E b ≤ E (B - 1) := hE.monotone (by omega)
    have hB := hE hlt
    have hmid := hdown (by omega)
    omega
  · rfl
  · have hb : E (B + 1) ≤ E b := hE.monotone hgt
    have hB := hE hgt
    omega

/-- The magnitude of the encoding `b` in units of `2^-k`. -/
def magAt (k b : Nat) : Nat := encodedMag b * 2 ^ (k - 149)

theorem magAt_strictMono (k : Nat) : StrictMono (magAt k) := fun _ _ h =>
  Nat.mul_lt_mul_of_pos_right (encodedMag_lt h) (Nat.two_pow_pos _)

@[simp] theorem magAt_zero (k : Nat) : magAt k 0 = 0 := by simp [magAt, encodedMag]

/-- `roundBits_nearest` with the magnitudes named: the exact magnitude lies between the midpoints to the
neighbours, and on one only where the encoding is even. -/
theorem roundBits_midpoints {m : Nat} {e : Int} {k : Nat} (hk : 149 ≤ k) (he : 0 ≤ e + k) :
    2 * (m * 2 ^ (e + k).toNat) ≤ magAt k (roundBits m e) + magAt k (roundBits m e + 1)
    ∧ (0 < roundBits m e →
        magAt k (roundBits m e - 1) + magAt k (roundBits m e) ≤ 2 * (m * 2 ^ (e + k).toNat))
    ∧ (2 * (m * 2 ^ (e + k).toNat) = magAt k (roundBits m e) + magAt k (roundBits m e + 1) ∨
        (0 < roundBits m e ∧
          magAt k (roundBits m e - 1) + magAt k (roundBits m e) = 2 * (m * 2 ^ (e + k).toNat)) →
        roundBits m e % 2 = 0) := by
  simpa only [magAt, ← Nat.add_mul] using roundBits_nearest m e k hk he

/-- The midpoint above the greatest finite value is half a last place above it. -/
theorem magAt_overflow {k : Nat} (hk : 149 ≤ k) :
    magAt k 0x7F7FFFFF + magAt k 0x7F800000 = 2 * ((2 ^ 128 - 2 ^ 103) * 2 ^ k) := by
  have hunits : encodedMag 0x7F7FFFFF + encodedMag 0x7F800000
      = 2 * ((2 ^ 128 - 2 ^ 103) * 2 ^ 149) := by decide
  rw [magAt, magAt, ← Nat.add_mul, hunits, ← two_pow_mul (show 149 + (k - 149) = k by omega)]
  ring

/-- Rounding overflows exactly from half a last place above the greatest finite value on: the tie goes to the
even encoding, which is the infinity's. -/
theorem overflow_iff {m : Nat} {e : Int} {k : Nat} (hk : 149 ≤ k) (he : 0 ≤ e + k) :
    0x7F800000 ≤ roundBits m e ↔ (2 ^ 128 - 2 ^ 103) * 2 ^ k ≤ m * 2 ^ (e + k).toNat := by
  obtain ⟨hup, hdown, htie⟩ := roundBits_midpoints (m := m) hk he
  have hmax := magAt_overflow hk
  have hE := magAt_strictMono k
  generalize m * 2 ^ (e + k).toNat = V at *
  generalize (2 ^ 128 - 2 ^ 103) * 2 ^ k = T at *
  generalize roundBits m e = B at *
  constructor
  · intro hB
    have h1 : magAt k 0x7F7FFFFF ≤ magAt k (B - 1) := hE.monotone (by omega)
    have h2 : magAt k 0x7F800000 ≤ magAt k B := hE.monotone hB
    have h3 := hdown (by omega)
    omega
  · intro hV
    by_contra hB
    have h1 : magAt k B ≤ magAt k 0x7F7FFFFF := hE.monotone (by omega)
    have h2 : magAt k (B + 1) ≤ magAt k 0x7F800000 := hE.monotone (by omega)
    have heven := htie (.inl (by omega))
    have hmaxB : B = 0x7F7FFFFF := hE.injective (by omega)
    omega

/-! ## Encodings as signed magnitudes -/

/-- The value of a finite encoding in units of `2^-k`. -/
theorem scaled_of_unpack32 {w : Word} {neg : Bool} {m : Nat} {e : Int} (h : unpack32 w = .fin neg m e)
    {k : Nat} (hk : 149 ≤ k) :
    (unpack32 w).scaled k = signed neg (magAt k (w.toNat % 2 ^ 31)) := by
  obtain ⟨-, he, -, hmag⟩ := unpack32_fin h
  rw [h, Real32.scaled, magAt, ← hmag, Nat.mul_assoc,
    two_pow_mul (show (e + 149).toNat + (k - 149) = (e + k).toNat by omega)]

/-- An encoding is its sign over its magnitude. -/
theorem pack32_self (w : Word) : pack32 (w.getLsbD 31) (w.toNat % 2 ^ 31) = w := by
  have hw := w.isLt
  have hsign : w.getLsbD 31 = decide (2 ^ 31 ≤ w.toNat) := by
    rw [BitVec.getLsbD, Nat.testBit_eq_decide_div_mod_eq]
    exact decide_eq_decide.2 (by omega)
  apply BitVec.eq_of_toNat_eq
  rw [pack32, BitVec.toNat_ofNat, hsign]
  by_cases h : 2 ^ 31 ≤ w.toNat
  · rw [decide_eq_true h, if_pos rfl]; omega
  · rw [decide_eq_false h, if_neg (by decide)]; omega

/-- The last bit of a packed encoding. -/
theorem pack32_lastBit {neg : Bool} {b : Nat} (h : b % 2 = 0) : (pack32 neg b).getLsbD 0 = false := by
  have hpow : 2 ^ 31 % 2 = 0 := by decide
  rw [pack32, BitVec.getLsbD_ofNat, Nat.testBit_zero]
  split <;> simp <;> omega

/-- Rounding is to nearest, ties to even, against every binary32 value. -/
theorem round32_roundsTo (neg : Bool) (m : Nat) {e : Int} {k : Nat} (hk : 149 ≤ k) (he : 0 ≤ e + k) :
    roundsTo k (signed neg (m * 2 ^ (e + k).toNat)) (round32 neg m e) := by
  rw [roundsTo, natAbs_signed, round32]
  by_cases hover : 0x7F800000 ≤ roundBits m e
  · have hV := (overflow_iff hk he).1 hover
    rw [if_pos hover, if_pos hV]
    have hpos : 0 < m * 2 ^ (e + k).toNat :=
      lt_of_lt_of_le (Nat.mul_pos (by decide) (Nat.two_pow_pos k)) hV
    cases neg with
    | true => rw [if_pos (by simp only [signed, if_true, Int.ofNat_eq_natCast]; omega)]; rfl
    | false => rw [if_neg (by simp [signed])]; rfl
  · rw [if_neg hover, if_neg fun h => hover ((overflow_iff hk he).2 h)]
    obtain ⟨hup, hdown, htie⟩ := roundBits_midpoints (m := m) hk he
    obtain ⟨⟨m', e', hfin⟩, hbits⟩ := unpack32_pack32 neg (Nat.not_le.1 hover)
    refine ⟨⟨neg, m', e', hfin⟩, fun w neg' n f hw => ?_⟩
    rw [scaled_of_unpack32 hfin hk, hbits, scaled_of_unpack32 hw hk]
    have nearest := nearest_of_midpoints (magAt_strictMono k) hup hdown htie
    by_cases hsign : neg' = neg
    · obtain ⟨hle, heven⟩ := nearest (w.toNat % 2 ^ 31)
      rw [hsign, natAbs_signed_sub_same_sign, natAbs_signed_sub_same_sign]
      exact ⟨hle, fun heq hne => pack32_lastBit (heven heq fun hb => hne (by rw [hb]))⟩
    · obtain ⟨hle, heven⟩ := nearest 0
      rw [magAt_zero] at hle heven
      rw [natAbs_signed_sub_same_sign, natAbs_signed_sub_opposite_sign hsign]
      refine ⟨by omega, fun heq _ => pack32_lastBit ?_⟩
      by_cases hB : 0 = roundBits m e
      · rw [← hB]
      · exact heven (by omega) hB

/-- A magnitude that an encoding has is rounded to that encoding. -/
theorem round32_exact {neg : Bool} {m : Nat} {e : Int} {k b : Nat} (hk : 149 ≤ k) (he : 0 ≤ e + k)
    (hb : b < 0x7F800000) (h : m * 2 ^ (e + k).toNat = magAt k b) : round32 neg m e = pack32 neg b := by
  obtain ⟨hup, hdown, -⟩ := roundBits_midpoints (m := m) hk he
  rw [h] at hup hdown
  have hbits := eq_of_midpoints (magAt_strictMono k) hup hdown
  rw [round32, hbits, if_neg (Nat.not_le.2 hb)]

/-- A finite value is what its magnitude rounds to, in whatever way the magnitude is written. -/
theorem round32_eq_self {w : Word} {neg : Bool} {m n : Nat} {e f : Int} {k : Nat} (hk : 149 ≤ k)
    (hf : 0 ≤ f + k) (hw : unpack32 w = .fin neg m e)
    (h : n * 2 ^ (f + k).toNat = m * 2 ^ (e + k).toNat) : round32 neg n f = w := by
  obtain ⟨rfl, he, hlt, hmag⟩ := unpack32_fin hw
  rw [round32_exact hk hf hlt, pack32_self]
  rw [h, magAt, ← hmag, Nat.mul_assoc,
    two_pow_mul (show (e + 149).toNat + (k - 149) = (e + k).toNat by omega)]

/-- An encoding of an infinity is that infinity's. -/
theorem eq_inf32_of_unpack32 {w : Word} {neg : Bool} (h : unpack32 w = .inf neg) : w = inf32 neg := by
  have hw := w.isLt
  rw [← pack32_self w]
  simp only [unpack32, BitVec.extractLsb'_toNat, Nat.shiftRight_eq_div_pow, Nat.pow_zero,
    Nat.div_one] at h
  split_ifs at h with h1 h2
  cases h
  rw [inf32]
  congr 1
  omega

/-! ## The multiply (R218) -/

@[simp] theorem isNaN32_nan32 : isNaN32 nan32 = true := by decide

theorem fmul_nan_left {a : Word} (h : isNaN32 a = true) (b : Word) : fmul a b = nan32 := by
  rw [isNaN32_iff] at h
  simp only [fmul, h]

theorem fmul_nan_right {b : Word} (h : isNaN32 b = true) (a : Word) : fmul a b = nan32 := by
  rw [isNaN32_iff] at h
  cases ha : unpack32 a <;> simp only [fmul, ha, h]

theorem fmul_inf_inf {a b : Word} {s t : Bool} (ha : unpack32 a = .inf s) (hb : unpack32 b = .inf t) :
    fmul a b = inf32 (s != t) := by
  simp only [fmul, ha, hb]

/-- An infinity times a finite value, in either order. -/
theorem fmul_inf_fin {a b : Word} {s t : Bool} {n : Nat} {f : Int} (ha : unpack32 a = .inf s)
    (hb : unpack32 b = .fin t n f) : fmul a b = (if n = 0 then nan32 else inf32 (s != t))
      ∧ fmul b a = if n = 0 then nan32 else inf32 (s != t) := by
  simp only [fmul, ha, hb, bne_comm, and_self]

/-- Settles O59: the exact product is rounded once, and the other products are the IEEE-754 ones. -/
theorem multiplyRoundsToNearestEven : Obligations.MultiplyRoundsToNearestEven := by
  refine ⟨fun a b s t m n e f ha hb => ?finite, fun a b s t ha hb => ?infinite,
    fun a b s t n f ha hb => ?mixed, fun a b h => ?nan⟩
  case finite =>
    obtain ⟨-, he, -⟩ := unpack32_fin ha
    obtain ⟨-, hf, -⟩ := unpack32_fin hb
    have hround := round32_roundsTo (s != t) (m * n) (e := e + f) (k := 298) (by decide)
      (by push_cast; omega)
    rw [Nat.cast_ofNat] at hround
    rw [fmul_fin ha hb]
    exact ⟨hround, round32_sign ..⟩
  case infinite => rw [fmul_inf_inf ha hb, unpack32_inf32]
  case mixed =>
    obtain ⟨hab, hba⟩ := fmul_inf_fin ha hb
    rw [hab, hba]
    exact ⟨fun h => by simp [h], fun h => by simp [h]⟩
  case nan => rw [fmul_nan_left h, fmul_nan_right h]; exact ⟨isNaN32_nan32, isNaN32_nan32⟩

/-! ## The add (R218) -/

/-- The sum of two finite values, in units of the lower of their last places. -/
def alignedSum (s t : Bool) (m n : Nat) (e f : Int) : Int :=
  signed s (m * 2 ^ (e - min e f).toNat) + signed t (n * 2 ^ (f - min e f).toNat)

theorem fadd_fin {a b : Word} {s t : Bool} {m n : Nat} {e f : Int} (ha : unpack32 a = .fin s m e)
    (hb : unpack32 b = .fin t n f) : fadd a b =
      if alignedSum s t m n e f = 0 then pack32 (s && t) 0
      else round32 (decide (alignedSum s t m n e f < 0)) (alignedSum s t m n e f).natAbs (min e f) := by
  unfold fadd
  rw [ha, hb]
  rfl

/-- The aligned sum is the exact sum. -/
theorem alignedSum_mul {s t : Bool} {m n : Nat} {e f : Int} (he : -149 ≤ e) (hf : -149 ≤ f) :
    alignedSum s t m n e f * 2 ^ (min e f + 149).toNat
      = signed s (m * 2 ^ (e + 149).toNat) + signed t (n * 2 ^ (f + 149).toNat) := by
  have hm := two_pow_mul (show (e - min e f).toNat + (min e f + 149).toNat = (e + 149).toNat by omega)
  have hn := two_pow_mul (show (f - min e f).toNat + (min e f + 149).toNat = (f + 149).toNat by omega)
  rw [alignedSum, ← hm, ← hn, ← Nat.mul_assoc, ← Nat.mul_assoc, signed_mul _ (m * _), signed_mul _ (n * _),
    Int.add_mul]
  push_cast
  rfl

theorem fadd_nan_left {a : Word} (h : isNaN32 a = true) (b : Word) : fadd a b = nan32 := by
  rw [isNaN32_iff] at h
  simp only [fadd, h]

theorem fadd_nan_right {b : Word} (h : isNaN32 b = true) (a : Word) : fadd a b = nan32 := by
  rw [isNaN32_iff] at h
  cases ha : unpack32 a <;> simp only [fadd, ha, h]

theorem fadd_inf_inf {a b : Word} {s t : Bool} (ha : unpack32 a = .inf s) (hb : unpack32 b = .inf t) :
    fadd a b = if s = t then inf32 s else nan32 := by
  simp only [fadd, ha, hb]

/-- An infinity plus a finite value, in either order. -/
theorem fadd_inf_fin {a b : Word} {s t : Bool} {n : Nat} {f : Int} (ha : unpack32 a = .inf s)
    (hb : unpack32 b = .fin t n f) : fadd a b = inf32 s ∧ fadd b a = inf32 s := by
  simp only [fadd, ha, hb, and_self]

theorem pack32_zero (neg : Bool) : pack32 neg 0 = if neg then 0x80000000 else 0x00000000 := by
  cases neg <;> rfl

/-- Settles O60: the exact sum is the aligned one, which is rounded once unless it is 0; the other sums are the
IEEE-754 ones. -/
theorem addRoundsToNearestEven : Obligations.AddRoundsToNearestEven := by
  refine ⟨fun a b s t m n e f v ha hb hv => ?finite, fun a b s t ha hb => ?infinite,
    fun a b s t n f ha hb => ?mixed, fun a b h => ?nan⟩
  case finite =>
    obtain ⟨-, he, -⟩ := unpack32_fin ha
    obtain ⟨-, hf, -⟩ := unpack32_fin hb
    rw [hv, ← alignedSum_mul he hf, fadd_fin ha hb]
    generalize alignedSum s t m n e f = sum
    have hpos : (2 : Int) ^ (min e f + 149).toNat ≠ 0 := by positivity
    split
    next h0 =>
      rw [h0, Int.zero_mul]
      refine ⟨?_, fun _ => pack32_zero _⟩
      simpa using round32_roundsTo (s && t) 0 (e := 0) (k := 149) le_rfl (by decide)
    next h0 =>
      refine ⟨?_, fun hzero => absurd hzero (mul_ne_zero h0 hpos)⟩
      have hround := round32_roundsTo (decide (sum < 0)) sum.natAbs (e := min e f) (k := 149) le_rfl
        (by push_cast; omega)
      rw [signed_mul, signed_natAbs] at hround
      exact_mod_cast hround
  case infinite =>
    rw [fadd_inf_inf ha hb]
    exact ⟨fun h => by simp [h], fun h => by simp [h]⟩
  case mixed =>
    obtain ⟨hab, hba⟩ := fadd_inf_fin ha hb
    rw [hab, hba]
    exact ⟨unpack32_inf32 s, unpack32_inf32 s⟩
  case nan => rw [fadd_nan_left h, fadd_nan_right h]; exact ⟨isNaN32_nan32, isNaN32_nan32⟩

/-! ## NaN in a dot product (R226) -/

/-- A NaN channel, or an infinite one against a zero coefficient, has a NaN product. -/
theorem fmul_isNaN32 {x c : Word} (h : isNaN32 x = true ∨
    ((∃ neg, unpack32 x = .inf neg) ∧ ∃ neg e, unpack32 c = .fin neg 0 e)) :
    isNaN32 (fmul x c) = true := by
  rcases h with h | ⟨⟨s, hx⟩, t, e, hc⟩
  · rw [fmul_nan_left h, isNaN32_nan32]
  · rw [(fmul_inf_fin hx hc).1, if_pos rfl, isNaN32_nan32]

theorem fadd_isNaN32 {a b : Word} (h : isNaN32 a = true ∨ isNaN32 b = true) :
    isNaN32 (fadd a b) = true := by
  rcases h with h | h
  · rw [fadd_nan_left h, isNaN32_nan32]
  · rw [fadd_nan_right h, isNaN32_nan32]

/-- Settles O36: a NaN product makes every sum it enters NaN. -/
theorem naNChannelGivesNaN : Obligations.NaNChannelGivesNaN := by
  intro cfg p m hcm x c hmem h
  have hproduct := fmul_isNaN32 h
  rw [cmDot, hcm]
  simp only [List.mem_cons, List.not_mem_nil, or_false, Prod.mk.injEq] at hmem
  rcases hmem with ⟨rfl, rfl⟩ | ⟨rfl, rfl⟩ | ⟨rfl, rfl⟩ | ⟨rfl, rfl⟩
  · exact fadd_isNaN32 (.inl (fadd_isNaN32 (.inl (fadd_isNaN32 (.inl hproduct)))))
  · exact fadd_isNaN32 (.inl (fadd_isNaN32 (.inl (fadd_isNaN32 (.inr hproduct)))))
  · exact fadd_isNaN32 (.inl (fadd_isNaN32 (.inr hproduct)))
  · exact fadd_isNaN32 (.inr hproduct)

/-! ## The default F2I (R219) -/

/-- Settles O34: of a value with a binary fraction F2I is `shiftRne` of its magnitude, with its sign. -/
theorem floatToIntegerIsNearestEven : Obligations.FloatToIntegerIsNearestEven := by
  refine ⟨fun d neg m e hd => ⟨_, by rw [f2iDefault, hd], fun he => by rw [if_pos he], fun he => ?_⟩,
    by decide, by decide⟩
  rw [if_neg (by omega)]
  obtain ⟨hlow, hhigh, htie⟩ := shiftRne_nearest m (-e).toNat
  generalize shiftRne m (-e).toNat = q at *
  have hscale : signed neg q * 2 ^ (-e).toNat = signed neg (q * 2 ^ (-e).toNat) := by
    rw [signed_mul]; push_cast; rfl
  have hlow' : (2 * q + 1) * 2 ^ (-e).toNat = 2 * (q * 2 ^ (-e).toNat) + 2 ^ (-e).toNat := by ring
  have hhigh' : 2 * q * 2 ^ (-e).toNat = 2 * (q * 2 ^ (-e).toNat) := by ring
  have hparity : signed neg q % 2 = 0 ↔ q % 2 = 0 := by
    cases neg <;> simp only [signed, Int.ofNat_eq_natCast, if_true, Bool.false_eq_true, if_false] <;> omega
  rw [hscale, natAbs_signed_sub_same_sign, hparity]
  rw [hlow'] at hlow htie
  rw [hhigh'] at hhigh htie
  generalize q * 2 ^ (-e).toNat = Q at *
  generalize 2 ^ (-e).toNat = P at *
  exact ⟨by omega, fun h => htie (by omega)⟩

/-! ## Exact operations (R218, R226) -/

theorem unpack32_one : unpack32 0x3F800000 = .fin false (2 ^ 23) (-23) := by decide

theorem fmul_one {a : Word} (h : isNaN32 a = false) : fmul a 0x3F800000 = a := by
  cases ha : unpack32 a with
  | nan => simp [(isNaN32_iff a).2 ha] at h
  | inf s =>
    rw [(fmul_inf_fin ha unpack32_one).1, if_neg (by decide), Bool.bne_false]
    exact (eq_inf32_of_unpack32 ha).symm
  | fin s m e =>
    obtain ⟨-, he, -⟩ := unpack32_fin ha
    rw [fmul_fin ha unpack32_one, Bool.bne_false]
    refine round32_eq_self (k := 172) (by decide) (by push_cast; omega) ha ?_
    rw [Nat.mul_assoc, two_pow_mul (c := (e + (172 : Nat)).toNat) (by push_cast; omega)]

/-- A zero factor gives a zero, in either order. -/
theorem fmul_zero {a z : Word} {neg s : Bool} {m : Nat} {e f : Int} (ha : unpack32 a = .fin neg m e)
    (hz : unpack32 z = .fin s 0 f) :
    fmul a z = pack32 (neg != s) 0 ∧ fmul z a = pack32 (neg != s) 0 := by
  rw [fmul_fin ha hz, fmul_fin hz ha, Nat.mul_zero, Nat.zero_mul, round32_zero, round32_zero, bne_comm]
  exact ⟨rfl, rfl⟩

/-- A zero addend leaves a nonzero finite value. -/
theorem fadd_zero_of_ne_zero {a z : Word} {neg s : Bool} {m : Nat} {e f : Int}
    (ha : unpack32 a = .fin neg m e) (hm : m ≠ 0) (hz : unpack32 z = .fin s 0 f) : fadd a z = a := by
  obtain ⟨-, he, -⟩ := unpack32_fin ha
  obtain ⟨-, hf, -⟩ := unpack32_fin hz
  have hsum : alignedSum neg s m 0 e f = signed neg (m * 2 ^ (e - min e f).toNat) := by
    simp [alignedSum]
  have hpos : m * 2 ^ (e - min e f).toNat ≠ 0 := Nat.mul_ne_zero hm (Nat.two_pow_pos _).ne'
  have hsign : decide (signed neg (m * 2 ^ (e - min e f).toNat) < 0) = neg := by
    cases neg with
    | true => simp only [signed, if_true, Int.ofNat_eq_natCast, decide_eq_true_eq]; omega
    | false => simp [signed]
  have hne : signed neg (m * 2 ^ (e - min e f).toNat) ≠ 0 := fun h =>
    hpos (by rw [← natAbs_signed neg (m * _), h]; rfl)
  rw [fadd_fin ha hz, hsum, natAbs_signed, hsign, if_neg hne]
  refine round32_eq_self (k := 149) le_rfl (by push_cast; omega) ha ?_
  rw [Nat.mul_assoc, two_pow_mul (c := (e + (149 : Nat)).toNat) (by push_cast; omega)]

/-- The sum of two zeros is a zero. -/
theorem fadd_zero_zero {a z : Word} {neg s : Bool} {e f : Int} (ha : unpack32 a = .fin neg 0 e)
    (hz : unpack32 z = .fin s 0 f) : fadd a z = pack32 (neg && s) 0 := by
  rw [fadd_fin ha hz, if_pos (by simp [alignedSum])]

theorem unpack32_zero (neg : Bool) : unpack32 (pack32 neg 0) = .fin neg 0 (-149) := by
  cases neg <;> decide

theorem f2iDefault_zero {a : Word} {neg : Bool} {e : Int} (ha : unpack32 a = .fin neg 0 e) :
    f2iDefault a = .int 0 := by
  have hshift : ∀ k, shiftRne 0 k = 0 := fun k => by simp [shiftRne]
  simp [f2iDefault, ha, hshift]

/-- Adding a zero shows in no NaN and in no rounded integer, and at most in the sign of a zero. -/
theorem fadd_zero_unseen (a : Word) {z : Word} {s : Bool} {f : Int} (hz : unpack32 z = .fin s 0 f) :
    isNaN32 (fadd a z) = isNaN32 a
    ∧ (isNaN32 a = false → f2iDefault (fadd a z) = f2iDefault a
        ∧ ((∀ s f, unpack32 a ≠ .fin s 0 f) → fadd a z = a)) := by
  cases ha : unpack32 a with
  | nan =>
    have hnan := (isNaN32_iff a).2 ha
    rw [fadd_nan_left hnan, hnan]
    exact ⟨isNaN32_nan32, fun h => by cases h⟩
  | inf t =>
    rw [(fadd_inf_fin ha hz).1, ← eq_inf32_of_unpack32 ha]
    exact ⟨rfl, fun _ => ⟨rfl, fun _ => rfl⟩⟩
  | fin neg m e =>
    by_cases hm : m = 0
    · subst hm
      have hsum := unpack32_zero (neg && s)
      rw [fadd_zero_zero ha hz, f2iDefault_zero hsum, f2iDefault_zero ha]
      refine ⟨by simp [isNaN32, hsum, ha], fun _ => ⟨rfl, fun h => absurd rfl (h neg e)⟩⟩
    · rw [fadd_zero_of_ne_zero ha hm hz]
      exact ⟨rfl, fun _ => ⟨rfl, fun _ => rfl⟩⟩

/-- Settles O37: the product with 1.0 and the sum with a zero are values already rounded, and the fourth
channel's product with a +0.0 coefficient is a zero. -/
theorem unitAndZeroAreExact : Obligations.UnitAndZeroAreExact := by
  refine ⟨fun a => fmul_one, fun a z neg s m e f ha hz => ?product,
    fun a z neg s m e f ha hm hz => fadd_zero_of_ne_zero ha hm hz, fun p m neg k e a hc hp hsum => ?fourth⟩
  case product =>
    obtain ⟨haz, hza⟩ := fmul_zero ha hz
    rw [haz, hza]
    exact ⟨by cases neg <;> cases s <;> rfl, rfl⟩
  case fourth =>
    have hzero : unpack32 (0x00000000 : Word) = .fin false 0 (-149) := by decide
    have hproduct : unpack32 (fmul p.c3 m.c3) = .fin (neg != false) 0 (-149) := by
      rw [hc, (fmul_zero hp hzero).1, unpack32_zero]
    rw [cmDotDefault, ← hsum]
    exact fadd_zero_unseen a hproduct

end Sys2Proof.Machine
end
